-- ==== Sys2Proof/Word.lean ====
section
/-! DEFINITION. The word types of the PMCE (00_scope.md R13; 10_state.md R22; 20_memory.md R45). -/

namespace Sys2Proof

/-- A byte: 8 bits (R13). -/
abbrev Byte := BitVec 8

/-- A register or bus word: 32 bits (R22). -/
abbrev Word := BitVec 32

/-- A byte address of the host bus space: 18 bits (R45). -/
abbrev BusAddr := BitVec 18

end Sys2Proof
end

