-- ==== Sys2Proof/Machine/Checksum.lean ====
section
/-! DEFINITION. The checksum (40_control_checksum.md R83, R84) and the little-endian byte orders (20_memory.md R50
to R52). -/

namespace Sys2Proof

/-- The 8-bit running sum of a byte sequence: Σ s[i] mod 256. -/
def byteSum (s : List Byte) : Byte := s.foldl (· + ·) 0

/-- C(s) = 255 − (Σ s[i]) mod 256 (R83). -/
def checksum (s : List Byte) : Byte := 255 - byteSum s

/-- A response frame that carries a checksum is valid exactly when C of the whole frame is 0 (R84). -/
def frameValid (f : List Byte) : Bool := checksum f == 0

/-- Byte `k` of a number: bits 8k+7:8k (R50). -/
def byteOf (v k : Nat) : Byte := BitVec.ofNat 8 (v >>> (8 * k))

/-- The `n` little-endian bytes of `v` (R50). -/
def leBytes (n v : Nat) : List Byte := (List.range n).map (byteOf v)

/-- The number little-endian bytes stand for (R50, R52). -/
def leNat : List Byte → Nat
  | [] => 0
  | b :: bs => b.toNat + 256 * leNat bs

end Sys2Proof
end

