-- ==== Sys2Proof/Config.lean ====
section
/-! DEFINITION. The constants of the source (00_scope.md R10), the parameters of the machine (R11, R12),
and the free values for what the spec leaves unspecified (93_implementation_defined.md U1 to U6). -/

namespace Sys2Proof

/-- DEV_PAGE: bytes per device page (R10). -/
def devPage : Nat := 256
/-- SHORT_MIN and SHORT_MAX: the payload length range of a short transaction (R10). -/
def shortMin : Nat := 1
def shortMax : Nat := 16
/-- COOKIE: the session cookie (R10). -/
def cookie : Byte := 0x00
/-- DUMP_BYTES: fixed by decision D9 (R11). -/
def dumpSize : Nat := 65536
/-- EFF_SLOTS, EFF_SLOT_BYTES, EFF_SLOTS_PER_BLK (R10). -/
def effSlots : Nat := 224
def effSlotBytes : Nat := 9
def effSlotsPerBlk : Nat := 7
/-- LOG_BLK: the log block of the efficiency and profile logs (R10). -/
def logBlk : Nat := 0x40
/-- PROF_STRIDE, PROF_LAST, PROF_FIRST (R10). -/
def profStride : Nat := 5
def profLast : Nat := 0x37
def profFirst : Nat := 5
/-- PER_FIELDS, PER_FIELD_BYTES, PER_MASK_BYTES (R10). -/
def perFields : Nat := 10
def perFieldBytes : Nat := 2
def perMaskBytes : Nat := 2
/-- PER_PAGE and PER_LEN_OFF: fixed by decisions D28 and D30 (R11). -/
def perPage : Nat := 256
def perLenOff : Nat := perPage - 1
/-- Bytes of one record entry in REC RAM (10_state.md R35). -/
def entryBytes : Nat := 32
/-- The host bus addresses of the two RAM windows (20_memory.md R46). -/
def dumpWindow : Nat := 0x10000
def recWindow : Nat := 0x20000

/-- PROF_WRAP_TO: where the profile walk goes after the last slot of the final block, 0 or 5 (R11, D23). -/
inductive WrapTo where
  | slot0
  | slot5
  deriving DecidableEq, Repr

/-- The wrap target as a byte offset. -/
def WrapTo.offset : WrapTo → Nat
  | .slot0 => 0
  | .slot5 => 5

/-- The parameters of R11 that a model takes as arguments (R12). A machine's State holds one `Config` that no step
changes, and a statement about every state holds for every value of every parameter. A record's bytes are read as one
little-endian number where a field is given by a bit position (45_record_fields.md R163: W bit b is bit 16 + b of the
profile record's 40 bits). -/
structure Config where
  /-- REC_CAP, 1..65535 (D34). -/
  recCap : Nat
  /-- EFF_CHG_OFF, EFF_DIS_OFF: offsets of the 24-bit counters in a slot (D19). -/
  effChgOff : Fin 7
  effDisOff : Fin 7
  /-- EFF_MIN_OFF: offset of the 16-bit cycle minutes (D19, D51). -/
  effMinOff : Fin 8
  /-- EFF_VALID_BYTE, EFF_VALID_BIT (D19). -/
  effValidByte : Fin 9
  effValidBit : Fin 8
  /-- PROF_PTR_BASE, 0..0xFFFF (D21). -/
  profPtrBase : BitVec 16
  /-- PROF_BLOCKS, 1..256 (D25). -/
  profBlocks : Nat
  /-- PROF_WRAP_TO (D23). -/
  profWrapTo : WrapTo
  /-- PROF_SEL_BYTE, PROF_SEL_BIT (D26). -/
  profSelByte : Fin 5
  profSelBit : Fin 8
  /-- The lowest bits of the profile record's amps, volts, percent-full and day (D26, R163). DESIGN CHOICE (log 18):
  each field is one run of bits. -/
  profAmpsLo : Fin 25
  profVoltsLo : Fin 31
  profPercentLo : Fin 36
  profDayLo : Fin 36
  /-- PER_PAGES, 1..32 (D28). -/
  perPages : Nat
  /-- PER_MASK_OFF, 0..PER_PAGE − 3 (D29). -/
  perMaskOff : Fin 254
  /-- SCI_MH_HI, SCI_E_HI, SCI_E_LO, SCI_SIGN: the scientific value's second byte (D35, R160). -/
  sciMhHi : Fin 8
  sciEHi : Fin 8
  sciELo : Fin 8
  sciSign : Fin 8
  deriving DecidableEq, Repr

/-- The ranges R11 gives for the parameters that their types do not already bound. -/
abbrev Config.wf (c : Config) : Prop :=
  1 ≤ c.recCap ∧ c.recCap ≤ 65535 ∧ 1 ≤ c.profBlocks ∧ c.profBlocks ≤ 256 ∧ 1 ≤ c.perPages ∧ c.perPages ≤ 32 ∧
    c.sciELo.val ≤ c.sciEHi.val

/-- The decided values of R11 and, for the OPEN parameters, the values the test vectors use (DESIGN CHOICE, log 2). -/
def Config.vectors : Config where
  recCap := 4096
  effChgOff := 0
  effDisOff := 3
  effMinOff := 6
  effValidByte := 8
  effValidBit := 7
  profPtrBase := 0
  profBlocks := 256
  profWrapTo := .slot0
  profSelByte := 4
  profSelBit := 7
  profAmpsLo := 0
  profVoltsLo := 16
  profPercentLo := 26
  profDayLo := 31
  perPages := 32
  perMaskOff := 0
  sciMhHi := 1
  sciEHi := 4
  sciELo := 2
  sciSign := 7

/-- A free value: what a RAM byte whose content is unspecified holds (U1 to U4), by the number of the event that
last left RAM content unspecified and the byte's host bus address. DESIGN CHOICE of form, log 1. -/
opaque Config.unspecifiedByte : Nat → Nat → Byte

/-- A free value: what a host read that R40 leaves unspecified returns (U5, U6), by the number of such reads so far.
DESIGN CHOICE of form, log 1. -/
opaque Config.unspecifiedRead : Nat → Word

end Sys2Proof
end

