-- ==== Sys2Proof/Syntax.lean ====
section
/-! DEFINITION. The instructions of the PMCE: the nine command words and the three wire request frames of
spec/opcode_table.json, one constructor a row (30_encoding.md R64, R68, R70, R72). -/

namespace Sys2Proof

/-- One constructor per row of the opcode table. A command keeps both operand bytes, also where R64 calls one
ignored, so that no bit of its word is lost. A wire frame is a request without the cookie, whose presence is
CTRL.COOKIE_EN's (R67, R78), and keeps the checksum byte it carries. -/
inductive Instr where
  /-- NOP (R86). -/
  | nop (a b : Byte)
  /-- CSUM_CLR (R87). -/
  | csumClr (a b : Byte)
  /-- CSUM_ADD: `a` is the byte to add (R88). -/
  | csumAdd (a b : Byte)
  /-- SREAD: device address `a`, length `b` (R97). -/
  | sread (a b : Byte)
  /-- SWRITE: device address `a`, length `b` (R100). -/
  | swrite (a b : Byte)
  /-- PREAD: start device page `a`, pages total `b` (R102). -/
  | pread (a b : Byte)
  /-- LOG_EFF: DUMP base page `a` (R113). -/
  | logEff (a b : Byte)
  /-- LOG_PROF: DUMP base page `a` (R128). -/
  | logProf (a b : Byte)
  /-- LOG_PER: DUMP base page `a` (R142). -/
  | logPer (a b : Byte)
  /-- The short read request 0x81 addr len checksum (R68). -/
  | wireShortRead (addr len cs : Byte)
  /-- The short write request 0x01 addr len payload[len] checksum (R70). -/
  | wireShortWrite (addr len : Byte) (payload : List Byte) (cs : Byte)
  /-- The paged read request 0xC1 start_page page_count checksum (R72). -/
  | wirePagedRead (page count cs : Byte)
  deriving DecidableEq, Repr

end Sys2Proof
end

