-- ==== Sys2Proof/Machine/State.lean ====
section
/-! DEFINITION. The state of the PMCE as plain data (10_state.md), the reasons a step can stop, and the state after
power-on reset (R41). -/

namespace Sys2Proof.Machine

/-- A RAM's bytes: (address, byte) pairs, addresses strictly rising. An address that is not listed holds an
unspecified value, so no byte value is what an unlisted address reads as (20_memory.md R47; log 1). -/
abbrev Memory := List Host.Cell

/-- The error kinds of STATUS.ERR (60_exceptions.md R173), and no error. -/
inductive Err where
  | none
  | other
  /-- Never raised by the engine (41_frames.md R109). -/
  | connectionError
  | communicationError
  | badResponse
  | dataFormatError
  | badRequest
  | outOfMemory
  deriving DecidableEq, Repr

/-- The paged read in flight: start page, pages total, window index (41_frames.md R102). -/
structure Window where
  p0 : Nat
  total : Nat
  i : Nat
  deriving DecidableEq, Repr

/-- What a transaction is for: which checks its response gets and what its end writes (41_frames.md). -/
inductive Job where
  /-- A short read of `n` payload bytes (R97). -/
  | shortRead (n : Nat)
  /-- A short write (R100). -/
  | shortWrite
  /-- One page window of a paged read, for device page `page` (R104). -/
  | pagedRead (w : Window) (page : Nat)
  deriving DecidableEq, Repr

/-- Where a periodic section ends: at the live pointer, or at the recorded length (44_log_periodic.md R147, R148). -/
inductive SectionEnd where
  | pointer (pr : Nat)
  | length (l : Nat)
  deriving DecidableEq, Repr

/-- The hidden state (10_state.md R39): the command in flight and where it stands. `k` is CTRL.COOKIE_EN as sampled at
issue (41_frames.md R94). `recn` is RECN (R35). -/
inductive Engine where
  /-- IDLE: no command in flight. -/
  | idle
  /-- Issued and not begun; `none` is an undefined command word (30_encoding.md R66). -/
  | issued (k : Bool) (cmd : Option Instr)
  /-- PREAD, before a window: PROGRESS.PDONE is to be written (R103). -/
  | progress (k : Bool) (w : Window)
  /-- PREAD, before a window: PROGRESS is written, STATUS.PROG is to be set (R103). -/
  | progFlag (k : Bool) (w : Window)
  /-- A request frame, without its cookie, is staged and is the engine's next thing to do. -/
  | request (k : Bool) (w : Option Window) (frame : List Byte)
  /-- LASTCS is written, ACC is to be cleared (R93); `n` is the response's length. -/
  | clearSum (k : Bool) (job : Job) (req : List Byte) (n : Nat)
  /-- Request bytes still to offer on TX (R93). -/
  | sending (k : Bool) (job : Job) (rest : List Byte) (n : Nat)
  /-- Response bytes received, and how many are still to come (R93, R95). -/
  | receiving (k : Bool) (job : Job) (resp : List Byte) (left : Nat)
  /-- Every write of the command is made; only the completion is left. `w` is a paged read's window. -/
  | ending (w : Option Window)
  /-- The efficiency walk before visiting slot `s`; `prev` is the slot visited before, `none` on the first
  (42_log_efficiency.md R113, R119). -/
  | walkEff (base p s : Nat) (prev : Option (List Byte)) (recn : Nat)
  /-- The profile walk before visiting offset `o`; `off` is the pointer's (43_log_profile.md R128, R135). -/
  | walkProf (base off o recn : Nat)
  /-- The periodic walk before reading page `g`'s mask; `p` is the pointer (44_log_periodic.md R142, R149). -/
  | perPage (base p g recn : Nat)
  /-- The periodic walk at cursor `c` of page `g`'s section. -/
  | perRecords (base p g c mask : Nat) (stop : SectionEnd) (recn : Nat)
  deriving DecidableEq, Repr

/-- The width of a host access (20_memory.md R53, R54). -/
inductive Width where
  | w8
  | w16
  | w32
  deriving DecidableEq, Repr

/-- One thing the host does (20_memory.md R46; 30_encoding.md R79, R80). -/
inductive HostOp where
  | read (w : Width) (a : BusAddr)
  /-- A write; a narrow one takes the value's low bits. -/
  | write (w : Width) (a : BusAddr) (v : Word)
  /-- `NET` and `SERIAL`: CTRL written back with COOKIE_EN set or cleared (R80). -/
  | cookie (en : Bool)
  /-- `WAIT`: STATUS read until BUSY reads 0 (R80). -/
  | waitIdle
  deriving DecidableEq, Repr

/-- A host access to come; `gap` is the number of engine micro-steps that pass before it lands (log 3). -/
structure Pending where
  gap : Nat
  op : HostOp
  deriving DecidableEq, Repr

/-- The transport's answer to an offered byte (10_state.md R38). -/
inductive TxAnswer where
  | ok
  | abort
  deriving DecidableEq, Repr

/-- The transport's answer to a request for a byte (10_state.md R38). -/
inductive RxAnswer where
  | byte (b : Byte)
  | abort
  deriving DecidableEq, Repr

structure State where
  /-- The parameters of the machine (00_scope.md R11, R12); no step changes them. -/
  cfg : Config
  /-- CTRL's fields (R23). -/
  cookieEn : Bool
  ie : Bool
  pie : Bool
  /-- STATUS's stored fields (R25); BUSY and CZ are views. -/
  done : Bool
  prog : Bool
  haz : Bool
  err : Err
  /-- PTR (R27). -/
  ptr : BitVec 16
  /-- CSUM.ACC (R28). -/
  acc : Byte
  /-- LASTCS (R29). -/
  lastcs : Byte
  /-- PROGRESS (R30). -/
  pdone : Byte
  ptotal : Byte
  /-- RECCNT (R31). -/
  reccnt : BitVec 16
  /-- WBUF and RBUF (R32, R33). -/
  wbuf : Vector Byte 16
  rbuf : Vector Byte 16
  /-- DUMP RAM, by DUMP byte address (R34). -/
  dump : Memory
  /-- REC RAM, by REC byte address (R35). -/
  recm : Memory
  /-- The hidden state (R39). -/
  engine : Engine
  /-- The model's own: how many events have left RAM content unspecified (log 1). -/
  epoch : Nat
  /-- The model's own: how many host reads have returned an unspecified value (log 1). -/
  draws : Nat
  /-- The model's own: the host has issued a command and not yet read STATUS with DONE = 1 since (20_memory.md R57,
  70_reset_and_hazards.md R200 (c); log 14). -/
  unseen : Bool
  /-- The model's own: the host's accesses to come, in its order (log 3). -/
  hostQ : List Pending
  /-- The model's own: the transport's answers to come, one list a port (log 4). -/
  txQ : List TxAnswer
  rxQ : List RxAnswer
  /-- The model's own record: the bytes sent on TX, oldest first (log 12). -/
  txSent : List Byte
  /-- The model's own record: the values host reads returned, oldest first (log 12). -/
  busReads : List Word
  deriving DecidableEq, Repr

/-- The PMCE never stops by itself: an error ends the command in flight and is reported in STATUS.ERR
(60_exceptions.md R175, R183). So there is no fault, and no constructor (log 13). -/
inductive Fault where
  deriving DecidableEq, Repr

/-- Accesses the spec gives no effect and asks a model to refuse. -/
inductive Refusal where
  /-- For an arm of exec without a meaning; no arm of this model answers it. Safe. -/
  | notModelled (mnemonic : String)
  /-- Raised by a host access to a register that is not 32 bits wide or not 4-byte aligned (R53, X1). Safe. -/
  | badRegisterAccess
  /-- Raised by a misaligned 16-bit or 32-bit host access to a RAM window (R54, X2). Safe. -/
  | misalignedWindowAccess
  deriving DecidableEq, Repr

/-- Sixteen zero bytes. -/
def zeroBuf : Vector Byte 16 := Vector.replicate 16 0

/-- Power-on reset of a machine with parameters `c` (R41, R191): registers 0, RAMs unspecified, engine IDLE. The
model's own lists are empty and its counters 0 (DESIGN CHOICE, log 1, log 8). -/
def State.resetWith (c : Config) : State where
  cfg := c
  cookieEn := false
  ie := false
  pie := false
  done := false
  prog := false
  haz := false
  err := .none
  ptr := 0
  acc := 0
  lastcs := 0
  pdone := 0
  ptotal := 0
  reccnt := 0
  wbuf := zeroBuf
  rbuf := zeroBuf
  dump := []
  recm := []
  engine := .idle
  epoch := 0
  draws := 0
  unseen := false
  hostQ := []
  txQ := []
  rxQ := []
  txSent := []
  busReads := []

/-- Power-on reset at the parameter values of R11 (DESIGN CHOICE, log 2). -/
def State.reset : State := State.resetWith Config.vectors

end Sys2Proof.Machine
end

