-- ==== Sys2Proof/Machine/Ops.lean ====
section
/-! DEFINITION. The shared operations: RAM access, issue, the end of a command (`finish` and `raise`, which is how
this machine takes an exception) and the host's acknowledge (its return), discard on failure, dropped writes. -/

namespace Sys2Proof.Machine

/-! ## RAM (20_memory.md R47, R48, R52, R55) -/

/-- The canonical form: addresses strictly rising, all below the RAM's size. -/
abbrev Memory.wf (size : Nat) (m : Memory) : Prop :=
  m.Pairwise (fun c d => c.1 < d.1) ∧ ∀ c ∈ m, c.1 < size

/-- The byte last written at an address, or `none` where the content is unspecified (R47). -/
def Memory.read (m : Memory) (a : Nat) : Option Byte := m.lookup a

/-- The cells of consecutive bytes from an address. -/
def cellsAt (a : Nat) : List Byte → Memory
  | [] => []
  | b :: bs => (a, b) :: cellsAt (a + 1) bs

/-- Consecutive bytes written from an address. -/
def Memory.store (m : Memory) (a : Nat) (bs : List Byte) : Memory :=
  m.filter (fun c => c.1 < a) ++ cellsAt a bs ++ m.filter (fun c => a + bs.length ≤ c.1)

/-- The bytes of addresses `lo` to `hi` − 1 become unspecified. -/
def Memory.forget (m : Memory) (lo hi : Nat) : Memory := m.filter (fun c => c.1 < lo || hi ≤ c.1)

/-- DumpRead(a) (00_scope.md R14, 20_memory.md R47). -/
def State.dumpByte (s : State) (a : Nat) : Byte :=
  (s.dump.read a).getD (Config.unspecifiedByte s.epoch (dumpWindow + a))

/-- `n` consecutive DUMP bytes. -/
def State.dumpBytes (s : State) (a n : Nat) : List Byte := (List.range n).map fun j => s.dumpByte (a + j)

/-- Le16(a) (R14, R52). -/
def State.le16 (s : State) (a : Nat) : Nat := leNat (s.dumpBytes a 2)

/-- A byte of REC RAM (R48). -/
def State.recByte (s : State) (o : Nat) : Byte :=
  (s.recm.read o).getD (Config.unspecifiedByte s.epoch (recWindow + o))

/-- The 32 bytes of REC entry `i` (10_state.md R35). -/
def State.entryAt (s : State) (i : Nat) : List Byte :=
  (List.range entryBytes).map fun j => s.recByte (entryBytes * i + j)

/-- DUMP bytes written from an address (DumpWrite, R14). -/
def State.dumpWrite (s : State) (a : Nat) (bs : List Byte) : State := { s with dump := s.dump.store a bs }

/-! ## The end of a command (60_exceptions.md R174, R175) -/

/-- BUSY <- 0, DONE <- 1 and ERR, as one step. -/
def State.complete (e : Err) (s : State) : State := { s with err := e, engine := .idle, done := true }

/-- `finish` (R174). -/
def State.finish (s : State) : State := s.complete .none

/-- `raise E` (R175): this machine's taking of an exception (R183). -/
def State.raise (e : Err) (s : State) : State := s.complete e

/-- The host's acknowledge, this machine's return from the event (R184): a write of 1 to DONE, PROG or HAZ clears
it (10_state.md R25). -/
def State.acknowledge (d p h : Bool) (s : State) : State :=
  { s with done := s.done && !d, prog := s.prog && !p, haz := s.haz && !h }

/-! ## Discard on failure -/

/-- A short read's failure leaves sixteen zero bytes in RBUF (41_frames.md R99). -/
def State.clearRbuf (s : State) : State := { s with rbuf := zeroBuf }

/-- The DUMP pages of a paged read become unspecified (41_frames.md R106, 60_exceptions.md R179). -/
def State.forgetPages (p0 total : Nat) (s : State) : State :=
  { s with dump := s.dump.forget (devPage * p0) (devPage * (p0 + total)), epoch := s.epoch + 1 }

/-- REC RAM becomes unspecified (60_exceptions.md R178). -/
def State.forgetRec (s : State) : State := { s with recm := [], epoch := s.epoch + 1 }

/-- A raise inside a LOG command (R178): RECCNT stays as it is, 0 since issue. -/
def State.raiseLog (e : Err) (s : State) : State := s.forgetRec.raise e

/-- A raise inside a transaction, with what its command discards (60_exceptions.md R179). -/
def State.raiseJob (job : Job) (e : Err) (s : State) : State :=
  match job with
  | .shortRead _ => s.clearRbuf.raise e
  | .shortWrite => s.raise e
  | .pagedRead w _ => (s.forgetPages w.p0 w.total).raise e

/-! ## Issue (10_state.md R26) -/

/-- Whether a command is one of LOG_EFF, LOG_PROF, LOG_PER, which set RECCNT to 0 at issue. -/
def isLog : Instr → Bool
  | .logEff _ _ => true
  | .logProf _ _ => true
  | .logPer _ _ => true
  | _ => false

/-- STATUS.BUSY: a command is in flight (R26). -/
def State.busy (s : State) : Bool := s.engine != .idle

/-- Issue of a command, or of an undefined command word (`none`): DONE and ERR cleared, BUSY set, the cookie bit
sampled (41_frames.md R94), RECCNT cleared for a LOG command. -/
def State.issue (cmd : Option Instr) (s : State) : State :=
  { s with
    done := false
    err := .none
    reccnt := if cmd.any isLog then 0 else s.reccnt
    engine := .issued s.cookieEn cmd }

/-- A host write that is dropped sets HAZ and changes nothing else (70_reset_and_hazards.md R199). -/
def State.dropWrite (s : State) : State := { s with haz := true }

/-- One engine micro-step brings the next host access one nearer (log 3). -/
def State.tick (s : State) : State :=
  { s with
    hostQ := match s.hostQ with
      | [] => []
      | p :: rest => { p with gap := p.gap - 1 } :: rest }

end Sys2Proof.Machine
end

