-- ==== Sys2Proof/Machine/Flags.lean ====
section
/-! DEFINITION. Flags and register words: STATUS with its views BUSY and CZ, the irq level, and what each register
reads as (10_state.md R22 to R37). -/

namespace Sys2Proof.Machine

/-- The code of an error kind (60_exceptions.md R173). -/
def Err.code : Err → Nat
  | .none => 0
  | .other => 1
  | .connectionError => 2
  | .communicationError => 3
  | .badResponse => 4
  | .dataFormatError => 5
  | .badRequest => 6
  | .outOfMemory => 7

/-- STATUS.CZ: ACC = 0xFF (R25, R28). -/
def State.cz (s : State) : Bool := s.acc == 0xFF

/-- The irq level (R37): (DONE and IE) or (PROG and PIE). -/
def State.irq (s : State) : Bool := s.done && s.ie || s.prog && s.pie

/-- A one-bit field of a register word at a bit position. -/
def bitAt (b : Bool) (k : Nat) : Nat := if b then 2 ^ k else 0

/-- CTRL as read (R23): SRST and the reserved bits read 0. -/
def State.ctrlWord (s : State) : Word := BitVec.ofNat 32 (bitAt s.cookieEn 0 + bitAt s.ie 1 + bitAt s.pie 2)

/-- STATUS as read (R25). -/
def State.statusWord (s : State) : Word :=
  BitVec.ofNat 32 (bitAt s.busy 0 + bitAt s.done 1 + bitAt s.prog 2 + bitAt s.haz 3 + 2 ^ 4 * s.err.code + bitAt s.cz 8)

/-- CSUM as read (R28): ACC, and CS = 0xFF − ACC. -/
def State.csumWord (s : State) : Word := (0 : BitVec 16) ++ (0xFF - s.acc : Byte) ++ s.acc

/-- PROGRESS as read (R30). -/
def State.progressWord (s : State) : Word := (0 : BitVec 16) ++ s.ptotal ++ s.pdone

/-- Word `k` of a 16-byte buffer: byte [4k+j] in bits 8j+7:8j (R32, R33). -/
def bufWord (b : Vector Byte 16) (k : Nat) : Word :=
  BitVec.ofNat 32 (leNat ((List.range 4).map fun j => b.toList.getD (4 * k + j) 0))

/-- A buffer with word `k` written (R32). -/
def setBufWord (b : Vector Byte 16) (k : Nat) (v : Word) : Vector Byte 16 :=
  Vector.ofFn fun i => if i.val / 4 = k then v.extractLsb' (8 * (i.val % 4)) 8 else b[i]

/-- The buffer a short read leaves: the payload, then zeros (41_frames.md R99). -/
def bufOf (payload : List Byte) : Vector Byte 16 := Vector.ofFn fun i => payload.getD i.val 0

/-- CSUM.ACC written (R28). -/
def State.setAcc (s : State) (v : Byte) : State := { s with acc := v }

end Sys2Proof.Machine
end

