-- ==== Sys2Proof/Machine/Control.lean ====
section
/-! DEFINITION. What NOP, CSUM_CLR and CSUM_ADD do once issued (40_control_checksum.md R86 to R88), and an undefined
command word (30_encoding.md R66). -/

namespace Sys2Proof.Machine

/-- An undefined command word ends at once with Other (R66). -/
def State.beginUndefined (s : State) : State := s.raise .other

/-- NOP: `finish` (R86). -/
def State.beginNop (s : State) : State := s.finish

/-- CSUM_CLR: ACC <- 0, then the completion (R87). -/
def State.beginCsumClr (s : State) : State := { s.setAcc 0 with engine := .ending none }

/-- CSUM_ADD: ACC <- (ACC + A) mod 256, then the completion (R88). -/
def State.beginCsumAdd (a : Byte) (s : State) : State := { s.setAcc (s.acc + a) with engine := .ending none }

end Sys2Proof.Machine
end

