-- ==== Sys2Proof/Machine/Entry.lean ====
section
/-! DEFINITION. Record entries (30_encoding.md R75) and Emit (10_state.md R35, 60_exceptions.md R178). -/

namespace Sys2Proof.Machine

/-- The RAW field's size (R75, R76). -/
def rawBytes : Nat := 20

/-- KIND (R75). -/
def kindEff : Byte := 0
def kindProf : Byte := 1
def kindPer : Byte := 2

/-- A record entry before it is laid out (R75). LEN is RAW's length. -/
structure Entry where
  kind : Byte
  tag : Byte
  raw : List Byte
  srcOff : Nat
  x0 : Nat
  x1 : Nat
  deriving DecidableEq, Repr

/-- RAW: the record's bytes, then zeros to 20 (R75). -/
def padRaw (raw : List Byte) : List Byte := (List.range rawBytes).map fun j => raw.getD j 0

/-- The 32 bytes of an entry (R75): RAW, KIND, TAG, SRC_OFF, LEN, a reserved 0, X0, X1. -/
def Entry.bytes (e : Entry) : List Byte :=
  padRaw e.raw ++ [e.kind, e.tag] ++ leBytes 2 e.srcOff ++ [BitVec.ofNat 8 e.raw.length, 0] ++ leBytes 3 e.x0 ++ leBytes 3 e.x1

/-- Entry `recn` written to REC RAM (R35). -/
def State.recWrite (s : State) (recn : Nat) (e : Entry) : State :=
  { s with recm := s.recm.store (entryBytes * recn) e.bytes }

/-- `Emit(e)` inside a walk that goes on as `next` says (R35): the entry is written and RECN counts on, or the command
raises OutOfMemory when RECN = REC_CAP (R178). `next` is given the new RECN. -/
def State.emit (s : State) (recn : Nat) (e : Entry) (next : Nat → State → State) : State :=
  if recn = s.cfg.recCap then s.raiseLog .outOfMemory else next (recn + 1) (s.recWrite recn e)

/-- The successful end of a LOG command: RECCNT <- RECN, then finish (60_exceptions.md R174). -/
def State.finishLog (recn : Nat) (s : State) : State := { s with reccnt := BitVec.ofNat 16 recn }.finish

end Sys2Proof.Machine
end

