-- ==== Sys2Proof/Machine/Operands.lean ====
section
/-! DEFINITION. Operand assembly (30_encoding.md R65), the pointer snapshot's decodings (R77), the slot geometry of the
three logs, and the bytes of the request frames (R67 to R73). -/

namespace Sys2Proof.Machine

/-! ## Operands -/

/-- A "DUMP base page" operand names DUMP byte 256·A (R65). -/
def basePage (a : Byte) : Nat := devPage * a.toNat

/-- PTR[15], the memory full flag of every log (R77). -/
def ptrFull (p : BitVec 16) : Bool := p.getLsbD 15

/-! ## Efficiency log geometry (42_log_efficiency.md) -/

/-- Slot index p = PTR[14:0] (R115). -/
def effPtr (p : BitVec 16) : Nat := p.toNat % 2 ^ 15

/-- The region: 32 log blocks (R114). -/
def effRegion : Nat := effSlots / effSlotsPerBlk * logBlk

/-- Start slot (R118). -/
def effStart (p : Nat) (full : Bool) : Nat := if full then (p + 1) % effSlots else 1

/-- SlotOff(s) (R120). -/
def slotOff (s : Nat) : Nat := logBlk * (s / effSlotsPerBlk) + effSlotBytes * (s % effSlotsPerBlk)

/-- Valid(slot) (R121). -/
def effValid (c : Config) (slot : List Byte) : Bool := (slot.getD c.effValidByte.val 0).getLsbD c.effValidBit.val

/-- Ctr(x, o): the little-endian 24-bit counter at byte `o` (R122). -/
def ctr (x : List Byte) (o : Nat) : Nat := leNat [x.getD o 0, x.getD (o + 1) 0, x.getD (o + 2) 0]

/-- A delta of cumulative counters, wrapping at 2^24 (R122). -/
def ctrDelta (slot prev : List Byte) (o : Nat) : Nat := (ctr slot o + 2 ^ 24 - ctr prev o) % 2 ^ 24

/-! ## Profile log geometry (43_log_profile.md) -/

/-- The region's bytes: NB log blocks (R130). -/
def profRegion (c : Config) : Nat := logBlk * c.profBlocks

/-- off = (PTR − PROF_PTR_BASE) mod 2^14 (R130). -/
def profOff (c : Config) (p : BitVec 16) : Nat := (p - c.profPtrBase).toNat % 2 ^ 14

/-- SlotSet (R131). -/
def inSlotSet (c : Config) (o : Nat) : Bool :=
  decide (o < profRegion c) && decide (o % logBlk % profStride = 0) && decide (o % logBlk ≤ profLast) &&
    !(decide (o = 0) && c.profWrapTo == .slot5)

/-- Advance(o) (R134). -/
def advance (c : Config) (o : Nat) : Nat :=
  if o % logBlk < profLast then o + profStride
  else if o / logBlk + 1 < c.profBlocks then logBlk * (o / logBlk + 1)
  else c.profWrapTo.offset

/-- Start slot (R133). -/
def profStart (c : Config) (off : Nat) (full : Bool) : Nat := if full then advance c off else profFirst

/-- The battery number, 1 or 2, of a profile record (R136). -/
def batteryTag (c : Config) (rec5 : List Byte) : Byte :=
  if (rec5.getD c.profSelByte.val 0).getLsbD c.profSelBit.val then 2 else 1

/-! ## Periodic log geometry (44_log_periodic.md) -/

/-- p = PTR[12:0] (R143). -/
def perPtr (p : BitVec 16) : Nat := p.toNat % 2 ^ 13

/-- The region's bytes: NP periodic pages (R143). -/
def perRegion (c : Config) : Nat := c.perPages * perPage

/-- Starting page (R145). -/
def perStart (c : Config) (pp : Nat) (full : Bool) : Nat := if full then (pp + 1) % c.perPages else 0

/-- Where a section's records start in its page (R146). -/
def perFirst (c : Config) : Nat := c.perMaskOff.val + perMaskBytes

/-- popcount of mask[k−1:0]. -/
def maskCount (mask k : Nat) : Nat := ((List.range k).filter mask.testBit).length

/-- The width of every record of a section: w = 2 · popcount(mask[9:0]) (R146, R154). -/
def recordWidth (mask : Nat) : Nat := perFieldBytes * maskCount mask perFields

/-! ## Request frames (30_encoding.md) -/

/-- The cookie bytes a frame starts with (R67). -/
def cookieBytes (k : Bool) : List Byte := if k then [cookie] else []

/-- Number of cookie bytes. -/
def cookieLen (k : Bool) : Nat := if k then 1 else 0

/-- A request's bytes and their checksum (R83). -/
def withChecksum (bs : List Byte) : List Byte := bs ++ [checksum bs]

/-- The short read request (R68), without the cookie, which adds nothing to the checksum (40_control_checksum.md R90). -/
def shortReadRequest (addr len : Byte) : List Byte := withChecksum [0x81, addr, len]

/-- The short write request (R70). -/
def shortWriteRequest (addr len : Byte) (payload : List Byte) : List Byte := withChecksum (0x01 :: addr :: len :: payload)

/-- The paged read request for one page (R72, 41_frames.md R104). -/
def pagedReadRequest (page : Byte) : List Byte := withChecksum [0xC1, page, 0x01]

end Sys2Proof.Machine
end

