-- ==== Sys2Proof/Machine/LogEff.lean ====
section
/-! DEFINITION. LOG_EFF once issued (42_log_efficiency.md R113 to R127). -/

namespace Sys2Proof.Machine

/-- The checks before the walk, in R180's order, and the walk's start (R113 to R118). -/
def State.beginLogEff (a : Byte) (s : State) : State :=
  if dumpSize < basePage a + effRegion then s.raiseLog .badRequest
  else if effSlots ≤ effPtr s.ptr then s.raiseLog .dataFormatError
  else if effPtr s.ptr = 0 ∧ ptrFull s.ptr = false then s.finishLog 0
  else { s with engine := .walkEff (basePage a) (effPtr s.ptr) (effStart (effPtr s.ptr) (ptrFull s.ptr)) none 0 }

/-- The entry of a valid slot `sl` after the slot `prev` (R122, R123). -/
def effEntry (c : Config) (sl : Nat) (slot prev : List Byte) : Entry where
  kind := kindEff
  tag := 0
  raw := slot
  srcOff := slotOff sl
  x0 := ctrDelta slot prev c.effChgOff.val
  x1 := ctrDelta slot prev c.effDisOff.val

/-- The nine bytes of slot `sl` of the region at `base` (R120). -/
def State.effSlotAt (base sl : Nat) (s : State) : List Byte := s.dumpBytes (base + slotOff sl) effSlotBytes

/-- After a visit: the walk ends at the pointer slot, else the next slot (R119). -/
def State.nextEff (base p sl : Nat) (slot : List Byte) (recn : Nat) (s : State) : State :=
  if sl = p then s.finishLog recn
  else { s with engine := .walkEff base p ((sl + 1) % effSlots) (some slot) recn }

/-- One visit: a record when the slot is valid and not the first visited (R119 to R122). -/
def State.stepEff (base p sl : Nat) (prev : Option (List Byte)) (recn : Nat) (s : State) : State :=
  match prev with
  | none => s.nextEff base p sl (s.effSlotAt base sl) recn
  | some pv =>
    if effValid s.cfg (s.effSlotAt base sl) then
      s.emit recn (effEntry s.cfg sl (s.effSlotAt base sl) pv) (State.nextEff base p sl (s.effSlotAt base sl))
    else s.nextEff base p sl (s.effSlotAt base sl) recn

end Sys2Proof.Machine
end

