-- ==== Sys2Proof/Machine/LogPer.lean ====
section
/-! DEFINITION. LOG_PER once issued (44_log_periodic.md R142 to R158). -/

namespace Sys2Proof.Machine

/-- The checks before the walk, in R180's order, and the walk's start (R142 to R145). -/
def State.beginLogPer (a : Byte) (s : State) : State :=
  if dumpSize < basePage a + perRegion s.cfg then s.raiseLog .badRequest
  else if perRegion s.cfg ≤ perPtr s.ptr then s.raiseLog .dataFormatError
  else if perPtr s.ptr % perPage = 0 then s.finishLog 0
  else { s with engine := .perPage (basePage a) (perPtr s.ptr)
                            (perStart s.cfg (perPtr s.ptr / perPage) (ptrFull s.ptr)) 0 }

/-- The entry of a record of `w` bytes at cursor `c` of page `g` (R151). -/
def perEntry (g c mask : Nat) (raw : List Byte) : Entry where
  kind := kindPer
  tag := 0
  raw := raw
  srcOff := g * perPage + c
  x0 := mask
  x1 := 0

/-- Where page `g`'s section ends: at the live pointer on the pointer's own page, whose length byte is not read, else
at the recorded length (R147, R148). -/
def State.sectionEnd (base p g : Nat) (s : State) : SectionEnd :=
  if g = p / perPage then .pointer (p % perPage) else .length (s.dumpByte (base + g * perPage + perLenOff)).toNat

/-- A page is entered: its mask and where its section ends are read (R146 to R148). -/
def State.stepPerPage (base p g recn : Nat) (s : State) : State :=
  { s with engine := .perRecords base p g (perFirst s.cfg) (s.le16 (base + g * perPage + s.cfg.perMaskOff.val))
                       (s.sectionEnd base p g) recn }

/-- The next record, which must fit whole before `bound` (R152), is emitted (R151) and the cursor goes past it. -/
def State.perConsume (base p g c mask : Nat) (stop : SectionEnd) (bound recn : Nat) (s : State) : State :=
  if recordWidth mask = 0 ∨ bound < c + recordWidth mask then s.raiseLog .dataFormatError
  else s.emit recn (perEntry g c mask (s.dumpBytes (base + g * perPage + c) (recordWidth mask)))
    (fun n t => { t with engine := .perRecords base p g (c + recordWidth mask) mask stop n })

/-- At a cursor: on the pointer's page the walk ends when the cursor is the pointer (R147); on another page the walk
goes to the next page once the cursor has reached the length (R148, R150); else the next record. -/
def State.stepPerRecords (base p g c mask : Nat) (stop : SectionEnd) (recn : Nat) (s : State) : State :=
  match stop with
  | .pointer pr => if c = pr then s.finishLog recn else s.perConsume base p g c mask stop pr recn
  | .length l =>
    if c < l then s.perConsume base p g c mask stop l recn
    else { s with engine := .perPage base p ((g + 1) % s.cfg.perPages) recn }

end Sys2Proof.Machine
end

