-- ==== Sys2Proof/Machine/LogProf.lean ====
section
/-! DEFINITION. LOG_PROF once issued (43_log_profile.md R128 to R141). -/

namespace Sys2Proof.Machine

/-- The checks before the walk, in R180's order, and the walk's start (R128 to R133). -/
def State.beginLogProf (a : Byte) (s : State) : State :=
  if dumpSize < basePage a + profRegion s.cfg then s.raiseLog .badRequest
  else if inSlotSet s.cfg (profOff s.cfg s.ptr) = false then s.finishLog 0
  else { s with engine := .walkProf (basePage a) (profOff s.cfg s.ptr)
                            (profStart s.cfg (profOff s.cfg s.ptr) (ptrFull s.ptr)) 0 }

/-- The entry of the record at offset `o` (R136, R137). -/
def profEntry (c : Config) (o : Nat) (rec5 : List Byte) : Entry where
  kind := kindProf
  tag := batteryTag c rec5
  raw := rec5
  srcOff := o
  x0 := 0
  x1 := 0

/-- After a visit: the walk ends at the pointer's offset, else the next slot (R134, R135). -/
def State.nextProf (base off o recn : Nat) (s : State) : State :=
  if o = off then s.finishLog recn
  else { s with engine := .walkProf base off (advance s.cfg o) recn }

/-- One visit: every visited slot gives a record (R135, R136). -/
def State.stepProf (base off o recn : Nat) (s : State) : State :=
  s.emit recn (profEntry s.cfg o (s.dumpBytes (base + o) profStride)) (State.nextProf base off o)

end Sys2Proof.Machine
end

