-- ==== Sys2Proof/Decode.lean ====
section
/-! DEFINITION. Decoding of command words and request frames, total and rejecting by name, and the encoder
(30_encoding.md R63 to R73). -/

namespace Sys2Proof

/-- Why bits are no instruction. -/
inductive DecodeError where
  /-- A command word with RSV ≠ 0 (R66). -/
  | reservedNonzero
  /-- A command word whose OP is not in the opcode map (R66). -/
  | undefinedOpcode
  /-- A frame whose command byte is none of 0x81, 0x01, 0xC1 (R68, R70, R72). -/
  | unknownFrame
  /-- A frame that ends before its last field. -/
  | truncatedFrame
  deriving DecidableEq, Repr

/-- The fields of a command word (R63). -/
def opField (w : Word) : Byte := w.extractLsb' 0 8
def aField (w : Word) : Byte := w.extractLsb' 8 8
def bField (w : Word) : Byte := w.extractLsb' 16 8
def rsvField (w : Word) : Byte := w.extractLsb' 24 8

/-- The opcode map (R64). -/
def decodeOp (op a b : Byte) : Except DecodeError Instr :=
  if op = 0x00 then .ok (.nop a b)
  else if op = 0x01 then .ok (.csumClr a b)
  else if op = 0x02 then .ok (.csumAdd a b)
  else if op = 0x10 then .ok (.sread a b)
  else if op = 0x11 then .ok (.swrite a b)
  else if op = 0x12 then .ok (.pread a b)
  else if op = 0x20 then .ok (.logEff a b)
  else if op = 0x21 then .ok (.logProf a b)
  else if op = 0x22 then .ok (.logPer a b)
  else .error .undefinedOpcode

/-- The command word's meaning as an instruction (R63, R64, R66). -/
def decodeCommand (w : Word) : Except DecodeError Instr :=
  if rsvField w = 0 then decodeOp (opField w) (aField w) (bField w) else .error .reservedNonzero

/-- A short write's bytes after the length: `len` payload bytes and the checksum (R70). -/
def decodeShortWrite (addr len : Byte) (rest : List Byte) : Except DecodeError (Instr × List Byte) :=
  match rest.drop len.toNat with
  | cs :: more => .ok (.wireShortWrite addr len (rest.take len.toNat) cs, more)
  | [] => .error .truncatedFrame

/-- A request frame without its cookie, and the bytes after it (R68, R70, R72). -/
def decodeFrame : List Byte → Except DecodeError (Instr × List Byte)
  | [] => .error .truncatedFrame
  | c :: bs =>
    if c = 0x81 then
      match bs with
      | addr :: len :: cs :: more => .ok (.wireShortRead addr len cs, more)
      | _ => .error .truncatedFrame
    else if c = 0x01 then
      match bs with
      | addr :: len :: rest => decodeShortWrite addr len rest
      | _ => .error .truncatedFrame
    else if c = 0xC1 then
      match bs with
      | page :: count :: cs :: more => .ok (.wirePagedRead page count cs, more)
      | _ => .error .truncatedFrame
    else .error .unknownFrame

/-- The two kinds of code: a word written to CMD, and the bytes of a request frame. -/
inductive Code where
  | command (w : Word)
  | frame (bytes : List Byte)
  deriving DecidableEq, Repr

/-- The instruction a code stands for; bytes after a frame are not its own. -/
def decode : Code → Except DecodeError Instr
  | .command w => decodeCommand w
  | .frame bytes => (decodeFrame bytes).map Prod.fst

/-- The command word 00000000 BBBBBBBB AAAAAAAA oooooooo (R63). -/
def commandWord (op a b : Byte) : Word := (0 : Byte) ++ b ++ a ++ op

/-- The short read request's bytes (R68). -/
def shortReadBytes (addr len cs : Byte) : List Byte := [0x81, addr, len, cs]
/-- The short write request's bytes (R70). -/
def shortWriteBytes (addr len : Byte) (payload : List Byte) (cs : Byte) : List Byte := 0x01 :: addr :: len :: (payload ++ [cs])
/-- The paged read request's bytes (R72). -/
def pagedReadBytes (page count cs : Byte) : List Byte := [0xC1, page, count, cs]

/-- The encoder, from the same tables. -/
def encode : Instr → Code
  | .nop a b => .command (commandWord 0x00 a b)
  | .csumClr a b => .command (commandWord 0x01 a b)
  | .csumAdd a b => .command (commandWord 0x02 a b)
  | .sread a b => .command (commandWord 0x10 a b)
  | .swrite a b => .command (commandWord 0x11 a b)
  | .pread a b => .command (commandWord 0x12 a b)
  | .logEff a b => .command (commandWord 0x20 a b)
  | .logProf a b => .command (commandWord 0x21 a b)
  | .logPer a b => .command (commandWord 0x22 a b)
  | .wireShortRead addr len cs => .frame (shortReadBytes addr len cs)
  | .wireShortWrite addr len payload cs => .frame (shortWriteBytes addr len payload cs)
  | .wirePagedRead page count cs => .frame (pagedReadBytes page count cs)

/-- Bytes of the longest request frame without its cookie: a short write of 16 bytes (R70). -/
def longestFrame : Nat := 20

/-- The code laid out from an opcode-table row's bits: a 32-bit row is a command word, a shorter one the first
bytes of a request frame, the rest of the frame zeros. -/
def tableCode (nbits w : Nat) : Code :=
  if nbits = 32 then .command (BitVec.ofNat 32 w) else .frame (leBytes longestFrame (w % 2 ^ nbits))

/-- The instruction the decoder reads from an opcode-table row's bits. -/
def decodeTableWord (nbits w : Nat) : Option Instr := (decode (tableCode nbits w)).toOption

end Sys2Proof
end

