-- ==== Sys2Proof/WellFormed.lean ====
section
/-! DEFINITION. Which instructions are well formed: every command, and the request frames this engine builds
(30_encoding.md R63, R68, R70, R72). -/

namespace Sys2Proof

/-- A short transaction's length field is in 1..16 (41_frames.md R98). -/
def shortLenOk (len : Byte) : Bool := decide (shortMin ≤ len.toNat ∧ len.toNat ≤ shortMax)

/-- A command may hold any A and B: R65 leaves their checks to the command. A frame has a length in range, as many
payload bytes as it says, page count 1, and the checksum of its own bytes. -/
def Instr.wf : Instr → Bool
  | .nop _ _ => true
  | .csumClr _ _ => true
  | .csumAdd _ _ => true
  | .sread _ _ => true
  | .swrite _ _ => true
  | .pread _ _ => true
  | .logEff _ _ => true
  | .logProf _ _ => true
  | .logPer _ _ => true
  | .wireShortRead addr len cs => shortLenOk len && cs == checksum [0x81, addr, len]
  | .wireShortWrite addr len payload cs =>
    shortLenOk len && payload.length == len.toNat && cs == checksum (0x01 :: addr :: len :: payload)
  | .wirePagedRead page count cs => count == 1 && cs == checksum [0xC1, page, count]

end Sys2Proof
end

