-- ==== Sys2Proof/Machine/Transact.lean ====
section
/-! DEFINITION. The transactions (41_frames.md): what SREAD, SWRITE and PREAD do once issued, what each request frame
does when the engine takes it up, and the micro-steps of Transact (R93) and of the checks of a response (R95). -/

namespace Sys2Proof.Machine

/-! ## The commands -/

/-- SREAD: the length check, then the request is staged (R97, R98). -/
def State.beginSread (k : Bool) (a b : Byte) (s : State) : State :=
  if shortLenOk b then { s with engine := .request k none (shortReadRequest a b) }
  else s.clearRbuf.raise .badRequest

/-- SWRITE: the length check, then the request with WBUF[0..n−1] is staged (R100). -/
def State.beginSwrite (k : Bool) (a b : Byte) (s : State) : State :=
  if shortLenOk b then { s with engine := .request k none (shortWriteRequest a b (s.wbuf.toList.take b.toNat)) }
  else s.raise .badRequest

/-- PREAD: the range check, then PTOTAL <- T and the first window (R102). A failed check, like every failure of PREAD,
leaves the command's DUMP pages unspecified (60_exceptions.md R179). -/
def State.beginPread (k : Bool) (a b : Byte) (s : State) : State :=
  if b.toNat = 0 ∨ 256 < a.toNat + b.toNat then (s.forgetPages a.toNat b.toNat).raise .badRequest
  else { s with ptotal := b, engine := .progress k { p0 := a.toNat, total := b.toNat, i := 0 } }

/-- PREAD before window i: PDONE <- i (R103). -/
def State.stepProgress (k : Bool) (w : Window) (s : State) : State :=
  { s with pdone := BitVec.ofNat 8 w.i, engine := .progFlag k w }

/-- PREAD before window i: PROG <- 1, then the window's request is staged (R103, R104). -/
def State.stepProgFlag (k : Bool) (w : Window) (s : State) : State :=
  { s with prog := true, engine := .request k (some w) (pagedReadRequest (BitVec.ofNat 8 (w.p0 + w.i))) }

/-! ## The request frames -/

/-- Transact's start: LASTCS <- the request's last byte (R93). `frame` is the request without its cookie. -/
def State.startTransact (k : Bool) (job : Job) (frame : List Byte) (n : Nat) (s : State) : State :=
  { s with lastcs := frame.getLastD 0, engine := .clearSum k job (cookieBytes k ++ frame) n }

/-- The short read request is taken up: its response is k + len + 1 bytes, as R69 and R97's pseudocode give it
(DEDUCED, log 20). A length outside 1..16 is BadRequest, as in SREAD (log 6). -/
def State.takeShortRead (k : Bool) (addr len cs : Byte) (s : State) : State :=
  if shortLenOk len then
    s.startTransact k (.shortRead len.toNat) (shortReadBytes addr len cs) (cookieLen k + len.toNat + 1)
  else s.raiseJob (.shortRead len.toNat) .badRequest

/-- The short write request is taken up: its response is k + 1 bytes (R71, R100). A length outside 1..16, or one that
is not the payload's, is BadRequest (log 6). -/
def State.takeShortWrite (k : Bool) (addr len : Byte) (payload : List Byte) (cs : Byte) (s : State) : State :=
  if shortLenOk len && payload.length == len.toNat then
    s.startTransact k .shortWrite (shortWriteBytes addr len payload cs) (cookieLen k + 1)
  else s.raiseJob .shortWrite .badRequest

/-- The window a paged read request belongs to; one that no PREAD staged is a read of its own page (log 5). -/
def windowOf (w : Option Window) (page : Byte) : Window := w.getD { p0 := page.toNat, total := 1, i := 0 }

/-- The paged read request is taken up: its response is k + 257 bytes (R73, R102). A page count other than 1 is
BadRequest (R72; log 6). -/
def State.takePagedRead (k : Bool) (w : Option Window) (page count cs : Byte) (s : State) : State :=
  if count = 1 then
    s.startTransact k (.pagedRead (windowOf w page) page.toNat) (pagedReadBytes page count cs)
      (cookieLen k + devPage * count.toNat + 1)
  else s.raiseJob (.pagedRead (windowOf w page) page.toNat) .badRequest

/-- The staged request is taken up by what its bytes are. Bytes that are no request frame end the command with
Other: the engine stages none (log 6). -/
def State.takeRequest (k : Bool) (w : Option Window) (frame : List Byte) (s : State) : State :=
  match decodeFrame frame with
  | .ok (.wireShortRead addr len cs, _) => s.takeShortRead k addr len cs
  | .ok (.wireShortWrite addr len payload cs, _) => s.takeShortWrite k addr len payload cs
  | .ok (.wirePagedRead page count cs, _) => s.takePagedRead k w page count cs
  | _ => s.raise .other

/-! ## Transact (R93) -/

/-- ACC <- 0 (R93). -/
def State.stepClearSum (k : Bool) (job : Job) (req : List Byte) (n : Nat) (s : State) : State :=
  { s.setAcc 0 with engine := .sending k job req n }

/-- One request byte is offered on TX; without an answer the engine waits (R93; 10_state.md R38). After the last, the
response is asked for. -/
def State.stepSending (k : Bool) (job : Job) (rest : List Byte) (n : Nat) (s : State) : Option State :=
  match rest with
  | [] => some { s with engine := .receiving k job [] n }
  | b :: more =>
    match s.txQ with
    | [] => none
    | .ok :: q => some { s with txQ := q, txSent := s.txSent ++ [b], engine := .sending k job more n }
    | .abort :: q => some (State.raiseJob job .communicationError { s with txQ := q })

/-- The end of a short read: RBUF takes the payload, then zeros (R97, R99). -/
def State.endShortRead (k : Bool) (n : Nat) (resp : List Byte) (s : State) : State :=
  { s with rbuf := bufOf ((resp.drop (cookieLen k)).take n) }.finish

/-- The end of a page window: the page is written to DUMP, then the next window or, after the last, PDONE <- T
(R102, R104, R105). -/
def State.endWindow (k : Bool) (w : Window) (page : Nat) (resp : List Byte) (s : State) : State :=
  if w.i + 1 < w.total then
    { s.dumpWrite (devPage * page) ((resp.drop (cookieLen k)).take devPage) with engine := .progress k { w with i := w.i + 1 } }
  else
    { s.dumpWrite (devPage * page) ((resp.drop (cookieLen k)).take devPage) with
      pdone := BitVec.ofNat 8 w.total, engine := .ending (some w) }

/-- The cookie check of a response (R94, R95). -/
def cookieOk (k : Bool) (resp : List Byte) : Bool := !k || resp.getD 0 0 == cookie

/-- The command's own check of a response (R95): the checksum (R97, R104), or the echo (R101). -/
def State.responseOk (k : Bool) (job : Job) (resp : List Byte) (s : State) : Bool :=
  match job with
  | .shortRead _ => frameValid resp
  | .shortWrite => resp.getD (cookieLen k) 0 == s.lastcs
  | .pagedRead _ _ => frameValid resp

/-- A whole response is checked, the cookie first, and the transaction ends (R95, R97, R100, R102). -/
def State.checkResponse (k : Bool) (job : Job) (resp : List Byte) (s : State) : State :=
  if cookieOk k resp && s.responseOk k job resp then
    match job with
    | .shortRead n => s.endShortRead k n resp
    | .shortWrite => s.finish
    | .pagedRead w page => s.endWindow k w page resp
  else s.raiseJob job .badResponse

/-- One response byte is taken from RX, without an answer the engine waits; after the last, the response is checked
(R93, R95). -/
def State.stepReceiving (k : Bool) (job : Job) (resp : List Byte) (left : Nat) (s : State) : Option State :=
  match left with
  | 0 => some (s.checkResponse k job resp)
  | m + 1 =>
    match s.rxQ with
    | [] => none
    | .byte b :: q => some { s with rxQ := q, acc := s.acc + b, engine := .receiving k job (resp ++ [b]) m }
    | .abort :: q => some (State.raiseJob job .communicationError { s with rxQ := q })

/-! ## The ports (10_state.md R38, 70_reset_and_hazards.md R191) -/

/-- The byte the TX port offers, if any. -/
def State.txOffer (s : State) : Option Byte :=
  match s.engine with
  | .sending _ _ (b :: _) _ => some b
  | _ => none

/-- Whether the RX port asks for a byte. -/
def State.rxAsks (s : State) : Bool :=
  match s.engine with
  | .receiving _ _ _ (_ + 1) => true
  | _ => false

end Sys2Proof.Machine
end

