-- ==== Sys2Proof/Machine/Engine.lean ====
section
/-! DEFINITION. The engine's micro-steps (10_state.md R26, R39), how far one step drives them, and the soft reset, which
stops them (70_reset_and_hazards.md R192). -/

namespace Sys2Proof.Machine

/-- What an issued command does first. A wire frame is no command word (30_encoding.md R64). -/
def State.beginCommand (k : Bool) (cmd : Option Instr) (s : State) : State :=
  match cmd with
  | none => s.beginUndefined
  | some (.nop _ _) => s.beginNop
  | some (.csumClr _ _) => s.beginCsumClr
  | some (.csumAdd a _) => s.beginCsumAdd a
  | some (.sread a b) => s.beginSread k a b
  | some (.swrite a b) => s.beginSwrite k a b
  | some (.pread a b) => s.beginPread k a b
  | some (.logEff a _) => s.beginLogEff a
  | some (.logProf a _) => s.beginLogProf a
  | some (.logPer a _) => s.beginLogPer a
  | some (.wireShortRead _ _ _) => s.beginUndefined
  | some (.wireShortWrite _ _ _ _) => s.beginUndefined
  | some (.wirePagedRead _ _ _) => s.beginUndefined

/-- One move of the engine, `none` while it is IDLE or waits for the transport. -/
def State.move (s : State) : Option State :=
  match s.engine with
  | .idle => none
  | .issued k cmd => some (s.beginCommand k cmd)
  | .progress k w => some (s.stepProgress k w)
  | .progFlag k w => some (s.stepProgFlag k w)
  | .request k w frame => some (s.takeRequest k w frame)
  | .clearSum k job req n => some (s.stepClearSum k job req n)
  | .sending k job rest n => s.stepSending k job rest n
  | .receiving k job resp left => s.stepReceiving k job resp left
  | .ending _ => some s.finish
  | .walkEff base p sl prev recn => some (s.stepEff base p sl prev recn)
  | .walkProf base off o recn => some (s.stepProf base off o recn)
  | .perPage base p g recn => some (s.stepPerPage base p g recn)
  | .perRecords base p g c mask stop recn => some (s.stepPerRecords base p g c mask stop recn)

/-- One micro-step: a move, which brings the next host access nearer. -/
def micro (s : State) : Option State := s.move.map State.tick

/-- Micro-steps one after another while `go` lets the engine's next one be taken, at most `fuel` of them. -/
def drive (go : Engine → Bool) : Nat → State → State
  | 0, s => s
  | fuel + 1, s =>
    if go s.engine then
      match micro s with
      | some t => drive go fuel t
      | none => s
    else s

/-- The most micro-steps one step takes; every command of a machine within R11's ranges needs fewer (log 7). -/
def microBound : Nat := 131072

/-- The micro-steps left before the next host access lands, or the bound when none is to come (log 3). -/
def State.budget (s : State) : Nat :=
  match s.hostQ with
  | [] => microBound
  | p :: _ => p.gap

/-- The engine runs until its command ends, it waits for the transport, or a host access is due. -/
def settle (s : State) : State := drive (fun _ => true) s.budget s

/-- Whether the engine's next micro-step still belongs to the transaction of the request it took up. -/
def Engine.inTransaction : Engine → Bool
  | .progress _ _ => false
  | .progFlag _ _ => false
  | .request _ _ _ => false
  | _ => true

/-- The engine takes up a request and runs to the end of its transaction. -/
def settleRequest (s : State) (taken : State) : State := drive Engine.inTransaction (s.budget - 1) taken.tick

/-- A command word is run: dropped with HAZ while BUSY (10_state.md R24), else issued and run (R26). -/
def runCommand (cmd : Option Instr) (s : State) : Host.Outcome State Fault Refusal :=
  .next (if s.busy then s.dropWrite else settle (s.issue cmd))

/-- A request frame is run when a request is staged for the command in flight; at any other time no frame is the
engine's to send and nothing happens (log 5). `take` is given the sampled cookie bit and the window. -/
def runRequest (take : Bool → Option Window → State → State) (s : State) : Host.Outcome State Fault Refusal :=
  .next (match s.engine with
    | .request k w _ => settleRequest s (take k w s)
    | _ => s)

/-! ## Soft reset (70_reset_and_hazards.md R192) -/

/-- What an abort of the command in flight leaves unspecified: a paged read's DUMP pages, a LOG command's REC RAM. -/
inductive Abandoned where
  | nothing
  | pages (p0 total : Nat)
  | records
  deriving DecidableEq, Repr

/-- What the abort of a command that has not begun leaves unspecified (R192). -/
def abandonedCommand : Option Instr → Abandoned
  | some (.pread a b) => .pages a.toNat b.toNat
  | some (.logEff _ _) => .records
  | some (.logProf _ _) => .records
  | some (.logPer _ _) => .records
  | _ => .nothing

/-- The pages of a paged read's window (R192). -/
def abandonedWindow : Option Window → Abandoned
  | some w => .pages w.p0 w.total
  | none => .nothing

/-- What the abort of a transaction leaves unspecified (R192). -/
def abandonedJob : Job → Abandoned
  | .shortRead _ => .nothing
  | .shortWrite => .nothing
  | .pagedRead w _ => .pages w.p0 w.total

/-- What the abort of the command in flight leaves unspecified (R192). -/
def Engine.abandoned : Engine → Abandoned
  | .idle => .nothing
  | .issued _ cmd => abandonedCommand cmd
  | .progress _ w => .pages w.p0 w.total
  | .progFlag _ w => .pages w.p0 w.total
  | .request _ w _ => abandonedWindow w
  | .clearSum _ job _ _ => abandonedJob job
  | .sending _ job _ _ => abandonedJob job
  | .receiving _ job _ _ => abandonedJob job
  | .ending w => abandonedWindow w
  | .walkEff _ _ _ _ _ => .records
  | .walkProf _ _ _ _ => .records
  | .perPage _ _ _ _ => .records
  | .perRecords _ _ _ _ _ _ _ => .records

/-- The RAM content an abort leaves. -/
def State.abandon (s : State) : State :=
  match s.engine.abandoned with
  | .nothing => s
  | .pages p0 total => s.forgetPages p0 total
  | .records => s.forgetRec

/-- The registers and the hidden state at their reset values (R41), everything else as it was. -/
def State.clearRegisters (s : State) : State :=
  { State.resetWith s.cfg with
    dump := s.dump
    recm := s.recm
    epoch := s.epoch
    draws := s.draws
    hostQ := s.hostQ
    txQ := s.txQ
    rxQ := s.rxQ
    txSent := s.txSent
    busReads := s.busReads }

/-- Soft reset (R192). -/
def State.softReset (s : State) : State := s.abandon.clearRegisters

end Sys2Proof.Machine
end

