-- ==== Sys2Proof/Machine/Commands.lean ====
section
/-! DEFINITION. The meanings of the nine command words. Each issues its command and runs the engine until the command
ends, the engine waits for the transport, or a host access is due (10_state.md R26; log 7). While BUSY the word is
dropped with HAZ (R24). What the command does is the `begin` operation named with it and the micro-steps it leads to. -/

namespace Sys2Proof.Machine

/-- NOP (40_control_checksum.md R86): `State.beginNop`. -/
def execNop (a b : Byte) (s : State) : Host.Outcome State Fault Refusal := runCommand (some (.nop a b)) s

/-- CSUM_CLR (R87): `State.beginCsumClr`. -/
def execCsumClr (a b : Byte) (s : State) : Host.Outcome State Fault Refusal := runCommand (some (.csumClr a b)) s

/-- CSUM_ADD (R88): `State.beginCsumAdd`. -/
def execCsumAdd (a b : Byte) (s : State) : Host.Outcome State Fault Refusal := runCommand (some (.csumAdd a b)) s

/-- SREAD (41_frames.md R97): `State.beginSread`. -/
def execSread (a b : Byte) (s : State) : Host.Outcome State Fault Refusal := runCommand (some (.sread a b)) s

/-- SWRITE (R100): `State.beginSwrite`. -/
def execSwrite (a b : Byte) (s : State) : Host.Outcome State Fault Refusal := runCommand (some (.swrite a b)) s

/-- PREAD (R102): `State.beginPread`. -/
def execPread (a b : Byte) (s : State) : Host.Outcome State Fault Refusal := runCommand (some (.pread a b)) s

/-- LOG_EFF (42_log_efficiency.md R113): `State.beginLogEff`. -/
def execLogEff (a b : Byte) (s : State) : Host.Outcome State Fault Refusal := runCommand (some (.logEff a b)) s

/-- LOG_PROF (43_log_profile.md R128): `State.beginLogProf`. -/
def execLogProf (a b : Byte) (s : State) : Host.Outcome State Fault Refusal := runCommand (some (.logProf a b)) s

/-- LOG_PER (44_log_periodic.md R142): `State.beginLogPer`. -/
def execLogPer (a b : Byte) (s : State) : Host.Outcome State Fault Refusal := runCommand (some (.logPer a b)) s

end Sys2Proof.Machine
end

