-- ==== Sys2Proof/Machine/WireFrames.lean ====
section
/-! DEFINITION. The meanings of the three wire request frames: the staged request is sent, its response received and
validated, and the transaction ended (30_encoding.md R67 to R74; 41_frames.md R93 to R104; log 5). -/

namespace Sys2Proof.Machine

/-- The short read frame (R68, R69, R97): `State.takeShortRead`. -/
def execWireShortRead (addr len cs : Byte) (s : State) : Host.Outcome State Fault Refusal :=
  runRequest (fun k _ t => t.takeShortRead k addr len cs) s

/-- The short write frame (R70, R71, R100): `State.takeShortWrite`. -/
def execWireShortWrite (addr len : Byte) (payload : List Byte) (cs : Byte) (s : State) : Host.Outcome State Fault Refusal :=
  runRequest (fun k _ t => t.takeShortWrite k addr len payload cs) s

/-- The paged read frame (R72, R73, R102): `State.takePagedRead`. -/
def execWirePagedRead (page count cs : Byte) (s : State) : Host.Outcome State Fault Refusal :=
  runRequest (fun k w t => t.takePagedRead k w page count cs) s

end Sys2Proof.Machine
end

