-- ==== Sys2Proof/Machine/Dispatch.lean ====
section
/-! DEFINITION. One arm per constructor of Instr. -/

namespace Sys2Proof.Machine

def exec (i : Instr) (s : State) : Host.Outcome State Fault Refusal :=
  match i with
  | .nop a b => Sys2Proof.Machine.execNop a b s
  | .csumClr a b => Sys2Proof.Machine.execCsumClr a b s
  | .csumAdd a b => Sys2Proof.Machine.execCsumAdd a b s
  | .sread a b => Sys2Proof.Machine.execSread a b s
  | .swrite a b => Sys2Proof.Machine.execSwrite a b s
  | .pread a b => Sys2Proof.Machine.execPread a b s
  | .logEff a b => Sys2Proof.Machine.execLogEff a b s
  | .logProf a b => Sys2Proof.Machine.execLogProf a b s
  | .logPer a b => Sys2Proof.Machine.execLogPer a b s
  | .wireShortRead addr len cs => Sys2Proof.Machine.execWireShortRead addr len cs s
  | .wireShortWrite addr len payload cs => Sys2Proof.Machine.execWireShortWrite addr len payload cs s
  | .wirePagedRead page count cs => Sys2Proof.Machine.execWirePagedRead page count cs s

end Sys2Proof.Machine
end

