-- ==== Sys2Proof/Machine/Bus.lean ====
section
/-! DEFINITION. The host bus (10_state.md R22 to R44; 20_memory.md R46 to R56): the register map, the two RAM windows,
reads and writes, and the hazard rule (70_reset_and_hazards.md R199). -/

namespace Sys2Proof.Machine

/-- The host-visible registers (R22). -/
inductive Reg where
  | ctrl
  | cmd
  | status
  | ptr
  | csum
  | lastcs
  | progress
  | reccnt
  /-- WBUF0..WBUF3. -/
  | wbuf (k : Fin 4)
  /-- RBUF0..RBUF3. -/
  | rbuf (k : Fin 4)
  deriving DecidableEq, Repr

/-- A register's byte offset (R22). -/
def Reg.offset : Reg → Nat
  | .ctrl => 0x00
  | .cmd => 0x04
  | .status => 0x08
  | .ptr => 0x0C
  | .csum => 0x10
  | .lastcs => 0x14
  | .progress => 0x18
  | .reccnt => 0x1C
  | .wbuf k => 0x20 + 4 * k.val
  | .rbuf k => 0x30 + 4 * k.val

/-- A register's host bus address. -/
def Reg.addr (r : Reg) : BusAddr := BitVec.ofNat 18 r.offset

/-- The register at a 4-byte aligned offset below 0x40 (R22). -/
def regAt (offset : Nat) : Reg :=
  match offset / 4 with
  | 0 => .ctrl
  | 1 => .cmd
  | 2 => .status
  | 3 => .ptr
  | 4 => .csum
  | 5 => .lastcs
  | 6 => .progress
  | 7 => .reccnt
  | 8 => .wbuf 0
  | 9 => .wbuf 1
  | 10 => .wbuf 2
  | 11 => .wbuf 3
  | 12 => .rbuf 0
  | 13 => .rbuf 1
  | 14 => .rbuf 2
  | _ => .rbuf 3

/-- An access's width in bytes. -/
def Width.bytes : Width → Nat
  | .w8 => 1
  | .w16 => 2
  | .w32 => 4

/-- Where an access goes (R46). -/
inductive Target where
  | reg (r : Reg)
  | unmapped
  /-- DUMP byte address. -/
  | dump (a : Nat)
  /-- REC byte address. -/
  | recs (o : Nat)
  | badRegister
  | misaligned
  deriving DecidableEq, Repr

/-- The target of an access (R46, R53, R54). A misaligned access that touches a window is a misaligned window access,
also where it starts below the window (log 9). -/
def target (w : Width) (a : BusAddr) : Target :=
  if a.toNat < 0x40 then
    if w = .w32 ∧ a.toNat % 4 = 0 then .reg (regAt a.toNat) else .badRegister
  else if a.toNat + w.bytes ≤ dumpWindow then .unmapped
  else if a.toNat % w.bytes ≠ 0 then .misaligned
  else if a.toNat < recWindow then .dump (a.toNat - dumpWindow)
  else .recs (a.toNat - recWindow)

/-! ## Reads (R40, R44, R46, R51) -/

/-- A register's value as read. -/
def State.regWord (s : State) : Reg → Word
  | .ctrl => s.ctrlWord
  | .cmd => 0
  | .status => s.statusWord
  | .ptr => s.ptr.setWidth 32
  | .csum => s.csumWord
  | .lastcs => s.lastcs.setWidth 32
  | .progress => s.progressWord
  | .reccnt => s.reccnt.setWidth 32
  | .wbuf k => bufWord s.wbuf k.val
  | .rbuf k => bufWord s.rbuf k.val

/-- The registers that hold results, whose value is unspecified while BUSY (R40). -/
def Reg.hiddenWhileBusy : Reg → Bool
  | .reccnt => true
  | .rbuf _ => true
  | _ => false

/-- A read returned a value the spec fixes. -/
def State.returned (v : Word) (s : State) : State := { s with busReads := s.busReads ++ [v] }

/-- A read returned an unspecified value: a free value of the access's width (R40; log 1). -/
def State.returnedAny (w : Width) (s : State) : State :=
  { s.returned (BitVec.ofNat 32 ((Config.unspecifiedRead s.draws).toNat % 2 ^ (8 * w.bytes))) with draws := s.draws + 1 }

/-- The value of `n` little-endian bytes (R51). -/
def wordOf (bs : List Byte) : Word := BitVec.ofNat 32 (leNat bs)

/-- Consecutive REC bytes. -/
def State.recBytes (s : State) (o n : Nat) : List Byte := (List.range n).map fun j => s.recByte (o + j)

/-- Whether results read as unspecified values: while BUSY (R40), and until the host has read STATUS with DONE = 1 for
the command it issued (R57, 70_reset_and_hazards.md R200 (c); log 14). -/
def State.hidden (s : State) : Bool := s.busy || s.unseen

/-- Whether REC byte `o` reads as an unspecified value: with the other results, and in an entry at or past RECCNT (R40). -/
def State.hidesRec (o : Nat) (s : State) : Bool := s.hidden || decide (s.reccnt.toNat ≤ o / entryBytes)

/-- The host has read STATUS (R57): with DONE = 1 it may read the results. DEDUCED (log 14): the DONE of a later command
opens the results of the earlier ones too. -/
def State.observe (s : State) : State := { s with unseen := s.unseen && !s.done }

/-- A register read. -/
def State.readReg (w : Width) (r : Reg) (s : State) : State :=
  if s.hidden && r.hiddenWhileBusy then s.returnedAny w
  else if r = .status then (s.returned s.statusWord).observe
  else s.returned (s.regWord r)

/-- A host read. No read changes anything but the model's own record, draw counter and `unseen` (R56). -/
def State.busRead (w : Width) (a : BusAddr) (s : State) : Host.Outcome State Fault Refusal :=
  match target w a with
  | .reg r => .next (s.readReg w r)
  | .unmapped => .next (s.returned 0)
  | .dump b => .next (if s.hidden then s.returnedAny w else s.returned (wordOf (s.dumpBytes b w.bytes)))
  | .recs o => .next (if s.hidesRec o then s.returnedAny w else s.returned (wordOf (s.recBytes o w.bytes)))
  | .badRegister => .refused .badRegisterAccess
  | .misaligned => .refused .misalignedWindowAccess

/-! ## Writes (R23 to R33, R44, R199) -/

/-- A write that is dropped with HAZ while BUSY, and done otherwise (R199). -/
def State.guarded (s : State) (f : State → State) : State := if s.busy then s.dropWrite else f s

/-- A write to CTRL (R23): bit 31 is the soft reset, accepted at any time. -/
def State.writeCtrl (v : Word) (s : State) : State :=
  if v.getLsbD 31 then s.softReset
  else s.guarded fun s => { s with cookieEn := v.getLsbD 0, ie := v.getLsbD 1, pie := v.getLsbD 2 }

/-- A write to a register other than CMD. -/
def State.writeReg (r : Reg) (v : Word) (s : State) : State :=
  match r with
  | .ctrl => s.writeCtrl v
  | .status => s.acknowledge (v.getLsbD 1) (v.getLsbD 2) (v.getLsbD 3)
  | .ptr => s.guarded fun s => { s with ptr := v.setWidth 16 }
  | .wbuf k => s.guarded fun s => { s with wbuf := setBufWord s.wbuf k.val v }
  | .cmd => s
  | .csum => s
  | .lastcs => s
  | .progress => s
  | .reccnt => s
  | .rbuf _ => s

/-- The host has written a command word: one that is issued is to be seen DONE (R57). -/
def State.awaitDone (s : State) : State := if s.busy then s else { s with unseen := true }

/-- A host write of CMD: a word that decodes is run as its instruction, an undefined word is issued and ended
(10_state.md R24, R26; 30_encoding.md R66). `ex` is the machine's `exec`. -/
def State.writeCmd (ex : Instr → State → Host.Outcome State Fault Refusal) (v : Word) (s : State) :
    Host.Outcome State Fault Refusal :=
  match decodeCommand v with
  | .ok i => ex i s.awaitDone
  | .error _ => runCommand none s.awaitDone

/-- A host write (R44, R46). -/
def State.busWrite (ex : Instr → State → Host.Outcome State Fault Refusal) (w : Width) (a : BusAddr) (v : Word)
    (s : State) : Host.Outcome State Fault Refusal :=
  match target w a with
  | .reg .cmd => s.writeCmd ex v
  | .reg r => .next (s.writeReg r v)
  | .unmapped => .next s
  | .dump b => .next (s.guarded fun s => s.dumpWrite b (leBytes w.bytes v.toNat))
  | .recs _ => .next s
  | .badRegister => .refused .badRegisterAccess
  | .misaligned => .refused .misalignedWindowAccess

end Sys2Proof.Machine
end

