-- ==== Sys2Proof/Machine/Turn.lean ====
section
/-! DEFINITION. Whose turn it is: the next host access, or the engine (20_memory.md R57; 60_exceptions.md R181;
log 3). `ex` is the machine's `exec`. -/

namespace Sys2Proof.Machine

/-- `WAIT` reads STATUS once a step; while BUSY it stays the host's next access and the engine runs (R80; log 10). -/
def State.poll (s : State) : Host.Outcome State Fault Refusal :=
  let t := (s.returned s.statusWord).observe
  .next (if s.busy then { t with hostQ := { gap := microBound, op := .waitIdle } :: t.hostQ } else t)

/-- A host access lands; it is no longer in `hostQ`. -/
def land (ex : Instr → State → Host.Outcome State Fault Refusal) (op : HostOp) (s : State) :
    Host.Outcome State Fault Refusal :=
  match op with
  | .read w a => s.busRead w a
  | .write w a v => s.busWrite ex w a v
  | .cookie en => .next (s.writeCtrl ((s.ctrlWord &&& ~~~1#32) ||| (if en then 1#32 else 0#32)))
  | .waitIdle => s.poll

/-- The engine's turn. A staged request is decoded and run as its instruction; otherwise the engine runs on; an engine
that is IDLE or waits for the transport leaves everything as it is. -/
def engineTurn (ex : Instr → State → Host.Outcome State Fault Refusal) (s : State) : Host.Outcome State Fault Refusal :=
  match s.engine with
  | .request _ _ frame =>
    match decodeFrame frame with
    | .ok (i, _) => ex i s
    | .error _ => .next (settle s)
  | _ => .next (settle s)

/-- Whether the engine goes first: it can move, and the next host access is not due. -/
def State.engineFirst (s : State) : Bool :=
  match s.hostQ with
  | [] => true
  | p :: _ => p.gap != 0 && (micro s).isSome

/-- One step of the machine, given its `exec`. -/
def turn (ex : Instr → State → Host.Outcome State Fault Refusal) (s : State) : Host.Outcome State Fault Refusal :=
  match s.hostQ with
  | [] => engineTurn ex s
  | p :: rest => if s.engineFirst then engineTurn ex s else land ex p.op { s with hostQ := rest }

/-- The host's next access becomes the write of a command word, to an IDLE engine. -/
def State.placeCommand (w : Word) (s : State) : State :=
  { s with engine := .idle, hostQ := { gap := 0, op := .write .w32 Reg.cmd.addr w } :: s.hostQ }

/-- The engine's next thing to do becomes a request frame, before any host access. -/
def State.placeFrame (bytes : List Byte) (s : State) : State :=
  { s with
    engine := .request s.cookieEn none bytes
    hostQ := match s.hostQ with
      | [] => []
      | p :: rest => { p with gap := p.gap + 1 } :: rest }

/-- A code placed where the machine takes its next instruction from (log 8). -/
def State.placeCode (c : Code) (s : State) : State :=
  match c with
  | .command w => s.placeCommand w
  | .frame bytes => s.placeFrame bytes

end Sys2Proof.Machine
end

