-- ==== Sys2Proof/Machine/Step.lean ====
section
/-! DEFINITION. One step of the machine, and an instruction placed where the next step takes it from. -/

namespace Sys2Proof.Machine

/-- One step: the next host access lands, or the engine runs (Machine/Turn.lean). -/
def step (s : State) : Host.Outcome State Fault Refusal := turn exec s

/-- `s` with the instruction of an opcode-table row's bits as the next to run: a command word as the host's next
write of CMD, a request frame as the engine's staged request (log 8). -/
def State.withFetchWord (s : State) (nbits w : Nat) : State := s.placeCode (tableCode nbits w)

end Sys2Proof.Machine
end

