-- ==== Sys2Proof/Machine/Script.lean ====
section
/-! DEFINITION. The host script's statements and pseudo-instructions, and the host accesses they stand for
(30_encoding.md R79 to R81). -/

namespace Sys2Proof.Machine

/-- The mnemonics a statement may name (R64, R79). -/
inductive Mnemonic where
  | nop
  | csumClr
  | csumAdd
  | sread
  | swrite
  | pread
  | logEff
  | logProf
  | logPer
  deriving DecidableEq, Repr

/-- The opcode of a mnemonic (R64). -/
def Mnemonic.op : Mnemonic → Byte
  | .nop => 0x00
  | .csumClr => 0x01
  | .csumAdd => 0x02
  | .sread => 0x10
  | .swrite => 0x11
  | .pread => 0x12
  | .logEff => 0x20
  | .logProf => 0x21
  | .logPer => 0x22

/-- A statement or pseudo-instruction (R79, R80). Omitted operands are 0. -/
inductive Stmt where
  | command (m : Mnemonic) (a b : Byte)
  | wr (r : Reg) (v : Word)
  | rd (r : Reg)
  | wrd (a : Nat) (bytes : List Byte)
  | rdr (i : Nat)
  | wait
  | ack
  | setPtr (v : Word)
  | net
  | serial
  | wbuf (bytes : List Byte)
  | csumBytes (bytes : List Byte)
  | csumFrame (bytes : List Byte)
  deriving DecidableEq, Repr

/-- A 32-bit register write. -/
def writeRegOp (r : Reg) (v : Word) : HostOp := .write .w32 r.addr v

/-- A 32-bit register read. -/
def readRegOp (r : Reg) : HostOp := .read .w32 r.addr

/-- The write of CMD that issues a command (R79). -/
def commandOp (m : Mnemonic) (a b : Byte) : HostOp := writeRegOp .cmd (commandWord m.op a b)

/-- Byte writes of DUMP bytes a, a+1, ... (R79). DESIGN CHOICE (log 21): past DUMP byte 0xFFFF the address is taken
modulo 2^18. -/
def wrdOps (a : Nat) : List Byte → List HostOp
  | [] => []
  | b :: bs => .write .w8 (BitVec.ofNat 18 (dumpWindow + a)) (b.setWidth 32) :: wrdOps (a + 1) bs

/-- `CSUM_ADD b` `WAIT` for each byte (R80). -/
def csumBytesOps (bytes : List Byte) : List HostOp := bytes.flatMap fun b => [commandOp .csumAdd b 0, .waitIdle]

/-- The host accesses a statement stands for (R79, R80). DESIGN CHOICE (log 19): `RDR` is eight 32-bit reads in rising
address order. DESIGN CHOICE (log 21): for an entry from 4096 on its addresses are taken modulo 2^18.
DESIGN CHOICE (log 22): `WBUF` with more than 16 bytes writes the first 16. -/
def Stmt.expand : Stmt → List HostOp
  | .command m a b => [commandOp m a b]
  | .wr r v => [writeRegOp r v]
  | .rd r => [readRegOp r]
  | .wrd a bytes => wrdOps a bytes
  | .rdr i => (List.range 8).map fun j => .read .w32 (BitVec.ofNat 18 (recWindow + entryBytes * i + 4 * j))
  | .wait => [.waitIdle]
  | .ack => [writeRegOp .status 0x0000000E]
  | .setPtr v => [writeRegOp .ptr v]
  | .net => [.cookie true]
  | .serial => [.cookie false]
  | .wbuf bytes => (List.finRange 4).map fun k => writeRegOp (.wbuf k) (bufWord (bufOf bytes) k.val)
  | .csumBytes bytes => csumBytesOps bytes
  | .csumFrame bytes => commandOp .csumClr 0 0 :: .waitIdle :: csumBytesOps bytes

/-- A script's accesses, each with the same gap before it (log 3). -/
def scriptOps (gap : Nat) (script : List Stmt) : List Pending :=
  (script.flatMap Stmt.expand).map fun op => { gap := gap, op := op }

end Sys2Proof.Machine
end

