-- ==== Sys2Proof/Machine/Views.lean ====
section
/-! DEFINITION. The field views of a record entry (45_record_fields.md R159 to R172): functions of the entry's 32 bytes
and the parameters, which the engine never computes (R159). Real values are exact rationals (R161, R167, R168). -/

namespace Sys2Proof.Machine

/-- Byte `j` of an entry (30_encoding.md R75). -/
def entryByte (e : List Byte) (j : Nat) : Byte := e.getD j 0

/-- KIND, TAG, SRC_OFF, LEN, X0 and X1 of an entry (R75). -/
def entryKind (e : List Byte) : Byte := entryByte e 20
def entryTag (e : List Byte) : Byte := entryByte e 21
def entrySrcOff (e : List Byte) : Nat := leNat ((e.drop 22).take 2)
def entryLen (e : List Byte) : Nat := (entryByte e 24).toNat
def entryX0 (e : List Byte) : Nat := leNat ((e.drop 26).take 3)
def entryX1 (e : List Byte) : Nat := leNat ((e.drop 29).take 3)

/-! ## Scientific value (R160, R161) -/

/-- The mantissa m (R160). -/
def sciMantissa (c : Config) (b0 b1 : Byte) : Nat := b0.toNat + 256 * (b1.toNat % 2 ^ (c.sciMhHi.val + 1))

/-- The exponent field e (R160). -/
def sciExponent (c : Config) (b1 : Byte) : Nat := (b1.toNat >>> c.sciELo.val) % 2 ^ (c.sciEHi.val + 1 - c.sciELo.val)

/-- The sign (R160). -/
def sciNeg (c : Config) (b1 : Byte) : Bool := b1.getLsbD c.sciSign.val

/-- Sci(b0, b1) = ± m · 10^(e − 3) (R161). -/
def sciValue (c : Config) (b0 b1 : Byte) : Rat :=
  (if sciNeg c b1 then -1 else 1) * (sciMantissa c b0 b1 : Rat) * (10 : Rat) ^ ((sciExponent c b1 : Int) - 3)

/-! ## Discharge-profile fields (R163 to R165) -/

/-- A field of `width` bits at bit `lo` of the record's 40 little-endian bits (R163). -/
def profField (e : List Byte) (lo width : Nat) : Nat := (leNat (e.take 5) >>> lo) % 2 ^ width

/-- Amps: the scientific value whose first byte is the field's low half (R163). DESIGN CHOICE (log 18) away from the
decided position. -/
def profAmps (c : Config) (e : List Byte) : Rat :=
  sciValue c (BitVec.ofNat 8 (profField e c.profAmpsLo.val 8)) (BitVec.ofNat 8 (profField e (c.profAmpsLo.val + 8) 8))

/-- The raw volts count (R165). -/
def profVolts (c : Config) (e : List Byte) : Nat := profField e c.profVoltsLo.val 10

/-- Percent-full: 5 times its field (R164). -/
def profPercent (c : Config) (e : List Byte) : Nat := 5 * profField e c.profPercentLo.val 5

/-- The raw day counter (R165). -/
def profDay (c : Config) (e : List Byte) : Nat := profField e c.profDayLo.val 5

/-- The battery an entry belongs to, 1 or 2 (R136). -/
def profBattery (e : List Byte) : Nat := (entryTag e).toNat

/-- The battery selector, TAG − 1 (R163). -/
def profSelector (e : List Byte) : Nat := profBattery e - 1

/-- The committed entries, oldest first (10_state.md R31, R35). -/
def State.committed (s : State) : List (List Byte) := (List.range s.reccnt.toNat).map s.entryAt

/-- A battery's discharge-profile list: the committed entries with its TAG, in entry order (R35, R137). -/
def State.batteryList (s : State) (b : Byte) : List (List Byte) := s.committed.filter fun e => entryTag e == b

/-! ## Efficiency derived quantities (R166 to R168) -/

/-- net = CHG_DELTA − DIS_DELTA, in hundredths of an amp-hour (R166). -/
def effNet (e : List Byte) : Int := (entryX0 e : Int) - (entryX1 e : Int)

/-- Efficiency percent, absent when CHG_DELTA = 0 (R167). -/
def effPercent (e : List Byte) : Option Rat :=
  if entryX0 e = 0 then none else some (100 * (entryX1 e : Rat) / (entryX0 e : Rat))

/-- The record's cycle minutes (R168). -/
def effMinutes (c : Config) (e : List Byte) : Nat :=
  leNat [entryByte e c.effMinOff.val, entryByte e (c.effMinOff.val + 1)]

/-- Self-discharge in amp-hours per hour, absent when the minutes are 0 (R168). -/
def effSelfDischarge (c : Config) (e : List Byte) : Option Rat :=
  if effMinutes c e = 0 then none else some ((effNet e : Rat) / 100 / ((effMinutes c e : Rat) / 60))

/-! ## Periodic fields (R169 to R171) -/

/-- What a periodic field's view reports (R169, R171). -/
inductive PerView where
  /-- A scientific value: amp-hours, watt-hours, amps. -/
  | sci (value : Rat)
  /-- The temperature pair's raw bytes, minimum first. -/
  | temperature (min max : Byte)
  /-- A raw 16-bit volts value. -/
  | volts (raw : Nat)
  /-- The battery-state pair's raw bytes. -/
  | batteryState (b0 b1 : Byte)
  deriving DecidableEq

/-- The ten fields in their fixed order (R169). -/
inductive PerField where
  | charge1
  | charge2
  | charge3
  | wattHours1
  | wattHours2
  | temperature
  | volts1
  | volts2
  | amps
  | batteryState
  deriving DecidableEq, Repr

/-- The mask bit that selects a field (R169). -/
def PerField.bit : PerField → Nat
  | .charge1 => 0
  | .charge2 => 1
  | .charge3 => 2
  | .wattHours1 => 3
  | .wattHours2 => 4
  | .temperature => 5
  | .volts1 => 6
  | .volts2 => 7
  | .amps => 8
  | .batteryState => 9

/-- Where field k starts in RAW: 2 · popcount(mask[k−1:0]) (R170). -/
def fieldOffset (mask k : Nat) : Nat := perFieldBytes * maskCount mask k

/-- How a present field's two bytes are reported (R169, R171). -/
def PerField.report (c : Config) (b0 b1 : Byte) : PerField → PerView
  | .temperature => .temperature b0 b1
  | .volts1 => .volts (leNat [b0, b1])
  | .volts2 => .volts (leNat [b0, b1])
  | .batteryState => .batteryState b0 b1
  | .charge1 => .sci (sciValue c b0 b1)
  | .charge2 => .sci (sciValue c b0 b1)
  | .charge3 => .sci (sciValue c b0 b1)
  | .wattHours1 => .sci (sciValue c b0 b1)
  | .wattHours2 => .sci (sciValue c b0 b1)
  | .amps => .sci (sciValue c b0 b1)

/-- The view of a field of a periodic entry, absent when its mask bit is 0 (R170). -/
def perView (c : Config) (e : List Byte) (f : PerField) : Option PerView :=
  if (entryX0 e).testBit f.bit then
    some (f.report c (entryByte e (fieldOffset (entryX0 e) f.bit)) (entryByte e (fieldOffset (entryX0 e) f.bit + 1)))
  else none

end Sys2Proof.Machine
end

