-- ==== Sys2Proof/Machine/Reference.lean ====
section
/-! DEFINITION. What each LOG command comes to, said in one piece without the engine's micro-steps: the slots or pages
visited, the entries they give, and the state they are committed to (42_log_efficiency.md R113, R124; 43_log_profile.md
R128, R139; 44_log_periodic.md R142, R149). The statements compare the engine with it; no step uses it. -/

namespace Sys2Proof.Machine

/-- What a walk gives: the entries in emission order, and the error that ends it after them, or `none`. -/
structure LogRun where
  entries : List Entry
  fault : Err
  deriving DecidableEq, Repr

/-- Entries written to REC RAM one after another from entry `n` (10_state.md R35). -/
def storeEntries (m : Memory) (n : Nat) : List Entry → Memory
  | [] => m
  | e :: es => storeEntries (m.store (entryBytes * n) e.bytes) (n + 1) es

/-- The end of a LOG command: OutOfMemory when the entries pass REC_CAP, else the walk's own error, else the entries
committed (60_exceptions.md R174, R178, R180). -/
def State.commitLog (r : LogRun) (s : State) : State :=
  if s.cfg.recCap < r.entries.length then s.raiseLog .outOfMemory
  else if r.fault = .none then State.finishLog r.entries.length { s with recm := storeEntries s.recm 0 r.entries }
  else s.raiseLog r.fault

/-! ## Efficiency log -/

/-- The slots visited, in order: all 224 from p + 1 when full, else 1 to p (R118, R119, R124). -/
def effVisits (p : Nat) (full : Bool) : List Nat :=
  if full then (List.range effSlots).map fun j => (p + 1 + j) % effSlots else (List.range p).map (· + 1)

/-- The entries of slots visited one after another: the first gives none, a later one gives one when it is valid
(R121, R122). -/
def effEntries (c : Config) (slotAt : Nat → List Byte) : List Nat → List Entry
  | prev :: sl :: rest =>
    (if effValid c (slotAt sl) then [effEntry c sl (slotAt sl) (slotAt prev)] else []) ++ effEntries c slotAt (sl :: rest)
  | _ => []

/-- The efficiency walk's result (R113). -/
def State.effRun (a : Byte) (s : State) : LogRun where
  entries := effEntries s.cfg (fun sl => s.effSlotAt (basePage a) sl) (effVisits (effPtr s.ptr) (ptrFull s.ptr))
  fault := .none

/-- LOG_EFF's result from the state it was issued in (R113, R180). -/
def State.logEffResult (a : Byte) (s : State) : State :=
  if dumpSize < basePage a + effRegion then s.raiseLog .badRequest
  else if effSlots ≤ effPtr s.ptr then s.raiseLog .dataFormatError
  else s.commitLog (s.effRun a)

/-! ## Profile log -/

/-- The slots from `o` on, each the advance of the one before, up to and with `off` (R134, R135); at most `fuel`. -/
def visitsTo (c : Config) (off : Nat) : Nat → Nat → List Nat
  | 0, _ => []
  | fuel + 1, o => o :: (if o = off then [] else visitsTo c off fuel (advance c o))

/-- |SlotSet| with PROF_WRAP_TO = 0 (R131). -/
def profSlots (c : Config) : Nat := 12 * c.profBlocks

/-- The slots visited, in order (R133 to R135). -/
def profVisits (c : Config) (off : Nat) (full : Bool) : List Nat := visitsTo c off (profSlots c) (profStart c off full)

/-- The profile walk's result: every visited slot gives an entry (R136). -/
def State.profRun (a : Byte) (s : State) : LogRun where
  entries := (profVisits s.cfg (profOff s.cfg s.ptr) (ptrFull s.ptr)).map fun o =>
    profEntry s.cfg o (s.dumpBytes (basePage a + o) profStride)
  fault := .none

/-- LOG_PROF's result from the state it was issued in (R128, R180). -/
def State.logProfResult (a : Byte) (s : State) : State :=
  if dumpSize < basePage a + profRegion s.cfg then s.raiseLog .badRequest
  else if inSlotSet s.cfg (profOff s.cfg s.ptr) then s.commitLog (s.profRun a)
  else s.finishLog 0

/-! ## Periodic log -/

/-- The pages visited, in order: all NP from pp + 1 when full, else 0 to pp (R145, R149). -/
def perVisits (c : Config) (pp : Nat) (full : Bool) : List Nat :=
  if full then (List.range c.perPages).map fun j => (pp + 1 + j) % c.perPages else List.range (pp + 1)

/-- Whether a section's records end at cursor `c` (R147, R148). -/
def SectionEnd.reached (c : Nat) : SectionEnd → Bool
  | .pointer pr => c == pr
  | .length l => decide (l ≤ c)

/-- What a section's records must fit before (R152). -/
def SectionEnd.bound : SectionEnd → Nat
  | .pointer pr => pr
  | .length l => l

/-- The records of page `g`'s section from cursor `c` (R142, R147, R148, R152); at most `fuel`. -/
def State.sectionRun (s : State) (base g mask : Nat) (stop : SectionEnd) : Nat → Nat → LogRun
  | 0, _ => { entries := [], fault := .none }
  | fuel + 1, c =>
    if stop.reached c then { entries := [], fault := .none }
    else if recordWidth mask = 0 ∨ stop.bound < c + recordWidth mask then { entries := [], fault := .dataFormatError }
    else
      let more := s.sectionRun base g mask stop fuel (c + recordWidth mask)
      { more with entries := perEntry g c mask (s.dumpBytes (base + g * perPage + c) (recordWidth mask)) :: more.entries }

/-- Page `g`'s whole section (R146). -/
def State.pageRun (s : State) (base p g : Nat) : LogRun :=
  s.sectionRun base g (s.le16 (base + g * perPage + s.cfg.perMaskOff.val)) (s.sectionEnd base p g) perPage (perFirst s.cfg)

/-- The sections of pages visited one after another; an error ends the walk (R149, R152). -/
def State.pagesRun (s : State) (base p : Nat) : List Nat → LogRun
  | [] => { entries := [], fault := .none }
  | g :: gs =>
    let r := s.pageRun base p g
    if r.fault = .none then
      let more := s.pagesRun base p gs
      { more with entries := r.entries ++ more.entries }
    else r

/-- The periodic walk's result (R142). -/
def State.perRun (a : Byte) (s : State) : LogRun :=
  s.pagesRun (basePage a) (perPtr s.ptr) (perVisits s.cfg (perPtr s.ptr / perPage) (ptrFull s.ptr))

/-- LOG_PER's result from the state it was issued in (R142 to R144, R180). -/
def State.logPerResult (a : Byte) (s : State) : State :=
  if dumpSize < basePage a + perRegion s.cfg then s.raiseLog .badRequest
  else if perRegion s.cfg ≤ perPtr s.ptr then s.raiseLog .dataFormatError
  else if perPtr s.ptr % perPage = 0 then s.finishLog 0
  else s.commitLog (s.perRun a)

/-! ## Paged read -/

/-- Pages written one after another from DUMP page `p` (41_frames.md R104). -/
def storePages (m : Memory) (p : Nat) : List (List Byte) → Memory
  | [] => m
  | page :: pages => storePages (m.store (devPage * p) page) (p + 1) pages

/-- The payload of a paged read response (30_encoding.md R73). -/
def pagePayload (k : Bool) (resp : List Byte) : List Byte := (resp.drop (cookieLen k)).take devPage

/-- The request frames of the first `n` windows of a paged read from page `p0`, with their cookies (R72, R104). -/
def pageRequests (k : Bool) (p0 n : Nat) : List Byte :=
  (List.range n).flatMap fun i => cookieBytes k ++ pagedReadRequest (BitVec.ofNat 8 (p0 + i))

end Sys2Proof.Machine
end

