-- ==== Sys2Proof/Safety.lean ====
section
/-! DEFINITION. The machine's invariant and the terms the statements use. -/

namespace Sys2Proof.Machine

/-- A paged read's pages lie in the 256 device pages and its window is one of them (41_frames.md R102). -/
def Window.ok (w : Window) : Prop := w.p0 + w.total ≤ 256 ∧ w.i < w.total

/-- A transaction the engine can be in. -/
def Job.ok : Job → Prop
  | .shortRead n => shortMin ≤ n ∧ n ≤ shortMax
  | .shortWrite => True
  | .pagedRead w page => w.ok ∧ page < 256

/-- A staged request is one of the well-formed frames and nothing more. -/
def requestOk (frame : List Byte) : Prop := ∃ i, decodeFrame frame = .ok (i, []) ∧ i.wf

/-- While a LOG command is in flight RECCNT is 0 and RECN has not passed REC_CAP (10_state.md R26, R35). -/
def State.logOk (s : State) (recn : Nat) : Prop := s.reccnt = 0 ∧ recn ≤ s.cfg.recCap

/-- The engine's position is one a command word can lead to. -/
def State.engineOk (s : State) : Prop :=
  match s.engine with
  | .idle => True
  | .issued _ cmd => cmd.any isLog → s.reccnt = 0
  | .progress _ w => w.ok
  | .progFlag _ w => w.ok
  | .request _ w frame => (∀ v ∈ w, Window.ok v) ∧ requestOk frame
  | .clearSum _ job _ _ => job.ok
  | .sending _ job _ _ => job.ok
  | .receiving _ job _ _ => job.ok
  | .ending w => ∀ v ∈ w, Window.ok v
  | .walkEff base p sl _ recn => base + effRegion ≤ dumpSize ∧ p < effSlots ∧ sl < effSlots ∧ s.logOk recn
  | .walkProf base off o recn =>
    base + profRegion s.cfg ≤ dumpSize ∧ inSlotSet s.cfg off ∧ inSlotSet s.cfg o ∧ s.logOk recn
  | .perPage base p g recn =>
    base + perRegion s.cfg ≤ dumpSize ∧ p < perRegion s.cfg ∧ g < s.cfg.perPages ∧ s.logOk recn
  | .perRecords base p g _ _ _ recn =>
    base + perRegion s.cfg ≤ dumpSize ∧ p < perRegion s.cfg ∧ g < s.cfg.perPages ∧ s.logOk recn

/-- The invariant every step keeps: parameters in range, both RAMs in canonical form and within their sizes, no error
kind the engine never raises (41_frames.md R109), committed entries within REC_CAP, a legal engine position. -/
structure State.Inv (s : State) : Prop where
  cfg : s.cfg.wf
  dump : s.dump.wf dumpSize
  recm : s.recm.wf (entryBytes * s.cfg.recCap)
  err : s.err ≠ .connectionError
  reccnt : s.reccnt.toNat ≤ s.cfg.recCap
  engine : s.engineOk

/-- The access is a read or a write of this width at this address. -/
def HostOp.accesses (op : HostOp) (w : Width) (a : BusAddr) : Prop := op = .read w a ∨ ∃ v, op = .write w a v

/-- A command in flight waits for the transport (70_reset_and_hazards.md R203): BUSY, a step leaves the machine as it is,
and a soft reset leads to `u`, which is IDLE and saw no completion. -/
def State.waits (t u : State) : Prop :=
  t.busy = true ∧ step t = .next t ∧
    step { t with hostQ := [{ gap := 0, op := .write .w32 0x00000 0x80000000 }] } = .next u ∧ u.busy = false ∧
    u.done = false

/-- An IDLE engine and a host that makes no access until the command ends: where a command runs whole in one step. -/
def State.ready (s : State) : Prop := s.engine = .idle ∧ s.hostQ = []

/-- The transport answers the request `ok` byte for byte and then answers the response (10_state.md R38); `tq` and `rq`
are the answers left. -/
def State.answers (s : State) (req resp : List Byte) (tq : List TxAnswer) (rq : List RxAnswer) : Prop :=
  s.txQ = List.replicate req.length .ok ++ tq ∧ s.rxQ = resp.map .byte ++ rq

/-- A response a checksummed transaction accepts: its length, its cookie, its checksum (30_encoding.md R69, R73;
41_frames.md R95). -/
def goodResponse (k : Bool) (n : Nat) (resp : List Byte) : Prop :=
  resp.length = cookieLen k + n + 1 ∧ cookieOk k resp = true ∧ frameValid resp = true

/-- The host's next access is `op` and it is due: the engine does not move before it. -/
def State.due (s : State) (op : HostOp) (rest : List Pending) : Prop := s.hostQ = { gap := 0, op := op } :: rest

/-- Instructions run one after another. -/
def execAll : List Instr → State → Host.Outcome State Fault Refusal
  | [], s => .next s
  | i :: is, s =>
    match exec i s with
    | .next t => execAll is t
    | .fault f => .fault f
    | .refused r => .refused r

/-- `n` steps of the machine. -/
def stepN : Nat → State → Host.Outcome State Fault Refusal
  | 0, s => .next s
  | n + 1, s =>
    match step s with
    | .next t => stepN n t
    | .fault f => .fault f
    | .refused r => .refused r

/-- Whether an instruction is a command word, not a wire frame. -/
def isCommand : Instr → Bool
  | .wireShortRead _ _ _ => false
  | .wireShortWrite _ _ _ _ => false
  | .wirePagedRead _ _ _ => false
  | _ => true

end Sys2Proof.Machine
end

