-- ==== Sys2Proof/Certificates/Slice0/Obligations.lean ====
section
/-! DEFINITION. The statements about the PMCE. `s.ready` is an IDLE engine with no host access to come: a command then
runs whole in one step. Free values (log 1) occur in no statement as numbers. -/

open Sys2Proof Sys2Proof.Machine

/-! ## Encodings -/

/-- R82's assembled words and one frame of each kind decode to what they stand for (R82). -/
def Obligations.AssembledWordsDecode : Prop :=
  decodeCommand 0x00021010 = .ok (.sread 0x10 0x02) ∧ decodeCommand 0x00000320 = .ok (.logEff 0x03 0x00) ∧
    decodeCommand 0x00008102 = .ok (.csumAdd 0x81 0x00) ∧ decodeCommand 0x01000000 = .error .reservedNonzero ∧
    decodeFrame [0x81, 0x10, 0x02, 0x6C] = .ok (.wireShortRead 0x10 0x02 0x6C, []) ∧
    decodeFrame [0x01, 0x20, 0x01, 0x05, 0xD8] = .ok (.wireShortWrite 0x20 0x01 [0x05] 0xD8, []) ∧
    decodeFrame [0xC1, 0x03, 0x01, 0x3A] = .ok (.wirePagedRead 0x03 0x01 0x3A, [])

/-- Every well-formed instruction, commands and frames alike, is what its encoding decodes to (R63 to R72). -/
def Obligations.EncodedInstructionsDecodeBack : Prop :=
  ∀ i : Instr, i.wf = true → decode (encode i) = .ok i

/-- What decodes encodes back to the same bits: commands whole, frames with the bytes after them (R63 to R72). -/
def Obligations.DecodedCodesEncodeBack : Prop :=
  (∀ (w : Word) (i : Instr), decodeCommand w = .ok i → encode i = .command w) ∧
    ∀ (bytes : List Byte) (i : Instr) (more : List Byte), decodeFrame bytes = .ok (i, more) →
      ∃ frame, encode i = .frame frame ∧ bytes = frame ++ more

/-- A command word with RSV ≠ 0 or an OP outside the opcode map, written while IDLE, ends at once with Other and changes
STATUS alone (R66), beside the model's own record that the host has a completion to see (log 14). -/
def Obligations.UndefinedWordsEndWithOther : Prop :=
  ∀ (s : State) (w : Word) (gap : Nat), s.engine = .idle →
    s.hostQ = [{ gap := gap, op := writeRegOp .cmd w }] →
    (rsvField w ≠ 0 ∨ opField w ∉ [0x00, 0x01, 0x02, 0x10, 0x11, 0x12, 0x20, 0x21, 0x22]) →
    step s = .next { s with hostQ := [], unseen := true, err := .other, done := true }

/-! ## The checksum -/

/-- A frame closed by its checksum has checksum 0 and is valid; the checksum is the sum's complement; a request carries
the same checksum with and without its cookie (R85, R90). -/
def Obligations.ChecksumClosesAFrame : Prop :=
  ∀ (f : List Byte) (k : Bool),
    checksum (f ++ [checksum f]) = 0 ∧ checksum f = byteSum f ^^^ 0xFF ∧ frameValid (f ++ [checksum f]) = true ∧
      checksum (cookieBytes k ++ f) = checksum f ∧
      withChecksum (cookieBytes k ++ f) = cookieBytes k ++ withChecksum f

/-- One changed byte of a valid frame is detected; cancelling changes and reordering are not (R92). -/
def Obligations.SingleByteErrorsAreDetected : Prop :=
  (∀ (before after : List Byte) (b d : Byte), d ≠ 0 → frameValid (before ++ [b] ++ after) = true →
      checksum (before ++ [b + d] ++ after) ≠ 0) ∧
    (∀ (before mid after : List Byte) (b c d : Byte),
      checksum (before ++ [b + d] ++ mid ++ [c - d] ++ after) = checksum (before ++ [b] ++ mid ++ [c] ++ after)) ∧
    ∀ f g : List Byte, f.Perm g → checksum f = checksum g

/-! ## Control commands -/

/-- NOP ends without error and changes nothing else, whatever A and B (R86). -/
def Obligations.NopOnlyCompletes : Prop :=
  ∀ (a b : Byte) (s : State), s.ready →
    decodeCommand (commandWord 0x00 a b) = .ok (.nop a b) ∧
      exec (.nop a b) s = .next { s with done := true, err := .none } ∧
      (s.acc ≠ 0xFF → s.prog = false → s.haz = false →
        State.statusWord { s with done := true, err := .none } = 0x00000002)

/-- CSUM_CLR clears ACC, whatever A and B (R87). -/
def Obligations.CsumClrClearsTheAccumulator : Prop :=
  ∀ (a b : Byte) (s : State), s.ready →
    decodeCommand (commandWord 0x01 a b) = .ok (.csumClr a b) ∧
      ∃ t, exec (.csumClr a b) s = .next t ∧ t = { s with acc := 0, done := true, err := .none } ∧
        t.cz = false ∧ t.csumWord = 0x0000FF00

/-- CSUM_ADD adds A to ACC mod 256, whatever B; CZ says whether ACC became 0xFF (R88). -/
def Obligations.CsumAddAddsItsByte : Prop :=
  ∀ (a b : Byte) (s : State), s.ready →
    decodeCommand (commandWord 0x02 a b) = .ok (.csumAdd a b) ∧
      ∃ t, exec (.csumAdd a b) s = .next t ∧ t = { s with acc := s.acc + a, done := true, err := .none } ∧
        t.acc.toNat = (s.acc.toNat + a.toNat) % 256 ∧ (t.cz = true ↔ t.acc = 0xFF) ∧ (a = 0 → t.acc = s.acc)

/-- After CSUM_CLR and one CSUM_ADD per byte of a frame in any order, CS is the frame's checksum and CZ says whether the
frame is valid (R89). -/
def Obligations.CsumCommandsCheckAFrame : Prop :=
  ∀ (f g : List Byte) (s : State), s.ready → f.Perm g →
    ∃ t, execAll (.csumClr 0 0 :: g.map fun b => .csumAdd b 0) s = .next t ∧
      t.csumWord.extractLsb' 8 8 = checksum f ∧ (t.cz = true ↔ frameValid f = true)

/-! ## Short transactions -/

/-- SREAD with a length in range and a good response: the request is sent, RBUF takes the payload then zeros, ACC is the
response's sum 0xFF, LASTCS the request's checksum (R68, R69, R93 to R99; the response's length by log 20). -/
def Obligations.SreadDeliversThePayload : Prop :=
  ∀ (a b : Byte) (s : State) (resp : List Byte) (tq : List TxAnswer) (rq : List RxAnswer), s.ready →
    shortMin ≤ b.toNat → b.toNat ≤ shortMax →
    s.answers (cookieBytes s.cookieEn ++ shortReadRequest a b) resp tq rq →
    goodResponse s.cookieEn b.toNat resp →
    exec (.sread a b) s = .next { s with
      rbuf := bufOf ((resp.drop (cookieLen s.cookieEn)).take b.toNat)
      acc := 0xFF
      lastcs := checksum [0x81, a, b]
      txQ := tq
      rxQ := rq
      txSent := s.txSent ++ (cookieBytes s.cookieEn ++ shortReadRequest a b)
      done := true
      err := .none }

/-- SREAD with a response of the right length whose cookie or checksum is wrong: BadResponse, RBUF zero (R94 to R97,
R99). -/
def Obligations.SreadRejectsABadResponse : Prop :=
  ∀ (a b : Byte) (s : State) (resp : List Byte) (tq : List TxAnswer) (rq : List RxAnswer), s.ready →
    shortMin ≤ b.toNat → b.toNat ≤ shortMax →
    s.answers (cookieBytes s.cookieEn ++ shortReadRequest a b) resp tq rq →
    resp.length = cookieLen s.cookieEn + b.toNat + 1 → ¬ goodResponse s.cookieEn b.toNat resp →
    exec (.sread a b) s = .next { s with
      rbuf := zeroBuf
      acc := byteSum resp
      lastcs := checksum [0x81, a, b]
      txQ := tq
      rxQ := rq
      txSent := s.txSent ++ (cookieBytes s.cookieEn ++ shortReadRequest a b)
      done := true
      err := .badResponse }

/-- A length outside 1..16 is BadRequest for SREAD, which also zeroes RBUF, and for SWRITE; T = 0 or pages past page 255
are BadRequest for PREAD: nothing is sent and PROGRESS stays (R98, R102), and PREAD's pages P0 to P0 + T - 1 of DUMP hold
no known byte while every other DUMP byte stays (R106, R179). -/
def Obligations.OperandsOutOfRangeAreBadRequest : Prop :=
  ∀ (a b : Byte) (s : State), s.ready →
    ((b.toNat < 1 ∨ 16 < b.toNat) →
      exec (.sread a b) s = .next { s with rbuf := zeroBuf, done := true, err := .badRequest } ∧
        exec (.swrite a b) s = .next { s with done := true, err := .badRequest }) ∧
    ((b.toNat = 0 ∨ 256 < a.toNat + b.toNat) →
      ∃ t, exec (.pread a b) s = .next t ∧
        t = { s with dump := t.dump, epoch := s.epoch + 1, done := true, err := .badRequest } ∧
        ∀ x, t.dump.read x =
          if devPage * a.toNat ≤ x ∧ x < devPage * (a.toNat + b.toNat) then none else s.dump.read x)

/-- SWRITE with a length in range whose echo is the request's checksum byte, with the cookie's echo before it on a
network connection: the request with WBUF[0..len−1] is sent, ACC is the response's sum (R70, R71, R93 to R96, R100). -/
def Obligations.SwriteEndsOnItsEcho : Prop :=
  ∀ (a b : Byte) (s : State) (tq : List TxAnswer) (rq : List RxAnswer), s.ready →
    shortMin ≤ b.toNat → b.toNat ≤ shortMax →
    s.answers (cookieBytes s.cookieEn ++ shortWriteRequest a b (s.wbuf.toList.take b.toNat))
      (cookieBytes s.cookieEn ++ [checksum (0x01 :: a :: b :: s.wbuf.toList.take b.toNat)]) tq rq →
    exec (.swrite a b) s = .next { s with
      acc := checksum (0x01 :: a :: b :: s.wbuf.toList.take b.toNat)
      lastcs := checksum (0x01 :: a :: b :: s.wbuf.toList.take b.toNat)
      txQ := tq
      rxQ := rq
      txSent := s.txSent ++ (cookieBytes s.cookieEn ++ shortWriteRequest a b (s.wbuf.toList.take b.toNat))
      done := true
      err := .none }

/-- SWRITE whose response's cookie or echo is wrong: BadResponse (R100, R101). -/
def Obligations.SwriteRejectsAWrongEcho : Prop :=
  ∀ (a b : Byte) (s : State) (resp : List Byte) (tq : List TxAnswer) (rq : List RxAnswer), s.ready →
    shortMin ≤ b.toNat → b.toNat ≤ shortMax →
    s.answers (cookieBytes s.cookieEn ++ shortWriteRequest a b (s.wbuf.toList.take b.toNat)) resp tq rq →
    resp.length = cookieLen s.cookieEn + 1 →
    resp ≠ cookieBytes s.cookieEn ++ [checksum (0x01 :: a :: b :: s.wbuf.toList.take b.toNat)] →
    exec (.swrite a b) s = .next { s with
      acc := byteSum resp
      lastcs := checksum (0x01 :: a :: b :: s.wbuf.toList.take b.toNat)
      txQ := tq
      rxQ := rq
      txSent := s.txSent ++ (cookieBytes s.cookieEn ++ shortWriteRequest a b (s.wbuf.toList.take b.toNat))
      done := true
      err := .badResponse }

/-- An abort on TX after `j` request bytes, or on RX after some response bytes, ends SREAD and SWRITE with
CommunicationError: no further byte is offered or asked for, ACC is the sum of what was received, SREAD zeroes RBUF
(R93, R96, R99, R175, R176). -/
def Obligations.AbortEndsAShortTransaction : Prop :=
  ∀ (a b : Byte) (s : State), s.ready → shortMin ≤ b.toNat → b.toNat ≤ shortMax →
    (∀ (j : Nat) (tq : List TxAnswer), j < cookieLen s.cookieEn + 4 → s.txQ = List.replicate j .ok ++ .abort :: tq →
      exec (.sread a b) s = .next { s with
        rbuf := zeroBuf
        acc := 0
        lastcs := checksum [0x81, a, b]
        txQ := tq
        txSent := s.txSent ++ (cookieBytes s.cookieEn ++ shortReadRequest a b).take j
        done := true
        err := .communicationError }) ∧
    (∀ (j : Nat) (tq : List TxAnswer), j < cookieLen s.cookieEn + b.toNat + 4 →
      s.txQ = List.replicate j .ok ++ .abort :: tq →
      exec (.swrite a b) s = .next { s with
        acc := 0
        lastcs := checksum (0x01 :: a :: b :: s.wbuf.toList.take b.toNat)
        txQ := tq
        txSent := s.txSent ++ (cookieBytes s.cookieEn ++ shortWriteRequest a b (s.wbuf.toList.take b.toNat)).take j
        done := true
        err := .communicationError }) ∧
    (∀ (got : List Byte) (tq : List TxAnswer) (rq : List RxAnswer), got.length < cookieLen s.cookieEn + b.toNat + 1 →
      s.txQ = List.replicate (cookieLen s.cookieEn + 4) .ok ++ tq → s.rxQ = got.map .byte ++ .abort :: rq →
      exec (.sread a b) s = .next { s with
        rbuf := zeroBuf
        acc := byteSum got
        lastcs := checksum [0x81, a, b]
        txQ := tq
        rxQ := rq
        txSent := s.txSent ++ (cookieBytes s.cookieEn ++ shortReadRequest a b)
        done := true
        err := .communicationError }) ∧
    (∀ (got : List Byte) (tq : List TxAnswer) (rq : List RxAnswer), got.length < cookieLen s.cookieEn + 1 →
      s.txQ = List.replicate (cookieLen s.cookieEn + b.toNat + 4) .ok ++ tq → s.rxQ = got.map .byte ++ .abort :: rq →
      exec (.swrite a b) s = .next { s with
        acc := byteSum got
        lastcs := checksum (0x01 :: a :: b :: s.wbuf.toList.take b.toNat)
        txQ := tq
        rxQ := rq
        txSent := s.txSent ++ (cookieBytes s.cookieEn ++ shortWriteRequest a b (s.wbuf.toList.take b.toNat))
        done := true
        err := .communicationError })

/-! ## Paged read -/

/-- PREAD of pages within 0..255 with a good response for every window: the windows' requests are sent in page order,
each page is written to the DUMP page of its own number, PROGRESS ends at (T, T), PROG is set (R102 to R105). -/
def Obligations.PreadFetchesItsPages : Prop :=
  ∀ (a b : Byte) (s : State) (resps : List (List Byte)) (tq : List TxAnswer) (rq : List RxAnswer), s.ready →
    1 ≤ b.toNat → a.toNat + b.toNat ≤ 256 → resps.length = b.toNat →
    (∀ resp ∈ resps, goodResponse s.cookieEn devPage resp) →
    s.answers (pageRequests s.cookieEn a.toNat b.toNat) resps.flatten tq rq →
    exec (.pread a b) s = .next { s with
      dump := storePages s.dump a.toNat (resps.map (pagePayload s.cookieEn))
      ptotal := b
      pdone := b
      prog := true
      acc := 0xFF
      lastcs := checksum [0xC1, a + b - 1, 0x01]
      txQ := tq
      rxQ := rq
      txSent := s.txSent ++ pageRequests s.cookieEn a.toNat b.toNat
      done := true
      err := .none }

/-- PREAD whose window i gets a wrong cookie or checksum: BadResponse, no later window is sent, PROGRESS keeps (i, T),
the pages of the command are unspecified and every other DUMP byte is as it was (R104 to R106). -/
def Obligations.PreadStopsAtABadWindow : Prop :=
  ∀ (a b : Byte) (s : State) (resps : List (List Byte)) (bad : List Byte) (tq : List TxAnswer) (rq : List RxAnswer),
    s.ready → a.toNat + b.toNat ≤ 256 → resps.length < b.toNat →
    (∀ resp ∈ resps, goodResponse s.cookieEn devPage resp) →
    bad.length = cookieLen s.cookieEn + devPage + 1 → ¬ goodResponse s.cookieEn devPage bad →
    s.answers (pageRequests s.cookieEn a.toNat (resps.length + 1)) (resps.flatten ++ bad) tq rq →
    ∃ t, exec (.pread a b) s = .next t ∧
      t = { s with
        dump := t.dump
        epoch := s.epoch + 1
        ptotal := b
        pdone := BitVec.ofNat 8 resps.length
        prog := true
        acc := byteSum bad
        lastcs := checksum [0xC1, a + BitVec.ofNat 8 resps.length, 0x01]
        txQ := tq
        rxQ := rq
        txSent := s.txSent ++ pageRequests s.cookieEn a.toNat (resps.length + 1)
        done := true
        err := .badResponse } ∧
      ∀ x, t.dump.read x =
        if devPage * a.toNat ≤ x ∧ x < devPage * (a.toNat + b.toNat) then none else s.dump.read x

/-- PREAD aborted in window i, on TX after `j` of its request's bytes or on RX after some of its response's:
CommunicationError, no later window is sent, PROGRESS keeps (i, T), the pages of the command are unspecified and every
other DUMP byte is as it was (R93, R105, R106). -/
def Obligations.AbortEndsAPagedRead : Prop :=
  ∀ (a b : Byte) (s : State) (resps : List (List Byte)), s.ready → a.toNat + b.toNat ≤ 256 → resps.length < b.toNat →
    (∀ resp ∈ resps, goodResponse s.cookieEn devPage resp) →
    (∀ (j : Nat) (tq : List TxAnswer) (rq : List RxAnswer), j < cookieLen s.cookieEn + 4 →
      s.txQ = List.replicate ((pageRequests s.cookieEn a.toNat resps.length).length + j) .ok ++ .abort :: tq →
      s.rxQ = resps.flatten.map .byte ++ rq →
      ∃ t, exec (.pread a b) s = .next t ∧
        t = { s with
          dump := t.dump
          epoch := s.epoch + 1
          ptotal := b
          pdone := BitVec.ofNat 8 resps.length
          prog := true
          acc := 0
          lastcs := checksum [0xC1, a + BitVec.ofNat 8 resps.length, 0x01]
          txQ := tq
          rxQ := rq
          txSent := s.txSent ++ (pageRequests s.cookieEn a.toNat (resps.length + 1)).take
            ((pageRequests s.cookieEn a.toNat resps.length).length + j)
          done := true
          err := .communicationError } ∧
        ∀ x, t.dump.read x =
          if devPage * a.toNat ≤ x ∧ x < devPage * (a.toNat + b.toNat) then none else s.dump.read x) ∧
    (∀ (got : List Byte) (tq : List TxAnswer) (rq : List RxAnswer), got.length < cookieLen s.cookieEn + devPage + 1 →
      s.txQ = List.replicate (pageRequests s.cookieEn a.toNat (resps.length + 1)).length .ok ++ tq →
      s.rxQ = (resps.flatten ++ got).map .byte ++ .abort :: rq →
      ∃ t, exec (.pread a b) s = .next t ∧
        t = { s with
          dump := t.dump
          epoch := s.epoch + 1
          ptotal := b
          pdone := BitVec.ofNat 8 resps.length
          prog := true
          acc := byteSum got
          lastcs := checksum [0xC1, a + BitVec.ofNat 8 resps.length, 0x01]
          txQ := tq
          rxQ := rq
          txSent := s.txSent ++ pageRequests s.cookieEn a.toNat (resps.length + 1)
          done := true
          err := .communicationError } ∧
        ∀ x, t.dump.read x =
          if devPage * a.toNat ≤ x ∧ x < devPage * (a.toNat + b.toNat) then none else s.dump.read x)

/-! ## Wire frames -/

/-- A short read frame with a request staged for the command in flight: it is sent, its response of k + len + 1 bytes
received and accepted, and the short read ends (R68, R69, R93 to R97; log 20). That it runs for any staged bytes, and that
its checksum byte is sent as it stands, are the model's own choices (log 5, log 6); the frames a command stages carry R68's. -/
def Obligations.ShortReadFrameRuns : Prop :=
  ∀ (addr len cs : Byte) (k : Bool) (w : Option Window) (frame : List Byte) (s : State) (resp : List Byte)
    (tq : List TxAnswer) (rq : List RxAnswer),
    s.engine = .request k w frame → s.hostQ = [] → shortMin ≤ len.toNat → len.toNat ≤ shortMax →
    s.answers (cookieBytes k ++ shortReadBytes addr len cs) resp tq rq → goodResponse k len.toNat resp →
    exec (.wireShortRead addr len cs) s = .next { s with
      rbuf := bufOf ((resp.drop (cookieLen k)).take len.toNat)
      acc := 0xFF
      lastcs := cs
      txQ := tq
      rxQ := rq
      txSent := s.txSent ++ (cookieBytes k ++ shortReadBytes addr len cs)
      engine := .idle
      done := true
      err := .none }

/-- A short write frame with a request staged for the command in flight: it is sent, and the echo of its checksum byte
ends the short write (R70, R71, R93 to R96, R100, R101). That it runs for any staged bytes, and that its checksum byte is
sent and compared as it stands, are the model's own choices (log 5, log 6); the frames a command stages carry R70's. -/
def Obligations.ShortWriteFrameRuns : Prop :=
  ∀ (addr len : Byte) (payload : List Byte) (cs : Byte) (k : Bool) (w : Option Window) (frame : List Byte) (s : State)
    (tq : List TxAnswer) (rq : List RxAnswer),
    s.engine = .request k w frame → s.hostQ = [] → shortMin ≤ len.toNat → len.toNat ≤ shortMax →
    payload.length = len.toNat →
    s.answers (cookieBytes k ++ shortWriteBytes addr len payload cs) (cookieBytes k ++ [cs]) tq rq →
    exec (.wireShortWrite addr len payload cs) s = .next { s with
      acc := cs
      lastcs := cs
      txQ := tq
      rxQ := rq
      txSent := s.txSent ++ (cookieBytes k ++ shortWriteBytes addr len payload cs)
      engine := .idle
      done := true
      err := .none }

/-- A paged read frame with a request staged for the command in flight: it is sent, its response of k + 257 bytes received
and accepted and the page written to DUMP; then the next window follows, or after the last window PDONE is T and the
command ends (R72, R73, R102 to R105). That it runs for any staged bytes and any page, that its checksum byte is sent as
it stands, and that a frame staged with no window is a read of one page, are the model's own choices (log 5, log 6). -/
def Obligations.PagedReadFrameRuns : Prop :=
  ∀ (page cs : Byte) (k : Bool) (frame : List Byte) (s : State) (resp : List Byte) (tq : List TxAnswer)
    (rq : List RxAnswer),
    s.hostQ = [] → s.answers (cookieBytes k ++ pagedReadBytes page 0x01 cs) resp tq rq → goodResponse k devPage resp →
    (∀ w : Window, s.engine = .request k (some w) frame → w.i + 1 < w.total →
      exec (.wirePagedRead page 0x01 cs) s = .next { s with
        dump := s.dump.store (devPage * page.toNat) (pagePayload k resp)
        acc := 0xFF
        lastcs := cs
        txQ := tq
        rxQ := rq
        txSent := s.txSent ++ (cookieBytes k ++ pagedReadBytes page 0x01 cs)
        engine := .progress k { w with i := w.i + 1 } }) ∧
    (∀ w : Window, s.engine = .request k (some w) frame → w.total ≤ w.i + 1 →
      exec (.wirePagedRead page 0x01 cs) s = .next { s with
        dump := s.dump.store (devPage * page.toNat) (pagePayload k resp)
        pdone := BitVec.ofNat 8 w.total
        acc := 0xFF
        lastcs := cs
        txQ := tq
        rxQ := rq
        txSent := s.txSent ++ (cookieBytes k ++ pagedReadBytes page 0x01 cs)
        engine := .idle
        done := true
        err := .none }) ∧
    (s.engine = .request k none frame →
      exec (.wirePagedRead page 0x01 cs) s = .next { s with
        dump := s.dump.store (devPage * page.toNat) (pagePayload k resp)
        pdone := 1
        acc := 0xFF
        lastcs := cs
        txQ := tq
        rxQ := rq
        txSent := s.txSent ++ (cookieBytes k ++ pagedReadBytes page 0x01 cs)
        engine := .idle
        done := true
        err := .none })

/-- The model's own choices (log 5, log 6): with no request staged, a frame changes nothing; a staged frame whose
length is outside 1..16, whose payload is not as long as it says, or whose page count is not 1 ends its command with
BadRequest and nothing is sent. -/
def Obligations.FramesTheEngineDoesNotBuild : Prop :=
  (∀ (i : Instr) (s : State), isCommand i = false → (∀ k w frame, s.engine ≠ .request k w frame) → exec i s = .next s) ∧
    ∀ (i : Instr) (s : State) (k : Bool) (w : Option Window) (frame : List Byte),
      s.engine = .request k w frame → s.hostQ = [] →
      (match i with
        | .wireShortRead _ len _ => len.toNat < 1 ∨ 16 < len.toNat
        | .wireShortWrite _ len payload _ => len.toNat < 1 ∨ 16 < len.toNat ∨ payload.length ≠ len.toNat
        | .wirePagedRead _ count _ => count ≠ 1
        | _ => False) →
      ∃ t, exec i s = .next t ∧ t.engine = .idle ∧ t.done = true ∧ t.err = .badRequest ∧ t.txSent = s.txSent ∧
        t.txQ = s.txQ ∧ t.rxQ = s.rxQ

/-! ## Logs -/

/-- LOG_EFF run by the engine slot by slot is the efficiency walk said in one piece (R113 to R123): the checks in their
order, the slots visited, the entries with their deltas, RECCNT. -/
def Obligations.LogEffIsTheEfficiencyWalk : Prop :=
  ∀ (a b : Byte) (s : State), s.ready →
    exec (.logEff a b) s = .next ((s.issue (some (.logEff a b))).logEffResult a)

/-- LOG_PROF run by the engine slot by slot is the profile walk said in one piece (R128 to R137). -/
def Obligations.LogProfIsTheProfileWalk : Prop :=
  ∀ (a b : Byte) (s : State), s.ready → s.cfg.wf →
    exec (.logProf a b) s = .next ((s.issue (some (.logProf a b))).logProfResult a)

/-- LOG_PER run by the engine record by record is the periodic walk said in one piece (R142 to R152). -/
def Obligations.LogPerIsThePeriodicWalk : Prop :=
  ∀ (a b : Byte) (s : State), s.ready → s.cfg.wf →
    exec (.logPer a b) s = .next ((s.issue (some (.logPer a b))).logPerResult a)

/-- Where a LOG command ends without error: the region fits, the pointer is one the walk accepts, and the walk gives at
most REC_CAP entries. The entries are then in REC RAM from entry 0 and RECCNT counts them; DONE and ERR are the only
other changes (R113, R128, R142, R174). -/
def Obligations.LogCommandsCommitTheirEntries : Prop :=
  ∀ (a b : Byte) (s : State), s.ready → s.cfg.wf →
    (basePage a + effRegion ≤ dumpSize → effPtr s.ptr < effSlots → (s.effRun a).entries.length ≤ s.cfg.recCap →
      exec (.logEff a b) s = .next { s with
        recm := storeEntries s.recm 0 (s.effRun a).entries
        reccnt := BitVec.ofNat 16 (s.effRun a).entries.length
        done := true
        err := .none }) ∧
    (basePage a + profRegion s.cfg ≤ dumpSize → inSlotSet s.cfg (profOff s.cfg s.ptr) = true →
      (s.profRun a).entries.length ≤ s.cfg.recCap →
      exec (.logProf a b) s = .next { s with
        recm := storeEntries s.recm 0 (s.profRun a).entries
        reccnt := BitVec.ofNat 16 (s.profRun a).entries.length
        done := true
        err := .none }) ∧
    (basePage a + perRegion s.cfg ≤ dumpSize → perPtr s.ptr < perRegion s.cfg → perPtr s.ptr % perPage ≠ 0 →
      (s.perRun a).fault = .none → (s.perRun a).entries.length ≤ s.cfg.recCap →
      exec (.logPer a b) s = .next { s with
        recm := storeEntries s.recm 0 (s.perRun a).entries
        reccnt := BitVec.ofNat 16 (s.perRun a).entries.length
        done := true
        err := .none })

/-- The slots the efficiency walk visits and how many records it gives (R124). -/
def Obligations.EffWalkVisitsEachSlotOnce : Prop :=
  ∀ (p : Nat) (c : Config) (slotAt : Nat → List Byte), p < effSlots →
    ((effVisits p true).length = 224 ∧ (effVisits p true).Nodup ∧ (∀ sl ∈ effVisits p true, sl < 224) ∧
      (effVisits p true).getLast? = some p ∧ (effEntries c slotAt (effVisits p true)).length ≤ 223) ∧
    (1 ≤ p → effVisits p false = List.range' 1 p ∧ (effEntries c slotAt (effVisits p false)).length ≤ p - 1)

/-- The profile walk visits each slot it visits once, within SlotSet, ending at the pointer's; a full log visits all of
SlotSet, a log that is not full starts at slot 5 (R131, R133 to R135, R139, R140). -/
def Obligations.ProfWalkIsOneCycleThroughTheSlots : Prop :=
  ∀ (c : Config) (off : Nat) (full : Bool), c.wf → inSlotSet c off = true →
    (profVisits c off full).Nodup ∧ (profVisits c off full).getLast? = some off ∧
      (∀ o ∈ profVisits c off full, inSlotSet c o = true) ∧
      (full = true → ∀ o, inSlotSet c o = true → o ∈ profVisits c off full) ∧
      (full = true → (profVisits c off full).length = if c.profWrapTo = .slot5 then 12 * c.profBlocks - 1 else 12 * c.profBlocks) ∧
      (full = false → (profVisits c off full).head? = some profFirst)

/-- A page gives at most 126 periodic records, a walk at most 126 a page (R156). -/
def Obligations.PeriodicRecordsAreBounded : Prop :=
  ∀ (s : State) (a : Byte), s.cfg.wf →
    (∀ base p g, (s.pageRun base p g).entries.length ≤ 126) ∧ (s.perRun a).entries.length ≤ 126 * 32

/-- The entries a walk commits are what REC RAM then holds, and RECCNT counts them (R31, R35, R75). -/
def Obligations.CommittedEntriesAreReadBack : Prop :=
  ∀ (r : LogRun) (s : State), s.cfg.wf → r.fault = .none → r.entries.length ≤ s.cfg.recCap →
    (s.commitLog r).reccnt.toNat = r.entries.length ∧ (s.commitLog r).done = true ∧ (s.commitLog r).err = .none ∧
      ∀ (i : Nat) (h : i < r.entries.length), (s.commitLog r).entryAt i = r.entries[i].bytes

/-- The fields of an entry's 32 bytes (R75). -/
def Obligations.EntryBytesHoldTheirFields : Prop :=
  ∀ e : Entry, e.raw.length ≤ 20 → e.srcOff < 2 ^ 16 → e.x0 < 2 ^ 24 → e.x1 < 2 ^ 24 →
    e.bytes.length = 32 ∧ (∀ j, j < 20 → entryByte e.bytes j = e.raw.getD j 0) ∧ entryKind e.bytes = e.kind ∧
      entryTag e.bytes = e.tag ∧ entrySrcOff e.bytes = e.srcOff ∧ entryLen e.bytes = e.raw.length ∧
      entryByte e.bytes 25 = 0 ∧ entryX0 e.bytes = e.x0 ∧ entryX1 e.bytes = e.x1

/-- A counter's delta is the difference mod 2^24 of the little-endian counters (R122). -/
def Obligations.DeltasWrapAtTwentyFourBits : Prop :=
  ∀ (slot prev : List Byte) (o : Nat),
    (ctrDelta slot prev o : Int) = ((ctr slot o : Int) - (ctr prev o : Int)) % 2 ^ 24 ∧ ctrDelta slot prev o < 2 ^ 24 ∧
      ctr slot o = (slot.getD o 0).toNat + 256 * (slot.getD (o + 1) 0).toNat + 65536 * (slot.getD (o + 2) 0).toNat

/-- A LOG command that ends with an error leaves RECCNT 0 and every REC byte unspecified (R31, R178). -/
def Obligations.FailedLogLeavesNoEntries : Prop :=
  ∀ (i : Instr) (s t : State), s.ready → isLog i = true → exec i s = .next t → t.done = true → t.err ≠ .none →
    t.reccnt = 0 ∧ ∀ x, t.recm.read x = none

/-- What a LOG command reports depends on PTR, the parameters and the DUMP bytes of its region alone (R126, R141, R157):
two machines that agree on those get the same ERR, the same RECCNT and the same bytes in the committed entries. -/
def Obligations.LogReadsOnlyItsRegion : Prop :=
  ∀ (a b : Byte) (s s' : State), s.ready → s'.ready → s.cfg.wf → s'.cfg = s.cfg → s'.ptr = s.ptr →
    ∀ (i : Instr) (region : Nat),
      ((i = .logEff a b ∧ region = effRegion) ∨ (i = .logProf a b ∧ region = profRegion s.cfg) ∨
        (i = .logPer a b ∧ region = perRegion s.cfg)) →
      (∀ x, x < region → s'.dumpByte (basePage a + x) = s.dumpByte (basePage a + x)) →
      ∃ t t', exec i s = .next t ∧ exec i s' = .next t' ∧ t'.done = t.done ∧ t'.err = t.err ∧ t'.reccnt = t.reccnt ∧
        ∀ x, x < entryBytes * t.reccnt.toNat → t'.recm.read x = t.recm.read x

/-! ## Field views -/

/-- The scientific value's corner cases (R162), under the decided layout for the range. -/
def Obligations.ScientificValueCorners : Prop :=
  (∀ (c : Config) (b0 b1 : Byte), sciMantissa c b0 b1 = 0 → sciValue c b0 b1 = 0) ∧
    (∀ (c : Config) (b0 b1 : Byte), sciExponent c b1 = 3 →
      sciValue c b0 b1 = if sciNeg c b1 then -(sciMantissa c b0 b1 : Rat) else (sciMantissa c b0 b1 : Rat)) ∧
    ∀ (c : Config) (b0 b1 : Byte), c.sciMhHi = 1 → c.sciEHi = 4 → c.sciELo = 2 → c.sciSign = 7 →
      -10230000 ≤ sciValue c b0 b1 ∧ sciValue c b0 b1 ≤ 10230000 ∧
        (sciValue c b0 b1 = 0 ∨ 1 / 1000 ≤ sciValue c b0 b1 ∨ sciValue c b0 b1 ≤ -(1 / 1000)) ∧
        sciValue c 0x01 0x00 = 1 / 1000 ∧ sciValue c 0xFF 0x1F = 10230000 ∧ sciValue c 0xFF 0x9F = -10230000

/-- A periodic record's present fields lie in it one after another, without gaps and in mask order (R146, R170). -/
def Obligations.PeriodicFieldsTileTheRecord : Prop :=
  ∀ mask : Nat, recordWidth mask ≤ 20 ∧ fieldOffset mask 0 = 0 ∧ fieldOffset mask 10 = recordWidth mask ∧
    ∀ k, fieldOffset mask (k + 1) = if mask.testBit k then fieldOffset mask k + 2 else fieldOffset mask k

/-- Net amp-hours are in −(2^24 − 1)..2^24 − 1; efficiency percent and self-discharge are absent exactly at a zero
divisor and otherwise satisfy their defining equations (R166 to R168). -/
def Obligations.EfficiencyViewsAreTheFormulas : Prop :=
  ∀ (c : Config) (e : List Byte),
    effNet e = (entryX0 e : Int) - (entryX1 e : Int) ∧ -(2 ^ 24 - 1) ≤ effNet e ∧ effNet e ≤ 2 ^ 24 - 1 ∧
      (effPercent e = none ↔ entryX0 e = 0) ∧
      (∀ v, effPercent e = some v → v * (entryX0 e : Rat) = 100 * (entryX1 e : Rat)) ∧
      (effSelfDischarge c e = none ↔ effMinutes c e = 0) ∧
      ∀ v, effSelfDischarge c e = some v → v * (effMinutes c e : Rat) * 100 = (effNet e : Rat) * 60

/-! ## The step, the bus, completion and reset -/

/-- A host write of a command word to an IDLE engine runs the instruction it decodes to, with the write taken from the
host's accesses and its completion still to be seen (R24, R26; log 14). -/
def Obligations.StepRunsTheCommandWord : Prop :=
  ∀ (s : State) (w : Word) (i : Instr) (gap : Nat) (rest : List Pending), s.engine = .idle →
    s.hostQ = { gap := gap, op := writeRegOp .cmd w } :: rest → decodeCommand w = .ok i →
    step s = exec i { s with hostQ := rest, unseen := true }

/-- A staged request is run as the frame its bytes decode to, when no host access is due (R39, R93; log 5). -/
def Obligations.StepRunsTheStagedRequest : Prop :=
  ∀ (s : State) (k : Bool) (w : Option Window) (frame more : List Byte) (i : Instr), s.engine = .request k w frame →
    (∀ p rest, s.hostQ = p :: rest → 0 < p.gap) → decodeFrame frame = .ok (i, more) → step s = exec i s

/-- While BUSY: writes of CMD, CTRL without bit 31, PTR, WBUF and DUMP are dropped with HAZ, STATUS's W1C bits take effect,
writes of read-only registers, the REC window and unmapped addresses are ignored without HAZ (R24, R199). -/
def Obligations.WritesWhileBusyAreDropped : Prop :=
  ∀ (s : State) (rest : List Pending), s.busy = true →
    (∀ v, s.due (writeRegOp .cmd v) rest → step s = .next { s with hostQ := rest, haz := true }) ∧
    (∀ v, v.getLsbD 31 = false → s.due (writeRegOp .ctrl v) rest → step s = .next { s with hostQ := rest, haz := true }) ∧
    (∀ v, s.due (writeRegOp .ptr v) rest → step s = .next { s with hostQ := rest, haz := true }) ∧
    (∀ k v, s.due (writeRegOp (.wbuf k) v) rest → step s = .next { s with hostQ := rest, haz := true }) ∧
    (∀ width (a : BusAddr) v, dumpWindow ≤ a.toNat → a.toNat < recWindow → a.toNat % width.bytes = 0 →
      s.due (.write width a v) rest → step s = .next { s with hostQ := rest, haz := true }) ∧
    (∀ v, s.due (writeRegOp .status v) rest →
      step s = .next { s with
        hostQ := rest
        done := s.done && !v.getLsbD 1
        prog := s.prog && !v.getLsbD 2
        haz := s.haz && !v.getLsbD 3 }) ∧
    (∀ r v, r ∈ [Reg.csum, .lastcs, .progress, .reccnt, .rbuf 0, .rbuf 1, .rbuf 2, .rbuf 3] →
      s.due (writeRegOp r v) rest → step s = .next { s with hostQ := rest }) ∧
    (∀ width (a : BusAddr) v, recWindow ≤ a.toNat → a.toNat % width.bytes = 0 → s.due (.write width a v) rest →
      step s = .next { s with hostQ := rest }) ∧
    (∀ width (a : BusAddr) v, 0x40 ≤ a.toNat → a.toNat + width.bytes ≤ dumpWindow → s.due (.write width a v) rest →
      step s = .next { s with hostQ := rest })

/-- Host writes to an IDLE engine: CTRL's three fields, PTR's low half, one WBUF word, the W1C bits of STATUS; the
read-only registers, the REC window and unmapped addresses ignore them (R23, R25, R27, R32, R44, R46). -/
def Obligations.WritesWhileIdleTakeEffect : Prop :=
  ∀ (s : State) (rest : List Pending), s.engine = .idle →
    (∀ v, v.getLsbD 31 = false → s.due (writeRegOp .ctrl v) rest →
      step s = .next { s with hostQ := rest, cookieEn := v.getLsbD 0, ie := v.getLsbD 1, pie := v.getLsbD 2 }) ∧
    (∀ v, s.due (writeRegOp .ptr v) rest → step s = .next { s with hostQ := rest, ptr := v.setWidth 16 }) ∧
    (∀ (k : Fin 4) v, s.due (writeRegOp (.wbuf k) v) rest →
      ∃ t, step s = .next t ∧ t = { s with hostQ := rest, wbuf := t.wbuf } ∧ bufWord t.wbuf k = v ∧
        ∀ j : Fin 4, j ≠ k → bufWord t.wbuf j = bufWord s.wbuf j) ∧
    (∀ v, s.due (writeRegOp .status v) rest →
      step s = .next { s with
        hostQ := rest
        done := s.done && !v.getLsbD 1
        prog := s.prog && !v.getLsbD 2
        haz := s.haz && !v.getLsbD 3 }) ∧
    (∀ r v, r ∈ [Reg.csum, .lastcs, .progress, .reccnt, .rbuf 0, .rbuf 1, .rbuf 2, .rbuf 3] →
      s.due (writeRegOp r v) rest → step s = .next { s with hostQ := rest }) ∧
    (∀ width (a : BusAddr) v, recWindow ≤ a.toNat → a.toNat % width.bytes = 0 → s.due (.write width a v) rest →
      step s = .next { s with hostQ := rest }) ∧
    (∀ width (a : BusAddr) v, 0x40 ≤ a.toNat → a.toNat + width.bytes ≤ dumpWindow → s.due (.write width a v) rest →
      step s = .next { s with hostQ := rest })

/-- A DUMP window write to an IDLE engine stores the value's bytes little-endian and no other byte (R46, R51, R54),
whether or not the host has a completion to see; once it has none, reading the same place returns the value (R57;
log 14). -/
def Obligations.DumpWindowHoldsWhatIsWritten : Prop :=
  ∀ (s : State) (width : Width) (a : BusAddr) (v : Word) (gap : Nat) (rest : List Pending), s.engine = .idle →
    dumpWindow ≤ a.toNat → a.toNat < recWindow → a.toNat % width.bytes = 0 →
    s.hostQ = { gap := gap, op := .write width a v } :: { gap := gap, op := .read width a } :: rest →
    ∃ t, step s = .next t ∧ t = { s with hostQ := { gap := gap, op := .read width a } :: rest, dump := t.dump } ∧
      (∀ x, x < a.toNat - dumpWindow ∨ a.toNat - dumpWindow + width.bytes ≤ x → t.dump.read x = s.dump.read x) ∧
      (∀ j, j < width.bytes → t.dump.read (a.toNat - dumpWindow + j) = some (v.extractLsb' (8 * j) 8)) ∧
      (s.unseen = false → step t = .next { t with
        hostQ := rest
        busReads := s.busReads ++ [BitVec.ofNat 32 (v.toNat % 2 ^ (8 * width.bytes))] })

/-- What a host read returns: a register's word, 0 from CMD and unmapped addresses, window bytes little-endian. RBUF,
RECCNT and both windows return an unspecified value while BUSY and until the host has read STATUS with DONE = 1 for its
command; a REC entry at or past RECCNT does so at any time (R40, R44, R46, R51, R57, R200 (c); log 14). -/
def Obligations.ReadsReturnWhatTheMapSays : Prop :=
  ∀ (s : State) (rest : List Pending),
    (∀ r, r ≠ .status → ((s.busy = false ∧ s.unseen = false) ∨ r.hiddenWhileBusy = false) → s.due (readRegOp r) rest →
      step s = .next { s with hostQ := rest, busReads := s.busReads ++ [s.regWord r] }) ∧
    (s.due (readRegOp .status) rest →
      ∃ t, step s = .next t ∧ t = { s with hostQ := rest, busReads := s.busReads ++ [s.statusWord], unseen := t.unseen } ∧
        (t.unseen = true ↔ s.unseen = true ∧ s.done = false)) ∧
    (∀ r, (s.busy = true ∨ s.unseen = true) → r.hiddenWhileBusy = true → s.due (readRegOp r) rest →
      ∃ v, step s = .next { s with hostQ := rest, busReads := s.busReads ++ [v], draws := s.draws + 1 }) ∧
    (∀ width (a : BusAddr), 0x40 ≤ a.toNat → a.toNat + width.bytes ≤ dumpWindow → s.due (.read width a) rest →
      step s = .next { s with hostQ := rest, busReads := s.busReads ++ [0] }) ∧
    (∀ width (a : BusAddr), dumpWindow ≤ a.toNat → a.toNat < recWindow → a.toNat % width.bytes = 0 →
      s.due (.read width a) rest →
      (s.busy = false → s.unseen = false →
        step s = .next { s with
          hostQ := rest, busReads := s.busReads ++ [wordOf (s.dumpBytes (a.toNat - dumpWindow) width.bytes)] }) ∧
      ((s.busy = true ∨ s.unseen = true) →
        ∃ v, step s = .next { s with hostQ := rest, busReads := s.busReads ++ [v], draws := s.draws + 1 })) ∧
    (∀ width (a : BusAddr), recWindow ≤ a.toNat → a.toNat % width.bytes = 0 → s.due (.read width a) rest →
      (s.busy = false → s.unseen = false → (a.toNat - recWindow) / 32 < s.reccnt.toNat →
        step s = .next { s with
          hostQ := rest, busReads := s.busReads ++ [wordOf (s.recBytes (a.toNat - recWindow) width.bytes)] }) ∧
      ((s.busy = true ∨ s.unseen = true ∨ s.reccnt.toNat ≤ (a.toNat - recWindow) / 32) →
        ∃ v, step s = .next { s with hostQ := rest, busReads := s.busReads ++ [v], draws := s.draws + 1 }))

/-- When the next host access lands, the step refuses it exactly where it breaks a host's duty: below 0x40 unless it is
32 bits wide and 4-byte aligned (R53, X1), and misaligned where it touches a window (R54, X2; for one that starts below
0x10000, log 9). Every other access, and every turn of the engine, goes on (R200). -/
def Obligations.OnlyDisallowedAccessesAreRefused : Prop :=
  ∀ s : State, (s.engineFirst = true → ∃ t, step s = .next t) ∧
    ∀ (p : Pending) (rest : List Pending), s.hostQ = p :: rest → s.engineFirst = false →
      (∀ (w : Width) (a : BusAddr), p.op.accesses w a →
        (a.toNat < 0x40 → (w ≠ .w32 ∨ a.toNat % 4 ≠ 0) → step s = .refused .badRegisterAccess) ∧
        (0x40 ≤ a.toNat → 0x10000 < a.toNat + w.bytes → a.toNat % w.bytes ≠ 0 →
          step s = .refused .misalignedWindowAccess) ∧
        (a.toNat < 0x40 → w = .w32 → a.toNat % 4 = 0 → ∃ t, step s = .next t) ∧
        (0x40 ≤ a.toNat → (a.toNat + w.bytes ≤ 0x10000 ∨ a.toNat % w.bytes = 0) → ∃ t, step s = .next t)) ∧
      ((∃ en, p.op = .cookie en) ∨ p.op = .waitIdle → ∃ t, step s = .next t)

/-- STATUS, CSUM, PROGRESS and CTRL as read hold their fields at their bits and 0 elsewhere (R23, R25, R28, R30). -/
def Obligations.RegisterWordsHoldTheirFields : Prop :=
  ∀ s : State,
    (s.statusWord.getLsbD 0 = s.busy ∧ s.statusWord.getLsbD 1 = s.done ∧ s.statusWord.getLsbD 2 = s.prog ∧
      s.statusWord.getLsbD 3 = s.haz ∧ (s.statusWord.extractLsb' 4 3).toNat = s.err.code ∧
      s.statusWord.getLsbD 7 = false ∧ s.statusWord.getLsbD 8 = (s.acc == 0xFF) ∧
      s.statusWord.extractLsb' 9 23 = 0) ∧
    (s.csumWord.extractLsb' 0 8 = s.acc ∧ s.csumWord.extractLsb' 8 8 = 0xFF - s.acc ∧
      s.csumWord.extractLsb' 16 16 = 0) ∧
    (s.progressWord.extractLsb' 0 8 = s.pdone ∧ s.progressWord.extractLsb' 8 8 = s.ptotal ∧
      s.progressWord.extractLsb' 16 16 = 0) ∧
    s.ctrlWord.getLsbD 0 = s.cookieEn ∧ s.ctrlWord.getLsbD 1 = s.ie ∧ s.ctrlWord.getLsbD 2 = s.pie ∧
      s.ctrlWord.extractLsb' 3 29 = 0

/-- Writing CTRL masks and unmasks irq's sources without touching DONE or PROG (R37, R182). -/
def Obligations.CtrlMasksTheInterrupt : Prop :=
  ∀ (s : State) (v : Word) (rest : List Pending), s.engine = .idle → v.getLsbD 31 = false →
    s.due (writeRegOp .ctrl v) rest →
    ∃ t, step s = .next t ∧ t.done = s.done ∧ t.prog = s.prog ∧
      (t.irq = true ↔ (s.done = true ∧ v.getLsbD 1 = true) ∨ (s.prog = true ∧ v.getLsbD 2 = true))

/-- Soft reset, whatever the engine is doing: registers and hidden state at their reset values, no completion, nothing
sent, the parameters kept; DUMP and REC keep every byte but an aborted PREAD's pages and an aborted LOG command's REC
content, which become unspecified (R192; also before the command has begun, log 15). -/
def Obligations.SoftResetClearsTheMachine : Prop :=
  ∀ (s : State) (v : Word) (rest : List Pending), v.getLsbD 31 = true → s.due (writeRegOp .ctrl v) rest →
    ∃ t, step s = .next t ∧
      t = { State.resetWith s.cfg with
        dump := t.dump
        recm := t.recm
        epoch := t.epoch
        draws := s.draws
        hostQ := rest
        txQ := s.txQ
        rxQ := s.rxQ
        txSent := s.txSent
        busReads := s.busReads } ∧
      (s.engine.abandoned = .nothing → t.dump = s.dump ∧ t.recm = s.recm ∧ t.epoch = s.epoch) ∧
      (∀ p0 n, s.engine.abandoned = .pages p0 n → t.recm = s.recm ∧
        ∀ x, t.dump.read x = if devPage * p0 ≤ x ∧ x < devPage * (p0 + n) then none else s.dump.read x) ∧
      (s.engine.abandoned = .records → t.dump = s.dump ∧ ∀ x, t.recm.read x = none)

/-- Power-on reset, for every value of the parameters: the registers as R41 gives them, both RAMs unspecified, the engine
IDLE with nothing offered or asked for, irq 0, and the machine waits (R191). -/
def Obligations.PowerOnResetValues : Prop :=
  ∀ c : Config,
    let s := State.resetWith c
    (∀ r, s.regWord r = if r = .csum then 0x0000FF00 else 0) ∧ (∀ x, s.dump.read x = none ∧ s.recm.read x = none) ∧
      s.engine = .idle ∧ s.busy = false ∧ s.txOffer = none ∧ s.rxAsks = false ∧ s.irq = false ∧ s.ie = false ∧
      s.pie = false ∧ step s = .next s

/-- A transaction whose transport does not answer waits until a soft reset ends it without completion (R192, R203): SREAD,
SWRITE and PREAD in any of its windows, on TX after `j` bytes of the request `req`, which offers the next, or on RX after
some of the response's `n` bytes, which asks for one. `sent` and `received` are what PREAD's earlier windows exchanged. -/
def Obligations.SilentTransportLeavesTheCommandWaiting : Prop :=
  ∀ (a b : Byte) (s : State) (i : Instr) (sent received req : List Byte) (n : Nat), s.ready →
    ((i = .sread a b ∧ 1 ≤ b.toNat ∧ b.toNat ≤ 16 ∧ sent = [] ∧ received = [] ∧
        req = cookieBytes s.cookieEn ++ shortReadRequest a b ∧ n = cookieLen s.cookieEn + b.toNat + 1) ∨
      (i = .swrite a b ∧ 1 ≤ b.toNat ∧ b.toNat ≤ 16 ∧ sent = [] ∧ received = [] ∧
        req = cookieBytes s.cookieEn ++ shortWriteRequest a b (s.wbuf.toList.take b.toNat) ∧
        n = cookieLen s.cookieEn + 1) ∨
      (i = .pread a b ∧ a.toNat + b.toNat ≤ 256 ∧ n = cookieLen s.cookieEn + devPage + 1 ∧
        ∃ resps : List (List Byte), resps.length < b.toNat ∧ (∀ resp ∈ resps, goodResponse s.cookieEn devPage resp) ∧
          sent = pageRequests s.cookieEn a.toNat resps.length ∧ received = resps.flatten ∧
          req = cookieBytes s.cookieEn ++ pagedReadRequest (a + BitVec.ofNat 8 resps.length))) →
    (∀ (j : Nat) (rq : List RxAnswer), j < req.length → s.txQ = List.replicate (sent.length + j) .ok →
      s.rxQ = received.map .byte ++ rq →
      ∃ t u, exec i s = .next t ∧ t.waits u ∧ t.txOffer = req[j]? ∧ t.txSent = s.txSent ++ (sent ++ req.take j) ∧
        ((∀ c d, i ≠ .pread c d) → u.dump = s.dump)) ∧
    (∀ (got : List Byte) (tq : List TxAnswer), got.length < n →
      s.txQ = List.replicate (sent.length + req.length) .ok ++ tq → s.rxQ = (received ++ got).map .byte →
      ∃ t u, exec i s = .next t ∧ t.waits u ∧ t.rxAsks = true ∧ t.txSent = s.txSent ++ (sent ++ req) ∧
        t.acc = byteSum got ∧ ((∀ c d, i ≠ .pread c d) → u.dump = s.dump))

/-- A command that does not wait on the transport ends: NOP, CSUM_CLR, CSUM_ADD and the LOG commands (R205). -/
def Obligations.CommandsWithoutTransportEnd : Prop :=
  ∀ (i : Instr) (s : State), s.ready → s.cfg.wf →
    (match i with
      | .nop _ _ => True
      | .csumClr _ _ => True
      | .csumAdd _ _ => True
      | .logEff _ _ => True
      | .logProf _ _ => True
      | .logPer _ _ => True
      | _ => False) →
    ∃ t, exec i s = .next t ∧ t.engine = .idle ∧ t.done = true

/-- A transaction ends once every Tx and Rx request it makes is answered, whatever the answers: enough answers of any
kind suffice (R205). -/
def Obligations.AnsweredTransactionsEnd : Prop :=
  ∀ (i : Instr) (s : State), s.ready →
    (match i with
      | .sread _ b => 5 ≤ s.txQ.length ∧ b.toNat + 2 ≤ s.rxQ.length
      | .swrite _ b => b.toNat + 5 ≤ s.txQ.length ∧ 2 ≤ s.rxQ.length
      | .pread _ b => 5 * b.toNat ≤ s.txQ.length ∧ 258 * b.toNat ≤ s.rxQ.length
      | _ => False) →
    ∃ t, exec i s = .next t ∧ t.engine = .idle ∧ t.done = true

/-! ## Frames: what a command leaves unchanged, also where it waits, is interrupted by a host access, or fails -/

/-- No instruction changes the parameters, CTRL, PTR, WBUF or the host's side; HAZ is set only for a command word
dropped while BUSY (R27, R36, R199). -/
def Obligations.InstructionsLeaveTheHostsRegisters : Prop :=
  ∀ (i : Instr) (s t : State), exec i s = .next t →
    t.cfg = s.cfg ∧ t.cookieEn = s.cookieEn ∧ t.ie = s.ie ∧ t.pie = s.pie ∧ t.ptr = s.ptr ∧ t.wbuf = s.wbuf ∧
      t.draws = s.draws ∧ t.unseen = s.unseen ∧ t.busReads = s.busReads ∧ t.hostQ.map Pending.op = s.hostQ.map Pending.op ∧
      t.haz = (s.haz || (s.busy && isCommand i))

/-- NOP, CSUM_CLR and CSUM_ADD leave everything but ACC and STATUS's DONE and ERR as it was, NOP also ACC (R86 to R88). -/
def Obligations.ControlCommandsFrame : Prop :=
  ∀ (a b : Byte) (i : Instr) (s t : State), s.engine = .idle → (i = .nop a b ∨ i = .csumClr a b ∨ i = .csumAdd a b) →
    exec i s = .next t →
    t.prog = s.prog ∧ t.lastcs = s.lastcs ∧ t.pdone = s.pdone ∧ t.ptotal = s.ptotal ∧ t.reccnt = s.reccnt ∧
      t.rbuf = s.rbuf ∧ t.dump = s.dump ∧ t.recm = s.recm ∧ t.epoch = s.epoch ∧ t.txQ = s.txQ ∧ t.rxQ = s.rxQ ∧
      t.txSent = s.txSent ∧ (i = .nop a b → t.acc = s.acc)

/-- SREAD and SWRITE, and the short frames, write neither RAM, RECCNT, PROGRESS nor PROG; a short write leaves RBUF (R96,
R99, R179). -/
def Obligations.ShortTransactionsFrame : Prop :=
  ∀ (i : Instr) (s t : State), exec i s = .next t →
    (match i with
      | .sread _ _ => s.engine = .idle
      | .swrite _ _ => s.engine = .idle
      | .wireShortRead _ _ _ => True
      | .wireShortWrite _ _ _ _ => True
      | _ => False) →
    t.prog = s.prog ∧ t.pdone = s.pdone ∧ t.ptotal = s.ptotal ∧ t.reccnt = s.reccnt ∧ t.dump = s.dump ∧
      t.recm = s.recm ∧ t.epoch = s.epoch ∧
      ((∀ a b, i ≠ .sread a b) → (∀ a b c, i ≠ .wireShortRead a b c) → t.rbuf = s.rbuf)

/-- PREAD writes no DUMP byte outside its pages, the paged read frame none outside its own page and its command's pages;
neither writes REC RAM, RECCNT or RBUF, and the frame neither PTOTAL nor PROG (R99, R104, R106). -/
def Obligations.PagedReadsFrame : Prop :=
  (∀ (a b : Byte) (s t : State), s.engine = .idle → exec (.pread a b) s = .next t →
    t.reccnt = s.reccnt ∧ t.rbuf = s.rbuf ∧ t.recm = s.recm ∧
      ∀ x, ¬ (devPage * a.toNat ≤ x ∧ x < devPage * (a.toNat + b.toNat)) → t.dump.read x = s.dump.read x) ∧
    ∀ (page count cs : Byte) (s t : State), exec (.wirePagedRead page count cs) s = .next t →
      t.reccnt = s.reccnt ∧ t.rbuf = s.rbuf ∧ t.recm = s.recm ∧ t.ptotal = s.ptotal ∧ t.prog = s.prog ∧
        ∀ k w frame, s.engine = .request k w frame → ∀ x,
          ¬ (devPage * page.toNat ≤ x ∧ x < devPage * (page.toNat + 1)) →
          ¬ (devPage * (windowOf w page).p0 ≤ x ∧
            x < devPage * ((windowOf w page).p0 + (windowOf w page).total)) →
          t.dump.read x = s.dump.read x

/-- The LOG commands send nothing and write no register but RECCNT, DONE and ERR, and no DUMP byte (R113, R126, R128,
R141, R142, R157). -/
def Obligations.LogCommandsFrame : Prop :=
  ∀ (i : Instr) (s t : State), s.engine = .idle → isLog i = true → exec i s = .next t →
    t.prog = s.prog ∧ t.acc = s.acc ∧ t.lastcs = s.lastcs ∧ t.pdone = s.pdone ∧ t.ptotal = s.ptotal ∧
      t.rbuf = s.rbuf ∧ t.dump = s.dump ∧ t.txQ = s.txQ ∧ t.rxQ = s.rxQ ∧ t.txSent = s.txSent

/-! ## The invariant -/

/-- Every step keeps the invariant: canonical RAMs within their sizes, parameters in range, no ConnectionError, RECCNT
within REC_CAP, RECCNT 0 while a LOG command runs, a legal engine position. -/
def Obligations.EveryStepKeepsTheInvariant : Prop :=
  ∀ s t : State, s.Inv → step s = .next t → t.Inv

/-- Power-on reset meets the invariant, for all parameters within R11's ranges. -/
def Obligations.PowerOnMeetsTheInvariant : Prop :=
  (∀ c : Config, c.wf → (State.resetWith c).Inv) ∧ State.reset.Inv

/-- Each command statement of a host script runs the command it names with its operands (R79; that the host then has a
completion to see is log 14), and `WBUF` loads its bytes from WBUF[0] on and zeros after them (R80; of more than 16 bytes the first 16,
the model's choice, log 22). -/
def Obligations.ScriptStatementsDoWhatTheyName : Prop :=
  (∀ (a b : Byte) (s : State) (m : Mnemonic), s.engine = .idle → s.hostQ = scriptOps 0 [.command m a b] →
    step s = exec
      (match m with
        | .nop => .nop a b
        | .csumClr => .csumClr a b
        | .csumAdd => .csumAdd a b
        | .sread => .sread a b
        | .swrite => .swrite a b
        | .pread => .pread a b
        | .logEff => .logEff a b
        | .logProf => .logProf a b
        | .logPer => .logPer a b) { s with hostQ := [], unseen := true }) ∧
    ∀ (bytes : List Byte) (s : State), s.engine = .idle → s.hostQ = scriptOps 0 [.wbuf bytes] →
      ∃ t, stepN 4 s = .next t ∧ t = { s with hostQ := [], wbuf := t.wbuf } ∧
        ∀ i : Fin 16, t.wbuf[i] = bytes.getD i.val 0
end

