-- ==== Sys2Proof/Laws/State.lean ====
section
/-! SUPPORT. What each update of State leaves in each field, all true by rfl, so that no later proof unfolds an update. -/

namespace Sys2Proof.Machine

variable (s : State)

/-! ## State.complete -/

@[simp] theorem State.complete_cfg (e : Err) : (s.complete e).cfg = s.cfg := rfl
@[simp] theorem State.complete_cookieEn (e : Err) : (s.complete e).cookieEn = s.cookieEn := rfl
@[simp] theorem State.complete_ie (e : Err) : (s.complete e).ie = s.ie := rfl
@[simp] theorem State.complete_pie (e : Err) : (s.complete e).pie = s.pie := rfl
@[simp] theorem State.complete_done (e : Err) : (s.complete e).done = true := rfl
@[simp] theorem State.complete_prog (e : Err) : (s.complete e).prog = s.prog := rfl
@[simp] theorem State.complete_haz (e : Err) : (s.complete e).haz = s.haz := rfl
@[simp] theorem State.complete_err (e : Err) : (s.complete e).err = e := rfl
@[simp] theorem State.complete_ptr (e : Err) : (s.complete e).ptr = s.ptr := rfl
@[simp] theorem State.complete_acc (e : Err) : (s.complete e).acc = s.acc := rfl
@[simp] theorem State.complete_lastcs (e : Err) : (s.complete e).lastcs = s.lastcs := rfl
@[simp] theorem State.complete_pdone (e : Err) : (s.complete e).pdone = s.pdone := rfl
@[simp] theorem State.complete_ptotal (e : Err) : (s.complete e).ptotal = s.ptotal := rfl
@[simp] theorem State.complete_reccnt (e : Err) : (s.complete e).reccnt = s.reccnt := rfl
@[simp] theorem State.complete_wbuf (e : Err) : (s.complete e).wbuf = s.wbuf := rfl
@[simp] theorem State.complete_rbuf (e : Err) : (s.complete e).rbuf = s.rbuf := rfl
@[simp] theorem State.complete_dump (e : Err) : (s.complete e).dump = s.dump := rfl
@[simp] theorem State.complete_recm (e : Err) : (s.complete e).recm = s.recm := rfl
@[simp] theorem State.complete_engine (e : Err) : (s.complete e).engine = .idle := rfl
@[simp] theorem State.complete_epoch (e : Err) : (s.complete e).epoch = s.epoch := rfl
@[simp] theorem State.complete_draws (e : Err) : (s.complete e).draws = s.draws := rfl
@[simp] theorem State.complete_unseen (e : Err) : (s.complete e).unseen = s.unseen := rfl
@[simp] theorem State.complete_hostQ (e : Err) : (s.complete e).hostQ = s.hostQ := rfl
@[simp] theorem State.complete_txQ (e : Err) : (s.complete e).txQ = s.txQ := rfl
@[simp] theorem State.complete_rxQ (e : Err) : (s.complete e).rxQ = s.rxQ := rfl
@[simp] theorem State.complete_txSent (e : Err) : (s.complete e).txSent = s.txSent := rfl
@[simp] theorem State.complete_busReads (e : Err) : (s.complete e).busReads = s.busReads := rfl

/-! ## State.acknowledge -/

@[simp] theorem State.acknowledge_cfg (d p h : Bool) : (s.acknowledge d p h).cfg = s.cfg := rfl
@[simp] theorem State.acknowledge_cookieEn (d p h : Bool) : (s.acknowledge d p h).cookieEn = s.cookieEn := rfl
@[simp] theorem State.acknowledge_ie (d p h : Bool) : (s.acknowledge d p h).ie = s.ie := rfl
@[simp] theorem State.acknowledge_pie (d p h : Bool) : (s.acknowledge d p h).pie = s.pie := rfl
@[simp] theorem State.acknowledge_done (d p h : Bool) : (s.acknowledge d p h).done = (s.done && !d) := rfl
@[simp] theorem State.acknowledge_prog (d p h : Bool) : (s.acknowledge d p h).prog = (s.prog && !p) := rfl
@[simp] theorem State.acknowledge_haz (d p h : Bool) : (s.acknowledge d p h).haz = (s.haz && !h) := rfl
@[simp] theorem State.acknowledge_err (d p h : Bool) : (s.acknowledge d p h).err = s.err := rfl
@[simp] theorem State.acknowledge_ptr (d p h : Bool) : (s.acknowledge d p h).ptr = s.ptr := rfl
@[simp] theorem State.acknowledge_acc (d p h : Bool) : (s.acknowledge d p h).acc = s.acc := rfl
@[simp] theorem State.acknowledge_lastcs (d p h : Bool) : (s.acknowledge d p h).lastcs = s.lastcs := rfl
@[simp] theorem State.acknowledge_pdone (d p h : Bool) : (s.acknowledge d p h).pdone = s.pdone := rfl
@[simp] theorem State.acknowledge_ptotal (d p h : Bool) : (s.acknowledge d p h).ptotal = s.ptotal := rfl
@[simp] theorem State.acknowledge_reccnt (d p h : Bool) : (s.acknowledge d p h).reccnt = s.reccnt := rfl
@[simp] theorem State.acknowledge_wbuf (d p h : Bool) : (s.acknowledge d p h).wbuf = s.wbuf := rfl
@[simp] theorem State.acknowledge_rbuf (d p h : Bool) : (s.acknowledge d p h).rbuf = s.rbuf := rfl
@[simp] theorem State.acknowledge_dump (d p h : Bool) : (s.acknowledge d p h).dump = s.dump := rfl
@[simp] theorem State.acknowledge_recm (d p h : Bool) : (s.acknowledge d p h).recm = s.recm := rfl
@[simp] theorem State.acknowledge_engine (d p h : Bool) : (s.acknowledge d p h).engine = s.engine := rfl
@[simp] theorem State.acknowledge_epoch (d p h : Bool) : (s.acknowledge d p h).epoch = s.epoch := rfl
@[simp] theorem State.acknowledge_draws (d p h : Bool) : (s.acknowledge d p h).draws = s.draws := rfl
@[simp] theorem State.acknowledge_unseen (d p h : Bool) : (s.acknowledge d p h).unseen = s.unseen := rfl
@[simp] theorem State.acknowledge_hostQ (d p h : Bool) : (s.acknowledge d p h).hostQ = s.hostQ := rfl
@[simp] theorem State.acknowledge_txQ (d p h : Bool) : (s.acknowledge d p h).txQ = s.txQ := rfl
@[simp] theorem State.acknowledge_rxQ (d p h : Bool) : (s.acknowledge d p h).rxQ = s.rxQ := rfl
@[simp] theorem State.acknowledge_txSent (d p h : Bool) : (s.acknowledge d p h).txSent = s.txSent := rfl
@[simp] theorem State.acknowledge_busReads (d p h : Bool) : (s.acknowledge d p h).busReads = s.busReads := rfl

/-! ## State.clearRbuf -/

@[simp] theorem State.clearRbuf_cfg : (s.clearRbuf).cfg = s.cfg := rfl
@[simp] theorem State.clearRbuf_cookieEn : (s.clearRbuf).cookieEn = s.cookieEn := rfl
@[simp] theorem State.clearRbuf_ie : (s.clearRbuf).ie = s.ie := rfl
@[simp] theorem State.clearRbuf_pie : (s.clearRbuf).pie = s.pie := rfl
@[simp] theorem State.clearRbuf_done : (s.clearRbuf).done = s.done := rfl
@[simp] theorem State.clearRbuf_prog : (s.clearRbuf).prog = s.prog := rfl
@[simp] theorem State.clearRbuf_haz : (s.clearRbuf).haz = s.haz := rfl
@[simp] theorem State.clearRbuf_err : (s.clearRbuf).err = s.err := rfl
@[simp] theorem State.clearRbuf_ptr : (s.clearRbuf).ptr = s.ptr := rfl
@[simp] theorem State.clearRbuf_acc : (s.clearRbuf).acc = s.acc := rfl
@[simp] theorem State.clearRbuf_lastcs : (s.clearRbuf).lastcs = s.lastcs := rfl
@[simp] theorem State.clearRbuf_pdone : (s.clearRbuf).pdone = s.pdone := rfl
@[simp] theorem State.clearRbuf_ptotal : (s.clearRbuf).ptotal = s.ptotal := rfl
@[simp] theorem State.clearRbuf_reccnt : (s.clearRbuf).reccnt = s.reccnt := rfl
@[simp] theorem State.clearRbuf_wbuf : (s.clearRbuf).wbuf = s.wbuf := rfl
@[simp] theorem State.clearRbuf_rbuf : (s.clearRbuf).rbuf = zeroBuf := rfl
@[simp] theorem State.clearRbuf_dump : (s.clearRbuf).dump = s.dump := rfl
@[simp] theorem State.clearRbuf_recm : (s.clearRbuf).recm = s.recm := rfl
@[simp] theorem State.clearRbuf_engine : (s.clearRbuf).engine = s.engine := rfl
@[simp] theorem State.clearRbuf_epoch : (s.clearRbuf).epoch = s.epoch := rfl
@[simp] theorem State.clearRbuf_draws : (s.clearRbuf).draws = s.draws := rfl
@[simp] theorem State.clearRbuf_unseen : (s.clearRbuf).unseen = s.unseen := rfl
@[simp] theorem State.clearRbuf_hostQ : (s.clearRbuf).hostQ = s.hostQ := rfl
@[simp] theorem State.clearRbuf_txQ : (s.clearRbuf).txQ = s.txQ := rfl
@[simp] theorem State.clearRbuf_rxQ : (s.clearRbuf).rxQ = s.rxQ := rfl
@[simp] theorem State.clearRbuf_txSent : (s.clearRbuf).txSent = s.txSent := rfl
@[simp] theorem State.clearRbuf_busReads : (s.clearRbuf).busReads = s.busReads := rfl

/-! ## State.forgetPages -/

@[simp] theorem State.forgetPages_cfg (p0 n : Nat) : (s.forgetPages p0 n).cfg = s.cfg := rfl
@[simp] theorem State.forgetPages_cookieEn (p0 n : Nat) : (s.forgetPages p0 n).cookieEn = s.cookieEn := rfl
@[simp] theorem State.forgetPages_ie (p0 n : Nat) : (s.forgetPages p0 n).ie = s.ie := rfl
@[simp] theorem State.forgetPages_pie (p0 n : Nat) : (s.forgetPages p0 n).pie = s.pie := rfl
@[simp] theorem State.forgetPages_done (p0 n : Nat) : (s.forgetPages p0 n).done = s.done := rfl
@[simp] theorem State.forgetPages_prog (p0 n : Nat) : (s.forgetPages p0 n).prog = s.prog := rfl
@[simp] theorem State.forgetPages_haz (p0 n : Nat) : (s.forgetPages p0 n).haz = s.haz := rfl
@[simp] theorem State.forgetPages_err (p0 n : Nat) : (s.forgetPages p0 n).err = s.err := rfl
@[simp] theorem State.forgetPages_ptr (p0 n : Nat) : (s.forgetPages p0 n).ptr = s.ptr := rfl
@[simp] theorem State.forgetPages_acc (p0 n : Nat) : (s.forgetPages p0 n).acc = s.acc := rfl
@[simp] theorem State.forgetPages_lastcs (p0 n : Nat) : (s.forgetPages p0 n).lastcs = s.lastcs := rfl
@[simp] theorem State.forgetPages_pdone (p0 n : Nat) : (s.forgetPages p0 n).pdone = s.pdone := rfl
@[simp] theorem State.forgetPages_ptotal (p0 n : Nat) : (s.forgetPages p0 n).ptotal = s.ptotal := rfl
@[simp] theorem State.forgetPages_reccnt (p0 n : Nat) : (s.forgetPages p0 n).reccnt = s.reccnt := rfl
@[simp] theorem State.forgetPages_wbuf (p0 n : Nat) : (s.forgetPages p0 n).wbuf = s.wbuf := rfl
@[simp] theorem State.forgetPages_rbuf (p0 n : Nat) : (s.forgetPages p0 n).rbuf = s.rbuf := rfl
@[simp] theorem State.forgetPages_dump (p0 n : Nat) : (s.forgetPages p0 n).dump = s.dump.forget (devPage * p0) (devPage * (p0 + n)) := rfl
@[simp] theorem State.forgetPages_recm (p0 n : Nat) : (s.forgetPages p0 n).recm = s.recm := rfl
@[simp] theorem State.forgetPages_engine (p0 n : Nat) : (s.forgetPages p0 n).engine = s.engine := rfl
@[simp] theorem State.forgetPages_epoch (p0 n : Nat) : (s.forgetPages p0 n).epoch = s.epoch + 1 := rfl
@[simp] theorem State.forgetPages_draws (p0 n : Nat) : (s.forgetPages p0 n).draws = s.draws := rfl
@[simp] theorem State.forgetPages_unseen (p0 n : Nat) : (s.forgetPages p0 n).unseen = s.unseen := rfl
@[simp] theorem State.forgetPages_hostQ (p0 n : Nat) : (s.forgetPages p0 n).hostQ = s.hostQ := rfl
@[simp] theorem State.forgetPages_txQ (p0 n : Nat) : (s.forgetPages p0 n).txQ = s.txQ := rfl
@[simp] theorem State.forgetPages_rxQ (p0 n : Nat) : (s.forgetPages p0 n).rxQ = s.rxQ := rfl
@[simp] theorem State.forgetPages_txSent (p0 n : Nat) : (s.forgetPages p0 n).txSent = s.txSent := rfl
@[simp] theorem State.forgetPages_busReads (p0 n : Nat) : (s.forgetPages p0 n).busReads = s.busReads := rfl

/-! ## State.forgetRec -/

@[simp] theorem State.forgetRec_cfg : (s.forgetRec).cfg = s.cfg := rfl
@[simp] theorem State.forgetRec_cookieEn : (s.forgetRec).cookieEn = s.cookieEn := rfl
@[simp] theorem State.forgetRec_ie : (s.forgetRec).ie = s.ie := rfl
@[simp] theorem State.forgetRec_pie : (s.forgetRec).pie = s.pie := rfl
@[simp] theorem State.forgetRec_done : (s.forgetRec).done = s.done := rfl
@[simp] theorem State.forgetRec_prog : (s.forgetRec).prog = s.prog := rfl
@[simp] theorem State.forgetRec_haz : (s.forgetRec).haz = s.haz := rfl
@[simp] theorem State.forgetRec_err : (s.forgetRec).err = s.err := rfl
@[simp] theorem State.forgetRec_ptr : (s.forgetRec).ptr = s.ptr := rfl
@[simp] theorem State.forgetRec_acc : (s.forgetRec).acc = s.acc := rfl
@[simp] theorem State.forgetRec_lastcs : (s.forgetRec).lastcs = s.lastcs := rfl
@[simp] theorem State.forgetRec_pdone : (s.forgetRec).pdone = s.pdone := rfl
@[simp] theorem State.forgetRec_ptotal : (s.forgetRec).ptotal = s.ptotal := rfl
@[simp] theorem State.forgetRec_reccnt : (s.forgetRec).reccnt = s.reccnt := rfl
@[simp] theorem State.forgetRec_wbuf : (s.forgetRec).wbuf = s.wbuf := rfl
@[simp] theorem State.forgetRec_rbuf : (s.forgetRec).rbuf = s.rbuf := rfl
@[simp] theorem State.forgetRec_dump : (s.forgetRec).dump = s.dump := rfl
@[simp] theorem State.forgetRec_recm : (s.forgetRec).recm = [] := rfl
@[simp] theorem State.forgetRec_engine : (s.forgetRec).engine = s.engine := rfl
@[simp] theorem State.forgetRec_epoch : (s.forgetRec).epoch = s.epoch + 1 := rfl
@[simp] theorem State.forgetRec_draws : (s.forgetRec).draws = s.draws := rfl
@[simp] theorem State.forgetRec_unseen : (s.forgetRec).unseen = s.unseen := rfl
@[simp] theorem State.forgetRec_hostQ : (s.forgetRec).hostQ = s.hostQ := rfl
@[simp] theorem State.forgetRec_txQ : (s.forgetRec).txQ = s.txQ := rfl
@[simp] theorem State.forgetRec_rxQ : (s.forgetRec).rxQ = s.rxQ := rfl
@[simp] theorem State.forgetRec_txSent : (s.forgetRec).txSent = s.txSent := rfl
@[simp] theorem State.forgetRec_busReads : (s.forgetRec).busReads = s.busReads := rfl

/-! ## State.issue -/

@[simp] theorem State.issue_cfg (cmd : Option Instr) : (s.issue cmd).cfg = s.cfg := rfl
@[simp] theorem State.issue_cookieEn (cmd : Option Instr) : (s.issue cmd).cookieEn = s.cookieEn := rfl
@[simp] theorem State.issue_ie (cmd : Option Instr) : (s.issue cmd).ie = s.ie := rfl
@[simp] theorem State.issue_pie (cmd : Option Instr) : (s.issue cmd).pie = s.pie := rfl
@[simp] theorem State.issue_done (cmd : Option Instr) : (s.issue cmd).done = false := rfl
@[simp] theorem State.issue_prog (cmd : Option Instr) : (s.issue cmd).prog = s.prog := rfl
@[simp] theorem State.issue_haz (cmd : Option Instr) : (s.issue cmd).haz = s.haz := rfl
@[simp] theorem State.issue_err (cmd : Option Instr) : (s.issue cmd).err = .none := rfl
@[simp] theorem State.issue_ptr (cmd : Option Instr) : (s.issue cmd).ptr = s.ptr := rfl
@[simp] theorem State.issue_acc (cmd : Option Instr) : (s.issue cmd).acc = s.acc := rfl
@[simp] theorem State.issue_lastcs (cmd : Option Instr) : (s.issue cmd).lastcs = s.lastcs := rfl
@[simp] theorem State.issue_pdone (cmd : Option Instr) : (s.issue cmd).pdone = s.pdone := rfl
@[simp] theorem State.issue_ptotal (cmd : Option Instr) : (s.issue cmd).ptotal = s.ptotal := rfl
@[simp] theorem State.issue_reccnt (cmd : Option Instr) : (s.issue cmd).reccnt = (if cmd.any isLog then 0 else s.reccnt) := rfl
@[simp] theorem State.issue_wbuf (cmd : Option Instr) : (s.issue cmd).wbuf = s.wbuf := rfl
@[simp] theorem State.issue_rbuf (cmd : Option Instr) : (s.issue cmd).rbuf = s.rbuf := rfl
@[simp] theorem State.issue_dump (cmd : Option Instr) : (s.issue cmd).dump = s.dump := rfl
@[simp] theorem State.issue_recm (cmd : Option Instr) : (s.issue cmd).recm = s.recm := rfl
@[simp] theorem State.issue_engine (cmd : Option Instr) : (s.issue cmd).engine = .issued s.cookieEn cmd := rfl
@[simp] theorem State.issue_epoch (cmd : Option Instr) : (s.issue cmd).epoch = s.epoch := rfl
@[simp] theorem State.issue_draws (cmd : Option Instr) : (s.issue cmd).draws = s.draws := rfl
@[simp] theorem State.issue_unseen (cmd : Option Instr) : (s.issue cmd).unseen = s.unseen := rfl
@[simp] theorem State.issue_hostQ (cmd : Option Instr) : (s.issue cmd).hostQ = s.hostQ := rfl
@[simp] theorem State.issue_txQ (cmd : Option Instr) : (s.issue cmd).txQ = s.txQ := rfl
@[simp] theorem State.issue_rxQ (cmd : Option Instr) : (s.issue cmd).rxQ = s.rxQ := rfl
@[simp] theorem State.issue_txSent (cmd : Option Instr) : (s.issue cmd).txSent = s.txSent := rfl
@[simp] theorem State.issue_busReads (cmd : Option Instr) : (s.issue cmd).busReads = s.busReads := rfl

/-! ## State.dropWrite -/

@[simp] theorem State.dropWrite_cfg : (s.dropWrite).cfg = s.cfg := rfl
@[simp] theorem State.dropWrite_cookieEn : (s.dropWrite).cookieEn = s.cookieEn := rfl
@[simp] theorem State.dropWrite_ie : (s.dropWrite).ie = s.ie := rfl
@[simp] theorem State.dropWrite_pie : (s.dropWrite).pie = s.pie := rfl
@[simp] theorem State.dropWrite_done : (s.dropWrite).done = s.done := rfl
@[simp] theorem State.dropWrite_prog : (s.dropWrite).prog = s.prog := rfl
@[simp] theorem State.dropWrite_haz : (s.dropWrite).haz = true := rfl
@[simp] theorem State.dropWrite_err : (s.dropWrite).err = s.err := rfl
@[simp] theorem State.dropWrite_ptr : (s.dropWrite).ptr = s.ptr := rfl
@[simp] theorem State.dropWrite_acc : (s.dropWrite).acc = s.acc := rfl
@[simp] theorem State.dropWrite_lastcs : (s.dropWrite).lastcs = s.lastcs := rfl
@[simp] theorem State.dropWrite_pdone : (s.dropWrite).pdone = s.pdone := rfl
@[simp] theorem State.dropWrite_ptotal : (s.dropWrite).ptotal = s.ptotal := rfl
@[simp] theorem State.dropWrite_reccnt : (s.dropWrite).reccnt = s.reccnt := rfl
@[simp] theorem State.dropWrite_wbuf : (s.dropWrite).wbuf = s.wbuf := rfl
@[simp] theorem State.dropWrite_rbuf : (s.dropWrite).rbuf = s.rbuf := rfl
@[simp] theorem State.dropWrite_dump : (s.dropWrite).dump = s.dump := rfl
@[simp] theorem State.dropWrite_recm : (s.dropWrite).recm = s.recm := rfl
@[simp] theorem State.dropWrite_engine : (s.dropWrite).engine = s.engine := rfl
@[simp] theorem State.dropWrite_epoch : (s.dropWrite).epoch = s.epoch := rfl
@[simp] theorem State.dropWrite_draws : (s.dropWrite).draws = s.draws := rfl
@[simp] theorem State.dropWrite_unseen : (s.dropWrite).unseen = s.unseen := rfl
@[simp] theorem State.dropWrite_hostQ : (s.dropWrite).hostQ = s.hostQ := rfl
@[simp] theorem State.dropWrite_txQ : (s.dropWrite).txQ = s.txQ := rfl
@[simp] theorem State.dropWrite_rxQ : (s.dropWrite).rxQ = s.rxQ := rfl
@[simp] theorem State.dropWrite_txSent : (s.dropWrite).txSent = s.txSent := rfl
@[simp] theorem State.dropWrite_busReads : (s.dropWrite).busReads = s.busReads := rfl

/-! ## State.tick -/

@[simp] theorem State.tick_cfg : (s.tick).cfg = s.cfg := rfl
@[simp] theorem State.tick_cookieEn : (s.tick).cookieEn = s.cookieEn := rfl
@[simp] theorem State.tick_ie : (s.tick).ie = s.ie := rfl
@[simp] theorem State.tick_pie : (s.tick).pie = s.pie := rfl
@[simp] theorem State.tick_done : (s.tick).done = s.done := rfl
@[simp] theorem State.tick_prog : (s.tick).prog = s.prog := rfl
@[simp] theorem State.tick_haz : (s.tick).haz = s.haz := rfl
@[simp] theorem State.tick_err : (s.tick).err = s.err := rfl
@[simp] theorem State.tick_ptr : (s.tick).ptr = s.ptr := rfl
@[simp] theorem State.tick_acc : (s.tick).acc = s.acc := rfl
@[simp] theorem State.tick_lastcs : (s.tick).lastcs = s.lastcs := rfl
@[simp] theorem State.tick_pdone : (s.tick).pdone = s.pdone := rfl
@[simp] theorem State.tick_ptotal : (s.tick).ptotal = s.ptotal := rfl
@[simp] theorem State.tick_reccnt : (s.tick).reccnt = s.reccnt := rfl
@[simp] theorem State.tick_wbuf : (s.tick).wbuf = s.wbuf := rfl
@[simp] theorem State.tick_rbuf : (s.tick).rbuf = s.rbuf := rfl
@[simp] theorem State.tick_dump : (s.tick).dump = s.dump := rfl
@[simp] theorem State.tick_recm : (s.tick).recm = s.recm := rfl
@[simp] theorem State.tick_engine : (s.tick).engine = s.engine := rfl
@[simp] theorem State.tick_epoch : (s.tick).epoch = s.epoch := rfl
@[simp] theorem State.tick_draws : (s.tick).draws = s.draws := rfl
@[simp] theorem State.tick_unseen : (s.tick).unseen = s.unseen := rfl
@[simp] theorem State.tick_hostQ : (s.tick).hostQ = (match s.hostQ with | [] => [] | p :: rest => { p with gap := p.gap - 1 } :: rest) := rfl
@[simp] theorem State.tick_txQ : (s.tick).txQ = s.txQ := rfl
@[simp] theorem State.tick_rxQ : (s.tick).rxQ = s.rxQ := rfl
@[simp] theorem State.tick_txSent : (s.tick).txSent = s.txSent := rfl
@[simp] theorem State.tick_busReads : (s.tick).busReads = s.busReads := rfl

/-! ## State.setAcc -/

@[simp] theorem State.setAcc_cfg (v : Byte) : (s.setAcc v).cfg = s.cfg := rfl
@[simp] theorem State.setAcc_cookieEn (v : Byte) : (s.setAcc v).cookieEn = s.cookieEn := rfl
@[simp] theorem State.setAcc_ie (v : Byte) : (s.setAcc v).ie = s.ie := rfl
@[simp] theorem State.setAcc_pie (v : Byte) : (s.setAcc v).pie = s.pie := rfl
@[simp] theorem State.setAcc_done (v : Byte) : (s.setAcc v).done = s.done := rfl
@[simp] theorem State.setAcc_prog (v : Byte) : (s.setAcc v).prog = s.prog := rfl
@[simp] theorem State.setAcc_haz (v : Byte) : (s.setAcc v).haz = s.haz := rfl
@[simp] theorem State.setAcc_err (v : Byte) : (s.setAcc v).err = s.err := rfl
@[simp] theorem State.setAcc_ptr (v : Byte) : (s.setAcc v).ptr = s.ptr := rfl
@[simp] theorem State.setAcc_acc (v : Byte) : (s.setAcc v).acc = v := rfl
@[simp] theorem State.setAcc_lastcs (v : Byte) : (s.setAcc v).lastcs = s.lastcs := rfl
@[simp] theorem State.setAcc_pdone (v : Byte) : (s.setAcc v).pdone = s.pdone := rfl
@[simp] theorem State.setAcc_ptotal (v : Byte) : (s.setAcc v).ptotal = s.ptotal := rfl
@[simp] theorem State.setAcc_reccnt (v : Byte) : (s.setAcc v).reccnt = s.reccnt := rfl
@[simp] theorem State.setAcc_wbuf (v : Byte) : (s.setAcc v).wbuf = s.wbuf := rfl
@[simp] theorem State.setAcc_rbuf (v : Byte) : (s.setAcc v).rbuf = s.rbuf := rfl
@[simp] theorem State.setAcc_dump (v : Byte) : (s.setAcc v).dump = s.dump := rfl
@[simp] theorem State.setAcc_recm (v : Byte) : (s.setAcc v).recm = s.recm := rfl
@[simp] theorem State.setAcc_engine (v : Byte) : (s.setAcc v).engine = s.engine := rfl
@[simp] theorem State.setAcc_epoch (v : Byte) : (s.setAcc v).epoch = s.epoch := rfl
@[simp] theorem State.setAcc_draws (v : Byte) : (s.setAcc v).draws = s.draws := rfl
@[simp] theorem State.setAcc_unseen (v : Byte) : (s.setAcc v).unseen = s.unseen := rfl
@[simp] theorem State.setAcc_hostQ (v : Byte) : (s.setAcc v).hostQ = s.hostQ := rfl
@[simp] theorem State.setAcc_txQ (v : Byte) : (s.setAcc v).txQ = s.txQ := rfl
@[simp] theorem State.setAcc_rxQ (v : Byte) : (s.setAcc v).rxQ = s.rxQ := rfl
@[simp] theorem State.setAcc_txSent (v : Byte) : (s.setAcc v).txSent = s.txSent := rfl
@[simp] theorem State.setAcc_busReads (v : Byte) : (s.setAcc v).busReads = s.busReads := rfl

/-! ## State.dumpWrite -/

@[simp] theorem State.dumpWrite_cfg (a : Nat) (bs : List Byte) : (s.dumpWrite a bs).cfg = s.cfg := rfl
@[simp] theorem State.dumpWrite_cookieEn (a : Nat) (bs : List Byte) : (s.dumpWrite a bs).cookieEn = s.cookieEn := rfl
@[simp] theorem State.dumpWrite_ie (a : Nat) (bs : List Byte) : (s.dumpWrite a bs).ie = s.ie := rfl
@[simp] theorem State.dumpWrite_pie (a : Nat) (bs : List Byte) : (s.dumpWrite a bs).pie = s.pie := rfl
@[simp] theorem State.dumpWrite_done (a : Nat) (bs : List Byte) : (s.dumpWrite a bs).done = s.done := rfl
@[simp] theorem State.dumpWrite_prog (a : Nat) (bs : List Byte) : (s.dumpWrite a bs).prog = s.prog := rfl
@[simp] theorem State.dumpWrite_haz (a : Nat) (bs : List Byte) : (s.dumpWrite a bs).haz = s.haz := rfl
@[simp] theorem State.dumpWrite_err (a : Nat) (bs : List Byte) : (s.dumpWrite a bs).err = s.err := rfl
@[simp] theorem State.dumpWrite_ptr (a : Nat) (bs : List Byte) : (s.dumpWrite a bs).ptr = s.ptr := rfl
@[simp] theorem State.dumpWrite_acc (a : Nat) (bs : List Byte) : (s.dumpWrite a bs).acc = s.acc := rfl
@[simp] theorem State.dumpWrite_lastcs (a : Nat) (bs : List Byte) : (s.dumpWrite a bs).lastcs = s.lastcs := rfl
@[simp] theorem State.dumpWrite_pdone (a : Nat) (bs : List Byte) : (s.dumpWrite a bs).pdone = s.pdone := rfl
@[simp] theorem State.dumpWrite_ptotal (a : Nat) (bs : List Byte) : (s.dumpWrite a bs).ptotal = s.ptotal := rfl
@[simp] theorem State.dumpWrite_reccnt (a : Nat) (bs : List Byte) : (s.dumpWrite a bs).reccnt = s.reccnt := rfl
@[simp] theorem State.dumpWrite_wbuf (a : Nat) (bs : List Byte) : (s.dumpWrite a bs).wbuf = s.wbuf := rfl
@[simp] theorem State.dumpWrite_rbuf (a : Nat) (bs : List Byte) : (s.dumpWrite a bs).rbuf = s.rbuf := rfl
@[simp] theorem State.dumpWrite_dump (a : Nat) (bs : List Byte) : (s.dumpWrite a bs).dump = s.dump.store a bs := rfl
@[simp] theorem State.dumpWrite_recm (a : Nat) (bs : List Byte) : (s.dumpWrite a bs).recm = s.recm := rfl
@[simp] theorem State.dumpWrite_engine (a : Nat) (bs : List Byte) : (s.dumpWrite a bs).engine = s.engine := rfl
@[simp] theorem State.dumpWrite_epoch (a : Nat) (bs : List Byte) : (s.dumpWrite a bs).epoch = s.epoch := rfl
@[simp] theorem State.dumpWrite_draws (a : Nat) (bs : List Byte) : (s.dumpWrite a bs).draws = s.draws := rfl
@[simp] theorem State.dumpWrite_unseen (a : Nat) (bs : List Byte) : (s.dumpWrite a bs).unseen = s.unseen := rfl
@[simp] theorem State.dumpWrite_hostQ (a : Nat) (bs : List Byte) : (s.dumpWrite a bs).hostQ = s.hostQ := rfl
@[simp] theorem State.dumpWrite_txQ (a : Nat) (bs : List Byte) : (s.dumpWrite a bs).txQ = s.txQ := rfl
@[simp] theorem State.dumpWrite_rxQ (a : Nat) (bs : List Byte) : (s.dumpWrite a bs).rxQ = s.rxQ := rfl
@[simp] theorem State.dumpWrite_txSent (a : Nat) (bs : List Byte) : (s.dumpWrite a bs).txSent = s.txSent := rfl
@[simp] theorem State.dumpWrite_busReads (a : Nat) (bs : List Byte) : (s.dumpWrite a bs).busReads = s.busReads := rfl

/-! ## State.recWrite -/

@[simp] theorem State.recWrite_cfg (n : Nat) (e : Entry) : (s.recWrite n e).cfg = s.cfg := rfl
@[simp] theorem State.recWrite_cookieEn (n : Nat) (e : Entry) : (s.recWrite n e).cookieEn = s.cookieEn := rfl
@[simp] theorem State.recWrite_ie (n : Nat) (e : Entry) : (s.recWrite n e).ie = s.ie := rfl
@[simp] theorem State.recWrite_pie (n : Nat) (e : Entry) : (s.recWrite n e).pie = s.pie := rfl
@[simp] theorem State.recWrite_done (n : Nat) (e : Entry) : (s.recWrite n e).done = s.done := rfl
@[simp] theorem State.recWrite_prog (n : Nat) (e : Entry) : (s.recWrite n e).prog = s.prog := rfl
@[simp] theorem State.recWrite_haz (n : Nat) (e : Entry) : (s.recWrite n e).haz = s.haz := rfl
@[simp] theorem State.recWrite_err (n : Nat) (e : Entry) : (s.recWrite n e).err = s.err := rfl
@[simp] theorem State.recWrite_ptr (n : Nat) (e : Entry) : (s.recWrite n e).ptr = s.ptr := rfl
@[simp] theorem State.recWrite_acc (n : Nat) (e : Entry) : (s.recWrite n e).acc = s.acc := rfl
@[simp] theorem State.recWrite_lastcs (n : Nat) (e : Entry) : (s.recWrite n e).lastcs = s.lastcs := rfl
@[simp] theorem State.recWrite_pdone (n : Nat) (e : Entry) : (s.recWrite n e).pdone = s.pdone := rfl
@[simp] theorem State.recWrite_ptotal (n : Nat) (e : Entry) : (s.recWrite n e).ptotal = s.ptotal := rfl
@[simp] theorem State.recWrite_reccnt (n : Nat) (e : Entry) : (s.recWrite n e).reccnt = s.reccnt := rfl
@[simp] theorem State.recWrite_wbuf (n : Nat) (e : Entry) : (s.recWrite n e).wbuf = s.wbuf := rfl
@[simp] theorem State.recWrite_rbuf (n : Nat) (e : Entry) : (s.recWrite n e).rbuf = s.rbuf := rfl
@[simp] theorem State.recWrite_dump (n : Nat) (e : Entry) : (s.recWrite n e).dump = s.dump := rfl
@[simp] theorem State.recWrite_recm (n : Nat) (e : Entry) : (s.recWrite n e).recm = s.recm.store (entryBytes * n) e.bytes := rfl
@[simp] theorem State.recWrite_engine (n : Nat) (e : Entry) : (s.recWrite n e).engine = s.engine := rfl
@[simp] theorem State.recWrite_epoch (n : Nat) (e : Entry) : (s.recWrite n e).epoch = s.epoch := rfl
@[simp] theorem State.recWrite_draws (n : Nat) (e : Entry) : (s.recWrite n e).draws = s.draws := rfl
@[simp] theorem State.recWrite_unseen (n : Nat) (e : Entry) : (s.recWrite n e).unseen = s.unseen := rfl
@[simp] theorem State.recWrite_hostQ (n : Nat) (e : Entry) : (s.recWrite n e).hostQ = s.hostQ := rfl
@[simp] theorem State.recWrite_txQ (n : Nat) (e : Entry) : (s.recWrite n e).txQ = s.txQ := rfl
@[simp] theorem State.recWrite_rxQ (n : Nat) (e : Entry) : (s.recWrite n e).rxQ = s.rxQ := rfl
@[simp] theorem State.recWrite_txSent (n : Nat) (e : Entry) : (s.recWrite n e).txSent = s.txSent := rfl
@[simp] theorem State.recWrite_busReads (n : Nat) (e : Entry) : (s.recWrite n e).busReads = s.busReads := rfl

/-! ## State.returned -/

@[simp] theorem State.returned_cfg (v : Word) : (s.returned v).cfg = s.cfg := rfl
@[simp] theorem State.returned_cookieEn (v : Word) : (s.returned v).cookieEn = s.cookieEn := rfl
@[simp] theorem State.returned_ie (v : Word) : (s.returned v).ie = s.ie := rfl
@[simp] theorem State.returned_pie (v : Word) : (s.returned v).pie = s.pie := rfl
@[simp] theorem State.returned_done (v : Word) : (s.returned v).done = s.done := rfl
@[simp] theorem State.returned_prog (v : Word) : (s.returned v).prog = s.prog := rfl
@[simp] theorem State.returned_haz (v : Word) : (s.returned v).haz = s.haz := rfl
@[simp] theorem State.returned_err (v : Word) : (s.returned v).err = s.err := rfl
@[simp] theorem State.returned_ptr (v : Word) : (s.returned v).ptr = s.ptr := rfl
@[simp] theorem State.returned_acc (v : Word) : (s.returned v).acc = s.acc := rfl
@[simp] theorem State.returned_lastcs (v : Word) : (s.returned v).lastcs = s.lastcs := rfl
@[simp] theorem State.returned_pdone (v : Word) : (s.returned v).pdone = s.pdone := rfl
@[simp] theorem State.returned_ptotal (v : Word) : (s.returned v).ptotal = s.ptotal := rfl
@[simp] theorem State.returned_reccnt (v : Word) : (s.returned v).reccnt = s.reccnt := rfl
@[simp] theorem State.returned_wbuf (v : Word) : (s.returned v).wbuf = s.wbuf := rfl
@[simp] theorem State.returned_rbuf (v : Word) : (s.returned v).rbuf = s.rbuf := rfl
@[simp] theorem State.returned_dump (v : Word) : (s.returned v).dump = s.dump := rfl
@[simp] theorem State.returned_recm (v : Word) : (s.returned v).recm = s.recm := rfl
@[simp] theorem State.returned_engine (v : Word) : (s.returned v).engine = s.engine := rfl
@[simp] theorem State.returned_epoch (v : Word) : (s.returned v).epoch = s.epoch := rfl
@[simp] theorem State.returned_draws (v : Word) : (s.returned v).draws = s.draws := rfl
@[simp] theorem State.returned_unseen (v : Word) : (s.returned v).unseen = s.unseen := rfl
@[simp] theorem State.returned_hostQ (v : Word) : (s.returned v).hostQ = s.hostQ := rfl
@[simp] theorem State.returned_txQ (v : Word) : (s.returned v).txQ = s.txQ := rfl
@[simp] theorem State.returned_rxQ (v : Word) : (s.returned v).rxQ = s.rxQ := rfl
@[simp] theorem State.returned_txSent (v : Word) : (s.returned v).txSent = s.txSent := rfl
@[simp] theorem State.returned_busReads (v : Word) : (s.returned v).busReads = s.busReads ++ [v] := rfl

/-! ## finish, raise and their discards -/

@[simp] theorem State.finish_eq : s.finish = s.complete .none := rfl
@[simp] theorem State.raise_eq (e : Err) : s.raise e = s.complete e := rfl
@[simp] theorem State.raiseLog_eq (e : Err) : s.raiseLog e = s.forgetRec.complete e := rfl
@[simp] theorem State.raiseJob_shortRead (n : Nat) (e : Err) : s.raiseJob (.shortRead n) e = s.clearRbuf.complete e := rfl
@[simp] theorem State.raiseJob_shortWrite (e : Err) : s.raiseJob .shortWrite e = s.complete e := rfl
@[simp] theorem State.raiseJob_pagedRead (w : Window) (page : Nat) (e : Err) :
    s.raiseJob (.pagedRead w page) e = (s.forgetPages w.p0 w.total).complete e := rfl

/-- Nothing to come from the host: a micro-step's tick changes nothing. -/
theorem State.tick_of_hostQ_nil (h : s.hostQ = []) : s.tick = s := by
  unfold State.tick
  cases s
  simp_all

@[simp] theorem State.busy_complete (e : Err) : (s.complete e).busy = false := rfl
@[simp] theorem State.busy_issue (cmd : Option Instr) : (s.issue cmd).busy = true := rfl

theorem State.busy_eq_false_iff : s.busy = false ↔ s.engine = .idle := by
  simp [State.busy]

end Sys2Proof.Machine
end

