-- ==== Sys2Proof/Laws/Engine.lean ====
section
/-! SUPPORT. What no engine move touches, and how micro-steps add up to a run. -/

namespace Sys2Proof.Machine

/-! ## What no engine move touches -/

/-- The parameters, the host's registers and the host's side of the machine are the same. -/
structure State.HostSame (s t : State) : Prop where
  cfg : t.cfg = s.cfg
  cookieEn : t.cookieEn = s.cookieEn
  ie : t.ie = s.ie
  pie : t.pie = s.pie
  haz : t.haz = s.haz
  ptr : t.ptr = s.ptr
  wbuf : t.wbuf = s.wbuf
  draws : t.draws = s.draws
  unseen : t.unseen = s.unseen
  hostQ : t.hostQ = s.hostQ
  busReads : t.busReads = s.busReads

theorem State.HostSame.rfl {s : State} : s.HostSame s := by constructor <;> rfl

theorem State.HostSame.trans {s t u : State} (h : s.HostSame t) (h' : t.HostSame u) : s.HostSame u :=
  ⟨h'.1.trans h.1, h'.2.trans h.2, h'.3.trans h.3, h'.4.trans h.4, h'.5.trans h.5, h'.6.trans h.6, h'.7.trans h.7,
    h'.8.trans h.8, h'.9.trans h.9, h'.10.trans h.10, h'.11.trans h.11⟩

theorem State.emit_hostSame {s u : State} (recn : Nat) (e : Entry) {next : Nat → State → State}
    (hu : s.HostSame u) (h : ∀ n t, s.HostSame t → s.HostSame (next n t)) : s.HostSame (u.emit recn e next) := by
  unfold State.emit
  split
  · exact hu.trans (by constructor <;> rfl)
  · exact h _ _ (hu.trans (by constructor <;> rfl))

theorem State.finishLog_hostSame (n : Nat) {s t : State} (h : s.HostSame t) : s.HostSame (t.finishLog n) :=
  h.trans (by constructor <;> rfl)

theorem State.raiseJob_hostSame (job : Job) (e : Err) (s : State) : s.HostSame (s.raiseJob job e) := by
  cases job <;> constructor <;> rfl

theorem State.nextEff_hostSame (base p sl : Nat) (slot : List Byte) (n : Nat) {s t : State} (h : s.HostSame t) :
    s.HostSame (t.nextEff base p sl slot n) := by
  unfold State.nextEff
  split
  · exact finishLog_hostSame n h
  · exact h.trans (by constructor <;> rfl)

theorem State.nextProf_hostSame (base off o n : Nat) {s t : State} (h : s.HostSame t) :
    s.HostSame (t.nextProf base off o n) := by
  unfold State.nextProf
  split
  · exact finishLog_hostSame n h
  · exact h.trans (by constructor <;> rfl)

theorem State.stepEff_hostSame (base p sl : Nat) (prev : Option (List Byte)) (n : Nat) (s : State) :
    s.HostSame (s.stepEff base p sl prev n) := by
  unfold State.stepEff
  split
  · exact nextEff_hostSame _ _ _ _ _ .rfl
  · split
    · exact emit_hostSame _ _ .rfl fun _ _ h => nextEff_hostSame _ _ _ _ _ h
    · exact nextEff_hostSame _ _ _ _ _ .rfl

theorem State.stepProf_hostSame (base off o n : Nat) (s : State) : s.HostSame (s.stepProf base off o n) :=
  emit_hostSame _ _ .rfl fun _ _ h => nextProf_hostSame _ _ _ _ h

theorem State.perConsume_hostSame (base p g c mask : Nat) (stop : SectionEnd) (bound n : Nat) (s : State) :
    s.HostSame (s.perConsume base p g c mask stop bound n) := by
  unfold State.perConsume
  split
  · constructor <;> rfl
  · exact emit_hostSame _ _ .rfl fun _ _ h => h.trans (by constructor <;> rfl)

theorem State.stepPerRecords_hostSame (base p g c mask : Nat) (stop : SectionEnd) (n : Nat) (s : State) :
    s.HostSame (s.stepPerRecords base p g c mask stop n) := by
  unfold State.stepPerRecords
  repeat' split
  all_goals first
    | exact perConsume_hostSame _ _ _ _ _ _ _ _ _
    | exact finishLog_hostSame _ .rfl
    | (constructor <;> rfl)

theorem State.checkResponse_hostSame (k : Bool) (job : Job) (resp : List Byte) (s : State) :
    s.HostSame (s.checkResponse k job resp) := by
  unfold State.checkResponse State.endWindow
  split
  · cases job with
    | shortRead n => constructor <;> rfl
    | shortWrite => constructor <;> rfl
    | pagedRead w page =>
      dsimp only
      split <;> constructor <;> rfl
  · exact raiseJob_hostSame _ _ _

theorem State.startTransact_hostSame (k : Bool) (job : Job) (frame : List Byte) (n : Nat) (s : State) :
    s.HostSame (s.startTransact k job frame n) := by constructor <;> rfl

theorem State.takeShortRead_hostSame (k : Bool) (addr len cs : Byte) (s : State) :
    s.HostSame (s.takeShortRead k addr len cs) := by
  unfold State.takeShortRead
  split
  · exact startTransact_hostSame _ _ _ _ _
  · exact raiseJob_hostSame _ _ _

theorem State.takeShortWrite_hostSame (k : Bool) (addr len : Byte) (payload : List Byte) (cs : Byte) (s : State) :
    s.HostSame (s.takeShortWrite k addr len payload cs) := by
  unfold State.takeShortWrite
  split
  · exact startTransact_hostSame _ _ _ _ _
  · exact raiseJob_hostSame _ _ _

theorem State.takePagedRead_hostSame (k : Bool) (w : Option Window) (page count cs : Byte) (s : State) :
    s.HostSame (s.takePagedRead k w page count cs) := by
  unfold State.takePagedRead
  split
  · exact startTransact_hostSame _ _ _ _ _
  · exact raiseJob_hostSame _ _ _

theorem State.takeRequest_hostSame (k : Bool) (w : Option Window) (frame : List Byte) (s : State) :
    s.HostSame (s.takeRequest k w frame) := by
  unfold State.takeRequest
  split
  · exact takeShortRead_hostSame _ _ _ _ _
  · exact takeShortWrite_hostSame _ _ _ _ _ _
  · exact takePagedRead_hostSame _ _ _ _ _ _
  · constructor <;> rfl

theorem State.beginCommand_hostSame (k : Bool) (cmd : Option Instr) (s : State) :
    s.HostSame (s.beginCommand k cmd) := by
  unfold State.beginCommand
  split
  case h_5 => unfold State.beginSread; split <;> constructor <;> rfl
  case h_6 => unfold State.beginSwrite; split <;> constructor <;> rfl
  case h_7 => unfold State.beginPread; split <;> constructor <;> rfl
  case h_8 => unfold State.beginLogEff; (repeat' split) <;> constructor <;> rfl
  case h_9 => unfold State.beginLogProf; (repeat' split) <;> constructor <;> rfl
  case h_10 => unfold State.beginLogPer; (repeat' split) <;> constructor <;> rfl
  all_goals constructor <;> rfl

/-- No engine move changes the parameters, CTRL, HAZ, PTR, WBUF, or anything on the host's side. -/
theorem State.move_hostSame {s t : State} (h : s.move = some t) : s.HostSame t := by
  unfold State.move at h
  split at h
  case h_1 => simp at h
  case h_7 =>
    unfold State.stepSending at h
    repeat' split at h
    all_goals first
      | (simp at h; done)
      | (cases h; first | (constructor <;> rfl) | exact State.HostSame.trans (by constructor <;> rfl) (raiseJob_hostSame _ _ _))
  case h_8 =>
    unfold State.stepReceiving at h
    repeat' split at h
    all_goals first
      | (simp at h; done)
      | (cases h; first | exact checkResponse_hostSame _ _ _ _ | (constructor <;> rfl) |
          exact State.HostSame.trans (by constructor <;> rfl) (raiseJob_hostSame _ _ _))
  all_goals
    cases h
    first
      | exact beginCommand_hostSame _ _ _
      | exact takeRequest_hostSame _ _ _ _
      | exact stepEff_hostSame _ _ _ _ _ _
      | exact stepProf_hostSame _ _ _ _ _
      | exact stepPerRecords_hostSame _ _ _ _ _ _ _ _
      | (constructor <;> rfl)

/-- A tick only brings the next host access nearer. -/
theorem State.tick_hostQ_nil {s : State} : s.tick.hostQ = [] ↔ s.hostQ = [] := by
  cases h : s.hostQ <;> simp [State.tick, h]

/-- With no host access to come a micro-step is a move. -/
theorem micro_eq_move {s : State} (h : s.hostQ = []) : micro s = s.move := by
  unfold micro
  cases hm : s.move with
  | none => rfl
  | some t => simp [State.tick_of_hostQ_nil t ((State.move_hostSame hm).hostQ.trans h)]

/-! ## Runs of micro-steps -/

/-- `n` micro-steps, all of which `go` lets and the engine can take. -/
def runN (go : Engine → Bool) : Nat → State → Option State
  | 0, s => some s
  | n + 1, s => if go s.engine then (micro s).bind (runN go n) else none

/-- `n` micro-steps, all of which the engine can take. -/
abbrev microN (n : Nat) (s : State) : Option State := runN (fun _ => true) n s

theorem runN_zero (go : Engine → Bool) (s : State) : runN go 0 s = some s := rfl

theorem runN_succ {go : Engine → Bool} {n : Nat} {s t u : State} (hg : go s.engine = true) (h : micro s = some t)
    (h' : runN go n t = some u) : runN go (n + 1) s = some u := by
  rw [runN, if_pos hg, h]
  exact h'

theorem runN_succ_inv {go : Engine → Bool} {n : Nat} {s u : State} (h : runN go (n + 1) s = some u) :
    go s.engine = true ∧ ∃ t, micro s = some t ∧ runN go n t = some u := by
  rw [runN] at h
  split at h
  · exact ⟨‹_›, Option.bind_eq_some_iff.1 h⟩
  · cases h

theorem runN_add {go : Engine → Bool} {m n : Nat} {s t u : State} (h : runN go m s = some t) (h' : runN go n t = some u) :
    runN go (m + n) s = some u := by
  induction m generalizing s with
  | zero =>
    simp only [runN, Option.some.injEq] at h
    subst h
    simpa using h'
  | succ m ih =>
    obtain ⟨hg, v, hv, hv'⟩ := runN_succ_inv h
    rw [Nat.succ_add]
    exact runN_succ hg hv (ih hv')

theorem microN_succ {n : Nat} {s t u : State} (h : micro s = some t) (h' : microN n t = some u) :
    microN (n + 1) s = some u := runN_succ rfl h h'

theorem microN_add {m n : Nat} {s t u : State} (h : microN m s = some t) (h' : microN n t = some u) :
    microN (m + n) s = some u := runN_add h h'

theorem runN_hostQ_nil {go : Engine → Bool} {n : Nat} {s t : State} (h : runN go n s = some t) (hq : s.hostQ = []) :
    t.hostQ = [] := by
  induction n generalizing s with
  | zero =>
    simp only [runN, Option.some.injEq] at h
    exact h ▸ hq
  | succ n ih =>
    obtain ⟨-, v, hv, hv'⟩ := runN_succ_inv h
    rw [micro_eq_move hq] at hv
    exact ih hv' ((State.move_hostSame hv).hostQ.trans hq)

/-- A run of `n` micro-steps is the first part of a longer drive. -/
theorem drive_of_runN {go : Engine → Bool} {n m : Nat} {s t : State} (h : runN go n s = some t) :
    drive go (n + m) s = drive go m t := by
  induction n generalizing s with
  | zero =>
    simp only [runN, Option.some.injEq] at h
    subst h
    simp
  | succ n ih =>
    obtain ⟨hg, v, hv, hv'⟩ := runN_succ_inv h
    rw [Nat.succ_add, drive]
    simp only [hg, if_true, hv]
    exact ih hv'

/-- Where `go` lets no micro-step be taken a drive ends. -/
theorem drive_of_halt {go : Engine → Bool} {n : Nat} {s : State} (h : go s.engine = false) : drive go n s = s := by
  cases n with
  | zero => rfl
  | succ n =>
    rw [drive]
    simp [h]

/-- An engine that cannot move is where a drive ends. -/
theorem drive_of_stuck {go : Engine → Bool} {n : Nat} {s : State} (h : micro s = none) : drive go n s = s := by
  cases n with
  | zero => rfl
  | succ n =>
    rw [drive]
    simp [h]

theorem micro_of_idle {s : State} (h : s.engine = .idle) : micro s = none := by
  simp [micro, State.move, h]

/-- What a command comes to: the state its micro-steps reach, when they are within the bound. -/
theorem runCommand_eq {cmd : Option Instr} {s t : State} {n : Nat} (hr : s.ready)
    (h : microN n (s.issue cmd) = some t) (ht : micro t = none) (hn : n ≤ microBound) :
    runCommand cmd s = .next t := by
  obtain ⟨he, hq⟩ := hr
  have hb : s.busy = false := (State.busy_eq_false_iff s).2 he
  have hq' : (s.issue cmd).hostQ = [] := hq
  unfold runCommand settle State.budget
  rw [hb, hq']
  simp only [Bool.false_eq_true, if_false]
  rw [show microBound = n + (microBound - n) by omega, drive_of_runN h, drive_of_stuck ht]

theorem micro_issued {k : Bool} {cmd : Option Instr} {s : State} (h : s.engine = .issued k cmd) (hq : s.hostQ = []) :
    micro s = some (s.beginCommand k cmd) := by
  rw [micro_eq_move hq, State.move, h]

theorem micro_ending {w : Option Window} {s : State} (h : s.engine = .ending w) (hq : s.hostQ = []) :
    micro s = some s.finish := by
  rw [micro_eq_move hq, State.move, h]

/-- What a command comes to, from its first move on. -/
theorem runCommand_begun {cmd : Option Instr} {s t : State} {n : Nat} (hr : s.ready)
    (h : microN n ((s.issue cmd).beginCommand s.cookieEn cmd) = some t) (ht : micro t = none) (hn : n + 1 ≤ microBound) :
    runCommand cmd s = .next t :=
  runCommand_eq hr (microN_succ (micro_issued rfl hr.2) h) ht hn

/-- A command that ends with its first move. -/
theorem runCommand_at_once {cmd : Option Instr} {s : State} (hr : s.ready)
    (ht : ((s.issue cmd).beginCommand s.cookieEn cmd).engine = .idle) :
    runCommand cmd s = .next ((s.issue cmd).beginCommand s.cookieEn cmd) :=
  runCommand_begun (n := 0) hr rfl (micro_of_idle ht) (by decide)

/-- A command whose first move leaves only its completion. -/
theorem runCommand_ending {cmd : Option Instr} {s : State} {w : Option Window} (hr : s.ready)
    (ht : ((s.issue cmd).beginCommand s.cookieEn cmd).engine = .ending w) :
    runCommand cmd s = .next ((s.issue cmd).beginCommand s.cookieEn cmd).finish :=
  runCommand_begun (n := 1) hr (microN_succ (micro_ending ht ((State.beginCommand_hostSame _ _ _).hostQ.trans hr.2)) rfl)
    (micro_of_idle rfl) (by decide)

/-- The engine of an IDLE machine written over itself. -/
theorem State.with_idle {s : State} (h : s.engine = .idle) : { s with engine := .idle } = s := by
  cases s
  simp_all

/-- While a command is in flight a command word is dropped with HAZ. -/
theorem runCommand_busy {cmd : Option Instr} {s : State} (h : s.busy = true) : runCommand cmd s = .next s.dropWrite := by
  simp [runCommand, h]

/-- What a staged request comes to: the state its transaction's micro-steps reach, when no host access is to come, they
are within the bound and the transaction ends there. -/
theorem settleRequest_eq {s u t : State} {n : Nat} (hs : s.hostQ = []) (hu : u.hostQ = [])
    (h : runN Engine.inTransaction n u = some t) (ht : micro t = none ∨ t.engine.inTransaction = false)
    (hn : n + 1 ≤ microBound) : settleRequest s u = t := by
  unfold settleRequest State.budget
  rw [hs, State.tick_of_hostQ_nil u hu]
  simp only
  rw [show microBound - 1 = n + (microBound - 1 - n) by omega, drive_of_runN h]
  rcases ht with ht | ht
  · exact drive_of_stuck ht
  · exact drive_of_halt ht

/-- What a request frame comes to when it is the staged request. -/
theorem runRequest_eq {take : Bool → Option Window → State → State} {s t : State} {n : Nat} {k : Bool} {w : Option Window}
    {frame : List Byte} (he : s.engine = .request k w frame) (hq : s.hostQ = []) (hu : (take k w s).hostQ = [])
    (h : runN Engine.inTransaction n (take k w s) = some t) (ht : micro t = none ∨ t.engine.inTransaction = false)
    (hn : n + 1 ≤ microBound) : runRequest take s = .next t := by
  unfold runRequest
  rw [he]
  simp only
  rw [settleRequest_eq hq hu h ht hn]

/-! ## Invariants of a drive -/

/-- What every micro-step keeps, a drive keeps. -/
theorem drive_induct {go : Engine → Bool} {P : State → Prop} (hP : ∀ s t, P s → micro s = some t → P t) :
    ∀ n s, P s → P (drive go n s) := by
  intro n
  induction n with
  | zero => exact fun s h => h
  | succ n ih =>
    intro s h
    rw [drive]
    split
    · split
      · exact ih _ (hP _ _ h ‹_›)
      · exact h
    · exact h

end Sys2Proof.Machine
end

