-- ==== Sys2Proof/Laws/Memory.lean ====
section
/-! SUPPORT. RAM laws: a read after a write, a write elsewhere, forgetting, and the canonical form kept. -/

namespace Sys2Proof.Machine

theorem cellsAt_append (a : Nat) (xs ys : List Byte) :
    cellsAt a (xs ++ ys) = cellsAt a xs ++ cellsAt (a + xs.length) ys := by
  induction xs generalizing a with
  | nil => simp [cellsAt]
  | cons x xs ih => simp [cellsAt, ih, Nat.add_assoc, Nat.add_comm 1]

theorem mem_cellsAt_bounds {a : Nat} {bs : List Byte} {c : Host.Cell} (h : c ∈ cellsAt a bs) :
    a ≤ c.1 ∧ c.1 < a + bs.length := by
  induction bs generalizing a with
  | nil => simp [cellsAt] at h
  | cons b bs ih =>
    simp only [cellsAt, List.mem_cons] at h
    rcases h with rfl | h
    · simp
    · have := ih h
      simp only [List.length_cons]
      omega

theorem cellsAt_pairwise (a : Nat) (bs : List Byte) : (cellsAt a bs).Pairwise (fun c d => c.1 < d.1) := by
  induction bs generalizing a with
  | nil => simp [cellsAt]
  | cons b bs ih =>
    rw [cellsAt, List.pairwise_cons]
    exact ⟨fun c hc => by have := mem_cellsAt_bounds hc; simp only; omega, ih _⟩

/-- A write keeps the canonical form. -/
theorem Memory.wf_store {size : Nat} {m : Memory} {a : Nat} {bs : List Byte} (h : m.wf size) (ha : a + bs.length ≤ size) :
    (m.store a bs).wf size := by
  obtain ⟨hp, hb⟩ := h
  refine ⟨?_, ?_⟩
  · unfold Memory.store
    rw [List.pairwise_append, List.pairwise_append]
    refine ⟨⟨hp.filter _, cellsAt_pairwise a bs, ?_⟩, hp.filter _, ?_⟩
    · intro c hc d hd
      have := mem_cellsAt_bounds hd
      simp only [List.mem_filter, decide_eq_true_eq] at hc
      omega
    · intro c hc d hd
      simp only [List.mem_append, List.mem_filter, decide_eq_true_eq] at hc hd
      rcases hc with hc | hc
      · omega
      · have := mem_cellsAt_bounds hc
        omega
  · intro c hc
    simp only [Memory.store, List.mem_append, List.mem_filter, decide_eq_true_eq] at hc
    rcases hc with (hc | hc) | hc
    · exact hb c hc.1
    · have := mem_cellsAt_bounds hc
      omega
    · exact hb c hc.1

/-- Forgetting keeps the canonical form. -/
theorem Memory.wf_forget {size : Nat} {m : Memory} (lo hi : Nat) (h : m.wf size) : (m.forget lo hi).wf size :=
  ⟨h.1.filter _, fun c hc => h.2 c (List.mem_of_mem_filter hc)⟩

theorem Memory.wf_nil (size : Nat) : Memory.wf size [] := ⟨List.Pairwise.nil, by simp⟩

theorem lookup_eq_none_of_forall_ne {m : Memory} {a : Nat} (h : ∀ c ∈ m, c.1 ≠ a) : m.lookup a = none := by
  induction m with
  | nil => rfl
  | cons c m ih =>
    have hc : (a == c.1) = false := by simpa using fun e => h c (by simp) e.symm
    rw [List.lookup_cons, hc]
    exact ih fun d hd => h d (by simp [hd])

theorem lookup_append (m n : Memory) (a : Nat) : (m ++ n).lookup a = (m.lookup a).or (n.lookup a) := by
  induction m with
  | nil => simp
  | cons c m ih =>
    rw [List.cons_append, List.lookup_cons, List.lookup_cons]
    cases a == c.1 <;> simp [ih]

theorem lookup_filter_of_keep {m : Memory} {a : Nat} {q : Host.Cell → Bool} (h : ∀ b, q (a, b) = true) :
    (m.filter q).lookup a = m.lookup a := by
  induction m with
  | nil => rfl
  | cons c m ih =>
    obtain ⟨k, b⟩ := c
    by_cases hc : a = k
    · subst hc
      rw [List.filter_cons_of_pos (h b), List.lookup_cons_self, List.lookup_cons_self]
    · have hne : (a == k) = false := by simpa using hc
      rw [List.filter_cons]
      split
      · rw [List.lookup_cons, List.lookup_cons, hne]
        exact ih
      · rw [List.lookup_cons, hne]
        exact ih

theorem lookup_cellsAt (a : Nat) (bs : List Byte) (x : Nat) :
    (cellsAt a bs).lookup x = if a ≤ x then bs[x - a]? else none := by
  induction bs generalizing a with
  | nil => simp [cellsAt]
  | cons b bs ih =>
    rw [cellsAt, List.lookup_cons, ih]
    by_cases h1 : x = a
    · subst h1; simp
    · have hne : (x == a) = false := by simpa using h1
      rw [hne]
      by_cases h2 : a + 1 ≤ x
      · have h3 : a ≤ x := by omega
        have h4 : x - a = (x - (a + 1)) + 1 := by omega
        simp [h2, h3, h4]
      · have h3 : ¬ a ≤ x := by omega
        simp [h2, h3]

/-- What a byte reads as after a write: a written byte inside the written range, the old one outside it. -/
theorem Memory.read_store (m : Memory) (a : Nat) (bs : List Byte) (x : Nat) :
    (m.store a bs).read x = if a ≤ x ∧ x < a + bs.length then bs[x - a]? else m.read x := by
  unfold Memory.read Memory.store
  rw [lookup_append, lookup_append, lookup_cellsAt]
  by_cases h1 : x < a
  · have hnot : ¬ (a ≤ x ∧ x < a + bs.length) := by omega
    have hna : ¬ a ≤ x := by omega
    have hhi : (m.filter (fun c => decide (a + bs.length ≤ c.1))).lookup x = none :=
      lookup_eq_none_of_forall_ne fun c hc => by
        simp only [List.mem_filter, decide_eq_true_eq] at hc
        omega
    rw [if_neg hnot, if_neg hna, hhi, lookup_filter_of_keep (by simp [h1])]
    simp
  · have ha : a ≤ x := by omega
    have hlo : (m.filter (fun c => decide (c.1 < a))).lookup x = none :=
      lookup_eq_none_of_forall_ne fun c hc => by
        simp only [List.mem_filter, decide_eq_true_eq] at hc
        omega
    rw [hlo, if_pos ha]
    by_cases h2 : x < a + bs.length
    · have hs : bs[x - a]? = some bs[x - a] := List.getElem?_eq_getElem (by omega)
      rw [if_pos ⟨ha, h2⟩, hs]
      simp
    · have hs : bs[x - a]? = none := List.getElem?_eq_none (by omega)
      rw [if_neg (by omega), hs, lookup_filter_of_keep (by simp; omega)]
      simp

theorem Memory.read_store_outside {m : Memory} {a : Nat} {bs : List Byte} {x : Nat} (h : x < a ∨ a + bs.length ≤ x) :
    (m.store a bs).read x = m.read x := by
  rw [Memory.read_store, if_neg (by omega)]

theorem Memory.read_store_inside {m : Memory} {a : Nat} {bs : List Byte} {x : Nat} (h1 : a ≤ x) (h2 : x < a + bs.length) :
    (m.store a bs).read x = some bs[x - a] := by
  rw [Memory.read_store, if_pos ⟨h1, h2⟩, List.getElem?_eq_getElem]

/-- What a byte reads as after a range is forgotten. -/
theorem Memory.read_forget (m : Memory) (lo hi x : Nat) :
    (m.forget lo hi).read x = if lo ≤ x ∧ x < hi then none else m.read x := by
  unfold Memory.read Memory.forget
  by_cases h : lo ≤ x ∧ x < hi
  · rw [if_pos h]
    refine lookup_eq_none_of_forall_ne fun c hc => ?_
    simp only [List.mem_filter, Bool.or_eq_true, decide_eq_true_eq] at hc
    omega
  · rw [if_neg h]
    exact lookup_filter_of_keep (by simp; omega)

theorem Memory.read_nil (x : Nat) : Memory.read [] x = none := rfl

@[simp] theorem padRaw_length (raw : List Byte) : (padRaw raw).length = rawBytes := by simp [padRaw]

@[simp] theorem leBytes_length (n v : Nat) : (leBytes n v).length = n := by simp [leBytes]

@[simp] theorem Entry.bytes_length (e : Entry) : e.bytes.length = entryBytes := by
  simp [Entry.bytes, rawBytes, entryBytes]

end Sys2Proof.Machine
end

