-- ==== Sys2Proof/Laws/Bus.lean ====
section
/-! SUPPORT. When a host access lands and where it goes, and the little-endian words of the buffers and the windows. -/

namespace Sys2Proof.Machine

/-! ## Whose turn it is -/

theorem engineFirst_of_due {s : State} {op : HostOp} {rest : List Pending} (h : s.due op rest) : s.engineFirst = false := by
  unfold State.due at h
  simp [State.engineFirst, h]

theorem engineFirst_of_idle {s : State} {p : Pending} {rest : List Pending} (h : s.engine = .idle)
    (hq : s.hostQ = p :: rest) : s.engineFirst = false := by
  simp [State.engineFirst, hq, micro_of_idle h]

/-- When the engine does not go first the next host access lands. -/
theorem step_of_not_engineFirst {s : State} {p : Pending} {rest : List Pending} (hq : s.hostQ = p :: rest)
    (h : s.engineFirst = false) : step s = land exec p.op { s with hostQ := rest } := by
  unfold step turn
  rw [hq]
  simp [h]

/-- When the engine goes first it runs. -/
theorem step_of_engineFirst {s : State} (h : s.engineFirst = true) : step s = engineTurn exec s := by
  unfold step turn
  cases hq : s.hostQ <;> simp [h]

/-- With no host access to come the engine runs. -/
theorem step_of_hostQ_nil {s : State} (hq : s.hostQ = []) : step s = engineTurn exec s := by
  unfold step turn
  rw [hq]

/-- A due host access lands. -/
theorem step_of_due {s : State} {op : HostOp} {rest : List Pending} (h : s.due op rest) :
    step s = land exec op { s with hostQ := rest } := step_of_not_engineFirst h (engineFirst_of_due h)

/-! ## Where an access goes (20_memory.md R46) -/

theorem target_reg (r : Reg) : target .w32 r.addr = .reg r := by
  cases r <;> first | rfl | (rename_i k; revert k; decide)

theorem target_unmapped (w : Width) (a : BusAddr) (h : 0x40 ≤ a.toNat) (h' : a.toNat + w.bytes ≤ dumpWindow) :
    target w a = .unmapped := by
  unfold target
  rw [if_neg (by omega), if_pos h']

theorem target_dump (w : Width) (a : BusAddr) (h : dumpWindow ≤ a.toNat) (h' : a.toNat < recWindow)
    (ha : a.toNat % w.bytes = 0) : target w a = .dump (a.toNat - dumpWindow) := by
  unfold target dumpWindow recWindow at *
  rw [if_neg (by omega), if_neg (by cases w <;> simp [Width.bytes] <;> omega), if_neg (by omega), if_pos h']

theorem target_recs (w : Width) (a : BusAddr) (h : recWindow ≤ a.toNat) (ha : a.toNat % w.bytes = 0) :
    target w a = .recs (a.toNat - recWindow) := by
  unfold target dumpWindow recWindow at *
  rw [if_neg (by omega), if_neg (by cases w <;> simp [Width.bytes] <;> omega), if_neg (by omega), if_neg (by omega)]

/-- An access that goes to DUMP stays inside it. -/
theorem target_dump_bound {w : Width} {a : BusAddr} {x : Nat} (h : target w a = .dump x) : x + w.bytes ≤ dumpSize := by
  unfold target at h
  have hb := a.isLt
  repeat' split at h
  all_goals first
    | simp only [reduceCtorEq] at h
    | (injection h with h
       unfold dumpWindow recWindow dumpSize at *
       cases w <;> simp only [Width.bytes] at * <;> omega)

/-! ## What an access does -/

/-- No read stops the machine but a disallowed one, and it changes the model's own record of reads, draw counter and
`unseen` alone. -/
theorem busRead_next {w : Width} {a : BusAddr} {s t : State} (h : s.busRead w a = .next t) :
    ∃ v, t = { s with busReads := s.busReads ++ [v], draws := t.draws, unseen := t.unseen } := by
  unfold State.busRead State.readReg at h
  repeat' split at h
  all_goals first
    | cases h; done
    | (cases h; exact ⟨_, rfl⟩)

/-- While a command is in flight a command word is dropped with HAZ, whichever it is. -/
theorem exec_command_busy {s : State} (h : s.busy = true) (i : Instr) (hi : isCommand i = true) :
    exec i s = .next s.dropWrite := by
  cases i <;> first | (simp [isCommand] at hi; done) | exact runCommand_busy h

/-- An issued command is one whose completion is to be seen. -/
theorem awaitDone_idle {s : State} (h : s.engine = .idle) : s.awaitDone = { s with unseen := true } := by
  unfold State.awaitDone
  rw [if_neg (by rw [(State.busy_eq_false_iff s).2 h]; decide)]

/-- A dropped command word awaits nothing. -/
theorem awaitDone_busy {s : State} (h : s.busy = true) : s.awaitDone = s := if_pos h

/-- A command word decodes to a command. -/
theorem isCommand_of_decode {w : Word} {i : Instr} (h : decodeCommand w = .ok i) : isCommand i = true := by
  unfold decodeCommand decodeOp at h
  repeat' split at h
  all_goals first | (cases h; done) | (cases h; rfl)

/-- An engine that cannot move leaves everything as it is. -/
theorem engineTurn_of_stuck {s : State} (h : micro s = none) : engineTurn exec s = .next s := by
  unfold engineTurn
  split
  · rename_i he
    simp [micro, State.move, he] at h
  · rw [settle, drive_of_stuck h]

/-- A command whose engine cannot move waits until a soft reset ends it (R192, R203). -/
theorem waits_of_stuck {t : State} (hb : t.busy = true) (hq : t.hostQ = []) (hm : micro t = none) :
    t.waits t.softReset := by
  have hd : State.due { t with hostQ := [{ gap := 0, op := .write .w32 0x00000 0x80000000 }] }
      (.write .w32 0x00000 0x80000000) [] := rfl
  refine ⟨hb, by rw [step_of_hostQ_nil hq, engineTurn_of_stuck hm], ?_, rfl, rfl⟩
  rw [step_of_due hd]
  simp only [land, State.busWrite]
  rw [show target .w32 0x00000 = .reg .ctrl from rfl]
  simp only [State.writeReg, State.writeCtrl]
  rw [if_pos (by decide), ← hq]

/-- A soft reset keeps DUMP unless it abandons a paged read (R192). -/
theorem softReset_dump {s : State} (h : ∀ p0 n, s.engine.abandoned ≠ .pages p0 n) : s.softReset.dump = s.dump := by
  unfold State.softReset State.abandon
  split
  · rfl
  · rename_i he
    exact absurd he (h _ _)
  · rfl

/-! ## Words and bytes -/

theorem bufWord_eq (b : Vector Byte 16) (k : Nat) :
    bufWord b k = BitVec.ofNat 32 (leNat [b.toList.getD (4 * k) 0, b.toList.getD (4 * k + 1) 0, b.toList.getD (4 * k + 2) 0,
      b.toList.getD (4 * k + 3) 0]) := rfl

theorem getD_setBufWord (b : Vector Byte 16) (k i : Nat) (v : Word) (hi : i < 16) :
    (setBufWord b k v).toList.getD i 0 = if i / 4 = k then v.extractLsb' (8 * (i % 4)) 8 else b.toList.getD i 0 := by
  simp only [setBufWord, List.getD_eq_getElem?_getD, Vector.getElem?_toList, Vector.getElem?_ofFn, hi, dite_true,
    Option.getD_some]
  split
  · rfl
  · simp [hi]

theorem word_of_bytes (v : Word) :
    BitVec.ofNat 32 (leNat [v.extractLsb' 0 8, v.extractLsb' 8 8, v.extractLsb' 16 8, v.extractLsb' 24 8]) = v := by
  apply BitVec.eq_of_toNat_eq
  simp only [leNat, BitVec.toNat_ofNat, BitVec.extractLsb'_toNat, Nat.shiftRight_eq_div_pow]
  have := v.isLt
  omega

/-- The word written to a buffer is the word read back (R32). -/
theorem bufWord_setBufWord (b : Vector Byte 16) (k : Nat) (v : Word) (hk : k < 4) : bufWord (setBufWord b k v) k = v := by
  rw [bufWord_eq, getD_setBufWord _ _ _ _ (by omega), getD_setBufWord _ _ _ _ (by omega), getD_setBufWord _ _ _ _ (by omega),
    getD_setBufWord _ _ _ _ (by omega), if_pos (by omega), if_pos (by omega), if_pos (by omega), if_pos (by omega)]
  rw [show 4 * k % 4 = 0 by omega, show (4 * k + 1) % 4 = 1 by omega, show (4 * k + 2) % 4 = 2 by omega,
    show (4 * k + 3) % 4 = 3 by omega]
  exact word_of_bytes v

/-- The other words of a buffer stay (R32). -/
theorem bufWord_setBufWord_ne (b : Vector Byte 16) (k j : Nat) (v : Word) (hj : j < 4) (h : j ≠ k) :
    bufWord (setBufWord b k v) j = bufWord b j := by
  rw [bufWord_eq, bufWord_eq, getD_setBufWord _ _ _ _ (by omega), getD_setBufWord _ _ _ _ (by omega),
    getD_setBufWord _ _ _ _ (by omega), getD_setBufWord _ _ _ _ (by omega), if_neg (by omega), if_neg (by omega),
    if_neg (by omega), if_neg (by omega)]

theorem byteOf_toNat (v : Word) (j : Nat) : byteOf v.toNat j = v.extractLsb' (8 * j) 8 := by
  apply BitVec.eq_of_toNat_eq
  simp [byteOf, BitVec.extractLsb'_toNat]

theorem leNat_leBytes (w : Width) (v : Nat) : leNat (leBytes w.bytes v) = v % 2 ^ (8 * w.bytes) := by
  cases w <;> simp [Width.bytes, leBytes, List.range, List.range.loop, leNat, byteOf, Nat.shiftRight_eq_div_pow] <;> omega

/-- The bytes written to DUMP are the bytes read back. -/
theorem dumpBytes_dumpWrite (s : State) (a : Nat) (bs : List Byte) : (s.dumpWrite a bs).dumpBytes a bs.length = bs := by
  apply List.ext_getElem?
  intro j
  by_cases h : j < bs.length
  · simp [State.dumpBytes, State.dumpWrite, State.dumpByte, h, Memory.read_store]
  · simp [State.dumpBytes, h]

end Sys2Proof.Machine
end

