-- ==== Sys2Proof/Laws/Profile.lean ====
section
/-! SUPPORT. The profile ring: its slots numbered from 0, and the slots a walk visits (43_log_profile.md R131 to R140). -/

namespace Sys2Proof.Machine

/-- The offset of the `j`-th slot of the ring, 12 a log block (R131). -/
def profSlot (j : Nat) : Nat := logBlk * (j / 12) + profStride * (j % 12)

/-- The first slot after the wrap: 0, or 1 when the wrap skips the header (R134, R138). -/
def wrapFirst : WrapTo → Nat
  | .slot0 => 0
  | .slot5 => 1

theorem profSlot_first (w : WrapTo) : profSlot (wrapFirst w) = w.offset := by cases w <;> rfl

theorem profSlot_div (j : Nat) : profSlot j / logBlk = j / 12 := by
  have hr : j % 12 < 12 := Nat.mod_lt _ (by decide)
  unfold profSlot logBlk profStride
  generalize j / 12 = q at *
  generalize j % 12 = r at *
  omega

theorem profSlot_mod (j : Nat) : profSlot j % logBlk = profStride * (j % 12) := by
  have hr : j % 12 < 12 := Nat.mod_lt _ (by decide)
  unfold profSlot logBlk profStride
  generalize j / 12 = q at *
  generalize j % 12 = r at *
  omega

theorem profSlot_inj {i j : Nat} (h : profSlot i = profSlot j) : i = j := by
  unfold profSlot logBlk profStride at h
  omega

/-- SlotSet is the slots from the first one on (R131). -/
theorem inSlotSet_iff (c : Config) (o : Nat) :
    inSlotSet c o = true ↔ ∃ j, wrapFirst c.profWrapTo ≤ j ∧ j < profSlots c ∧ o = profSlot j := by
  have key : (o < logBlk * c.profBlocks ∧ o % logBlk % profStride = 0 ∧ o % logBlk ≤ profLast) ↔
      ∃ j, j < profSlots c ∧ o = profSlot j := by
    constructor
    · rintro ⟨h1, h2, h3⟩
      have hq : o / logBlk < c.profBlocks := Nat.div_lt_of_lt_mul h1
      have ho := Nat.div_add_mod o logBlk
      unfold profSlots profSlot logBlk profStride profLast at *
      generalize o / 64 = q at *
      generalize hr : o % 64 = r at *
      refine ⟨12 * q + r / 5, by omega, ?_⟩
      rw [show (12 * q + r / 5) / 12 = q by omega, show (12 * q + r / 5) % 12 = r / 5 by omega]
      omega
    · rintro ⟨j, h1, rfl⟩
      rw [profSlot_mod]
      have hr : j % 12 < 12 := Nat.mod_lt _ (by decide)
      have hj := Nat.div_add_mod j 12
      unfold profSlots profSlot logBlk profStride profLast at *
      generalize j / 12 = q at *
      generalize j % 12 = r at *
      omega
  have h0 : ∀ j, profSlot j = 0 ↔ j = 0 := by
    intro j
    unfold profSlot logBlk profStride
    omega
  unfold inSlotSet profRegion
  simp only [Bool.and_eq_true, decide_eq_true_eq, Bool.not_eq_true', Bool.and_eq_false_iff, decide_eq_false_iff_not,
    beq_eq_false_iff_ne]
  constructor
  · rintro ⟨⟨⟨h1, h2⟩, h3⟩, h4⟩
    obtain ⟨j, hj, rfl⟩ := key.1 ⟨h1, h2, h3⟩
    refine ⟨j, ?_, hj, rfl⟩
    cases hw : c.profWrapTo with
    | slot0 => exact Nat.zero_le _
    | slot5 =>
      rcases h4 with h4 | h4
      · have := mt (h0 j).2 h4
        show 1 ≤ j
        omega
      · exact absurd hw h4
  · rintro ⟨j, hl, hj, rfl⟩
    obtain ⟨h1, h2, h3⟩ := key.2 ⟨j, hj, rfl⟩
    refine ⟨⟨⟨h1, h2⟩, h3⟩, ?_⟩
    cases hw : c.profWrapTo with
    | slot0 => exact .inr (by simp)
    | slot5 =>
      rw [hw] at hl
      refine .inl fun h => ?_
      rw [(h0 j).1 h] at hl
      exact absurd hl (by decide)

/-- The advance of a slot is the next one, or the first after the last (R134). -/
theorem advance_profSlot (c : Config) {j : Nat} (hj : j < profSlots c) :
    advance c (profSlot j) = profSlot (if j + 1 < profSlots c then j + 1 else wrapFirst c.profWrapTo) := by
  have hr : j % 12 < 12 := Nat.mod_lt _ (by decide)
  have hj' := Nat.div_add_mod j 12
  unfold advance
  rw [profSlot_mod, profSlot_div]
  unfold profSlots at *
  by_cases h : profStride * (j % 12) < profLast
  · unfold profStride profLast at h
    rw [if_pos (by unfold profStride profLast; omega), if_pos (by omega)]
    unfold profSlot
    rw [show (j + 1) / 12 = j / 12 by omega, show (j + 1) % 12 = j % 12 + 1 by omega]
    unfold profStride
    omega
  · rw [if_neg h]
    unfold profStride profLast at h
    by_cases h' : j / 12 + 1 < c.profBlocks
    · rw [if_pos h', if_pos (by omega)]
      unfold profSlot
      rw [show (j + 1) / 12 = j / 12 + 1 by omega, show (j + 1) % 12 = 0 by omega]
      rfl
    · rw [if_neg h', if_neg (by omega), profSlot_first]

/-- A walk that does not wrap. -/
theorem visitsTo_forward (c : Config) (k n fuel j : Nat) (hk : k < profSlots c) (hj : j + n = k) (hf : n < fuel) :
    visitsTo c (profSlot k) fuel (profSlot j) = (List.range' j (n + 1)).map profSlot := by
  induction n generalizing j fuel with
  | zero =>
    obtain ⟨fuel, rfl⟩ : ∃ m, fuel = m + 1 := ⟨fuel - 1, by omega⟩
    obtain rfl : j = k := by omega
    rw [visitsTo, if_pos rfl]
    rfl
  | succ n ih =>
    obtain ⟨fuel, rfl⟩ : ∃ m, fuel = m + 1 := ⟨fuel - 1, by omega⟩
    rw [visitsTo, if_neg fun h => by have := profSlot_inj h; omega, advance_profSlot c (by omega), if_pos (by omega),
      ih fuel (j + 1) (by omega) (by omega), List.range'_succ (n := n + 1), List.map_cons]

/-- A walk that wraps: up to the last slot, then from the first one on. -/
theorem visitsTo_wrap (c : Config) (k n fuel j : Nat) (hj : j + n + 1 = profSlots c) (hkj : k < j)
    (hk : wrapFirst c.profWrapTo ≤ k) (hf : n + 1 + (k - wrapFirst c.profWrapTo) < fuel) :
    visitsTo c (profSlot k) fuel (profSlot j) = (List.range' j (n + 1)).map profSlot ++
      (List.range' (wrapFirst c.profWrapTo) (k - wrapFirst c.profWrapTo + 1)).map profSlot := by
  induction n generalizing j fuel with
  | zero =>
    obtain ⟨fuel, rfl⟩ : ∃ m, fuel = m + 1 := ⟨fuel - 1, by omega⟩
    rw [visitsTo, if_neg fun h => by have := profSlot_inj h; omega, advance_profSlot c (by omega), if_neg (by omega),
      visitsTo_forward c k (k - wrapFirst c.profWrapTo) fuel (wrapFirst c.profWrapTo) (by omega) (by omega) (by omega)]
    rfl
  | succ n ih =>
    obtain ⟨fuel, rfl⟩ : ∃ m, fuel = m + 1 := ⟨fuel - 1, by omega⟩
    rw [visitsTo, if_neg fun h => by have := profSlot_inj h; omega, advance_profSlot c (by omega), if_pos (by omega),
      ih fuel (j + 1) (by omega) (by omega) (by omega)]
    rw [List.range'_succ (n := n + 1), List.map_cons, List.cons_append]

/-- The slots a walk to slot `k` visits: from slot 1, or from the slot after `k` once around the ring. -/
theorem profVisits_eq (c : Config) (k : Nat) (full : Bool) (hc : 1 ≤ c.profBlocks) (hl : wrapFirst c.profWrapTo ≤ k)
    (hk : k < profSlots c) :
    profVisits c (profSlot k) full =
      if full then
        if k + 1 < profSlots c then
          (List.range' (k + 1) (profSlots c - (k + 1))).map profSlot ++
            (List.range' (wrapFirst c.profWrapTo) (k - wrapFirst c.profWrapTo + 1)).map profSlot
        else (List.range' (wrapFirst c.profWrapTo) (k - wrapFirst c.profWrapTo + 1)).map profSlot
      else if k = 0 then (List.range' 1 (profSlots c - 1)).map profSlot ++ [profSlot 0]
      else (List.range' 1 k).map profSlot := by
  have hs : 12 ≤ profSlots c := by
    unfold profSlots
    omega
  have hfirst : wrapFirst c.profWrapTo ≤ 1 := by cases c.profWrapTo <;> decide
  unfold profVisits profStart
  cases full with
  | true =>
    simp only [if_true]
    rw [advance_profSlot c hk]
    split
    · rename_i h
      have := visitsTo_wrap c k (profSlots c - (k + 1) - 1) (profSlots c) (k + 1) (by omega) (by omega) hl (by omega)
      rw [show profSlots c - (k + 1) - 1 + 1 = profSlots c - (k + 1) by omega] at this
      exact this
    · exact visitsTo_forward c k (k - wrapFirst c.profWrapTo) (profSlots c) (wrapFirst c.profWrapTo) hk (by omega) (by omega)
  | false =>
    simp only [Bool.false_eq_true, if_false]
    rw [show profFirst = profSlot 1 from rfl]
    split
    · rename_i h
      subst h
      have h0 : wrapFirst c.profWrapTo = 0 := by omega
      have := visitsTo_wrap c 0 (profSlots c - 1 - 1) (profSlots c) 1 (by omega) (by omega) (by omega) (by omega)
      rw [show profSlots c - 1 - 1 + 1 = profSlots c - 1 by omega, h0] at this
      exact this
    · have := visitsTo_forward c k (k - 1) (profSlots c) 1 hk (by omega) (by omega)
      rw [show k - 1 + 1 = k by omega] at this
      exact this

/-- A walk ends at the pointer's offset (R135). -/
theorem profVisits_getLast (c : Config) (off : Nat) (full : Bool) (hc : 1 ≤ c.profBlocks) (h : inSlotSet c off = true) :
    (profVisits c off full).getLast? = some off := by
  obtain ⟨k, hl, hk, rfl⟩ := (inSlotSet_iff c off).1 h
  rw [profVisits_eq c k full hc hl hk]
  have hlast : ∀ a n, a + n = k → ((List.range' a (n + 1)).map profSlot).getLast? = some (profSlot k) := by
    intro a n h
    rw [List.range'_concat, List.map_append, List.map_singleton, List.getLast?_concat]
    simp [h]
  split
  · split
    · rw [List.getLast?_append, hlast (wrapFirst c.profWrapTo) (k - wrapFirst c.profWrapTo) (by omega)]
      rfl
    · exact hlast (wrapFirst c.profWrapTo) (k - wrapFirst c.profWrapTo) (by omega)
  · split
    · rename_i h
      rw [h, List.getLast?_concat]
    · rename_i h
      have := hlast 1 (k - 1) (by omega)
      rw [show k - 1 + 1 = k by omega] at this
      exact this

end Sys2Proof.Machine
end

