-- ==== Sys2Proof/Laws/Transact.lean ====
section
/-! SUPPORT. Checksums and frames, and what a transaction's micro-steps come to when the transport answers. -/

namespace Sys2Proof.Machine

/-! ## The running sum -/

theorem foldl_add_eq (bs : List Byte) (a : Byte) : bs.foldl (· + ·) a = a + byteSum bs := by
  induction bs generalizing a with
  | nil => simp [byteSum]
  | cons b bs ih =>
    rw [byteSum, List.foldl_cons, List.foldl_cons, ih, ih (0 + b), BitVec.add_assoc]
    simp

@[simp] theorem byteSum_nil : byteSum [] = 0 := rfl

theorem byteSum_cons (b : Byte) (bs : List Byte) : byteSum (b :: bs) = b + byteSum bs := by
  rw [byteSum, List.foldl_cons, foldl_add_eq]
  simp

theorem byteSum_append (xs ys : List Byte) : byteSum (xs ++ ys) = byteSum xs + byteSum ys := by
  rw [byteSum, List.foldl_append, foldl_add_eq]
  rfl

theorem frameValid_iff (f : List Byte) : frameValid f = true ↔ byteSum f = 255 := by
  unfold frameValid checksum
  generalize byteSum f = x
  rw [beq_iff_eq]
  constructor
  · intro h
    have := congrArg (255 - ·) h
    simpa using this
  · rintro rfl
    rfl

/-! ## Frames decode to what they were built from -/

theorem decodeFrame_shortRead (addr len cs : Byte) (more : List Byte) :
    decodeFrame (shortReadBytes addr len cs ++ more) = .ok (.wireShortRead addr len cs, more) := rfl

theorem decodeFrame_pagedRead (page count cs : Byte) (more : List Byte) :
    decodeFrame (pagedReadBytes page count cs ++ more) = .ok (.wirePagedRead page count cs, more) := rfl

theorem decodeFrame_shortWrite (addr len : Byte) (payload : List Byte) (cs : Byte) (more : List Byte)
    (h : payload.length = len.toNat) :
    decodeFrame (shortWriteBytes addr len payload cs ++ more) = .ok (.wireShortWrite addr len payload cs, more) := by
  have h1 : ((payload ++ [cs]) ++ more).drop len.toNat = cs :: more := by
    rw [List.append_assoc, ← h]
    simp
  have h2 : ((payload ++ [cs]) ++ more).take len.toNat = payload := by
    rw [List.append_assoc, ← h]
    simp
  show decodeShortWrite addr len ((payload ++ [cs]) ++ more) = _
  rw [decodeShortWrite, h1, h2]

theorem shortReadRequest_eq (addr len : Byte) :
    shortReadRequest addr len = shortReadBytes addr len (checksum [0x81, addr, len]) := rfl

theorem shortWriteRequest_eq (addr len : Byte) (payload : List Byte) :
    shortWriteRequest addr len payload = shortWriteBytes addr len payload (checksum (0x01 :: addr :: len :: payload)) := rfl

theorem pagedReadRequest_eq (page : Byte) :
    pagedReadRequest page = pagedReadBytes page 0x01 (checksum [0xC1, page, 0x01]) := rfl

/-- A staged short read request is taken up as its frame. -/
theorem State.takeRequest_shortRead (k : Bool) (w : Option Window) (addr len cs : Byte) (s : State) :
    s.takeRequest k w (shortReadBytes addr len cs) = s.takeShortRead k addr len cs := by
  unfold State.takeRequest
  rw [show shortReadBytes addr len cs = shortReadBytes addr len cs ++ [] by simp, decodeFrame_shortRead]

/-- A staged short write request is taken up as its frame. -/
theorem State.takeRequest_shortWrite (k : Bool) (w : Option Window) (addr len : Byte) (payload : List Byte) (cs : Byte)
    (s : State) (h : payload.length = len.toNat) :
    s.takeRequest k w (shortWriteBytes addr len payload cs) = s.takeShortWrite k addr len payload cs := by
  unfold State.takeRequest
  rw [show shortWriteBytes addr len payload cs = shortWriteBytes addr len payload cs ++ [] by simp,
    decodeFrame_shortWrite _ _ _ _ _ h]

/-- A staged paged read request is taken up as its frame. -/
theorem State.takeRequest_pagedRead (k : Bool) (w : Option Window) (page count cs : Byte) (s : State) :
    s.takeRequest k w (pagedReadBytes page count cs) = s.takePagedRead k w page count cs := by
  unfold State.takeRequest
  rw [show pagedReadBytes page count cs = pagedReadBytes page count cs ++ [] by simp, decodeFrame_pagedRead]

/-! ## Small facts -/

theorem shortLenOk_iff (b : Byte) : shortLenOk b = true ↔ 1 ≤ b.toNat ∧ b.toNat ≤ 16 := by
  unfold shortLenOk
  exact decide_eq_true_iff

theorem cookieLen_le (k : Bool) : cookieLen k ≤ 1 := by cases k <;> decide

@[simp] theorem cookieBytes_length (k : Bool) : (cookieBytes k).length = cookieLen k := by cases k <;> rfl

@[simp] theorem shortReadRequest_length (a b : Byte) : (shortReadRequest a b).length = 4 := rfl

@[simp] theorem pagedReadRequest_length (p : Byte) : (pagedReadRequest p).length = 4 := rfl

@[simp] theorem shortWriteRequest_length (a b : Byte) (p : List Byte) : (shortWriteRequest a b p).length = p.length + 4 := by
  simp [shortWriteRequest, withChecksum]

/-- The last byte of a request is its checksum byte, with and without the cookie (R93). -/
theorem lastcs_withChecksum (k : Bool) (bs : List Byte) : (cookieBytes k ++ withChecksum bs).getLastD 0 = checksum bs := by
  rw [withChecksum, ← List.append_assoc, List.getLastD_concat]

/-- The answers to two requests one after another. -/
theorem State.answers_append {s : State} {r r' p p' : List Byte} {tq : List TxAnswer} {rq : List RxAnswer}
    (h : s.answers (r ++ r') (p ++ p') tq rq) :
    s.answers r p (List.replicate r'.length .ok ++ tq) (p'.map .byte ++ rq) := by
  obtain ⟨h1, h2⟩ := h
  refine ⟨?_, ?_⟩
  · rw [h1, List.length_append, List.replicate_add, List.append_assoc]
  · rw [h2, List.map_append, List.append_assoc]

/-! ## A transaction whose bytes are all answered

`go` is what a drive asks before each micro-step; it must let a transaction go on. -/

/-- The positions of a transaction. -/
def Engine.transacting : Engine → Bool
  | .clearSum _ _ _ _ => true
  | .sending _ _ _ _ => true
  | .receiving _ _ _ _ => true
  | _ => false

theorem Engine.inTransaction_of_transacting (e : Engine) (h : e.transacting = true) : e.inTransaction = true := by
  cases e <;> simp_all [Engine.transacting, Engine.inTransaction]

/-- `go` lets a transaction go on. -/
abbrev LetsTransact (go : Engine → Bool) : Prop := ∀ e : Engine, e.transacting = true → go e = true

theorem letsTransact_inTransaction : LetsTransact Engine.inTransaction := Engine.inTransaction_of_transacting

theorem letsTransact_true : LetsTransact fun _ => true := fun _ _ => rfl

/-- The bytes `sent` answered `ok`: they are sent, in frame order, and the rest is still to send (R59, R93). -/
theorem runN_sending_prefix {go : Engine → Bool} (hgo : LetsTransact go) (k : Bool) (job : Job) (sent rest : List Byte)
    (n : Nat) (q : List TxAnswer) (s : State) (he : s.engine = .sending k job (sent ++ rest) n)
    (ht : s.txQ = List.replicate sent.length .ok ++ q) (hq : s.hostQ = []) :
    runN go sent.length s =
      some { s with txQ := q, txSent := s.txSent ++ sent, engine := .sending k job rest n } := by
  have hg : go s.engine = true := hgo _ (by rw [he]; rfl)
  induction sent generalizing s with
  | nil =>
    simp only [List.length_nil, List.replicate_zero, List.nil_append] at ht he
    simp only [List.length_nil, runN, List.append_nil, Option.some.injEq]
    cases s
    simp_all
  | cons b sent ih =>
    have hm : micro s = some { s with
        txQ := List.replicate sent.length .ok ++ q
        txSent := s.txSent ++ [b]
        engine := .sending k job (sent ++ rest) n } := by
      rw [micro_eq_move hq, State.move, he]
      simp only [State.stepSending, List.cons_append]
      rw [ht, List.length_cons, List.replicate_succ, List.cons_append]
    have := ih { s with
        txQ := List.replicate sent.length .ok ++ q
        txSent := s.txSent ++ [b]
        engine := .sending k job (sent ++ rest) n } rfl rfl hq (hgo _ rfl)
    rw [List.length_cons, runN_succ hg hm this]
    simp

/-- Every request byte answered `ok`: all are sent, and the response is asked for (R59, R93). -/
theorem runN_sending {go : Engine → Bool} (hgo : LetsTransact go) (k : Bool) (job : Job) (rest : List Byte) (n : Nat)
    (q : List TxAnswer) (s : State) (he : s.engine = .sending k job rest n)
    (ht : s.txQ = List.replicate rest.length .ok ++ q) (hq : s.hostQ = []) :
    runN go (rest.length + 1) s =
      some { s with txQ := q, txSent := s.txSent ++ rest, engine := .receiving k job [] n } :=
  runN_add (runN_sending_prefix hgo k job rest [] n q s (by rw [he, List.append_nil]) ht hq)
    (runN_succ (n := 0) (hgo _ rfl) (by rw [micro_eq_move (by exact hq)]; rfl) rfl)

/-- An abort answered to the byte after `sent`: the command ends with CommunicationError (R93). -/
theorem runN_sending_abort {go : Engine → Bool} (hgo : LetsTransact go) (k : Bool) (job : Job) (sent : List Byte) (c : Byte)
    (rest : List Byte) (n : Nat) (q : List TxAnswer) (s : State) (he : s.engine = .sending k job (sent ++ c :: rest) n)
    (ht : s.txQ = List.replicate sent.length .ok ++ .abort :: q) (hq : s.hostQ = []) :
    runN go (sent.length + 1) s = some (State.raiseJob job .communicationError
      { s with txQ := q, txSent := s.txSent ++ sent, engine := .sending k job (c :: rest) n }) :=
  runN_add (runN_sending_prefix hgo k job sent (c :: rest) n (.abort :: q) s he ht hq)
    (runN_succ (n := 0) (hgo _ rfl) (by rw [micro_eq_move (by exact hq)]; rfl) rfl)

/-- The transport does not answer the byte offered: the engine cannot move (R203). -/
theorem micro_sending_silent {k : Bool} {job : Job} {b : Byte} {rest : List Byte} {n : Nat} {s : State}
    (he : s.engine = .sending k job (b :: rest) n) (ht : s.txQ = []) : micro s = none := by
  simp [micro, State.move, he, State.stepSending, ht]

/-- The transport does not give the byte asked for: the engine cannot move (R203). -/
theorem micro_receiving_silent {k : Bool} {job : Job} {resp : List Byte} {left : Nat} {s : State}
    (he : s.engine = .receiving k job resp (left + 1)) (hr : s.rxQ = []) : micro s = none := by
  simp [micro, State.move, he, State.stepReceiving, hr]

/-- Response bytes answered: they are received and summed, `left` more are still to come (R93). -/
theorem runN_receiving {go : Engine → Bool} (hgo : LetsTransact go) (k : Bool) (job : Job) (bs resp : List Byte)
    (left : Nat) (q : List RxAnswer) (s : State) (he : s.engine = .receiving k job resp (bs.length + left))
    (hr : s.rxQ = bs.map .byte ++ q) (hq : s.hostQ = []) :
    runN go bs.length s =
      some { s with rxQ := q, acc := s.acc + byteSum bs, engine := .receiving k job (resp ++ bs) left } := by
  have hg : go s.engine = true := hgo _ (by rw [he]; rfl)
  induction bs generalizing s resp with
  | nil =>
    simp only [List.map_nil, List.nil_append] at hr
    simp only [List.length_nil, Nat.zero_add] at he
    simp only [List.length_nil, runN, byteSum_nil, List.append_nil, Option.some.injEq]
    cases s
    simp_all
  | cons b bs ih =>
    have hm : micro s = some { s with
        rxQ := bs.map .byte ++ q, acc := s.acc + b, engine := .receiving k job (resp ++ [b]) (bs.length + left) } := by
      rw [micro_eq_move hq, State.move, he, List.length_cons, Nat.add_right_comm]
      simp only [State.stepReceiving]
      rw [hr, List.map_cons, List.cons_append]
    have := ih (resp ++ [b]) { s with
        rxQ := bs.map .byte ++ q, acc := s.acc + b, engine := .receiving k job (resp ++ [b]) (bs.length + left) } rfl rfl hq
        (hgo _ rfl)
    rw [List.length_cons, runN_succ hg hm this]
    simp [byteSum_cons, BitVec.add_assoc]

/-- An abort answered to a request for a response byte ends the command with CommunicationError (R93). -/
theorem micro_receiving_abort {k : Bool} {job : Job} {resp : List Byte} {left : Nat} {q : List RxAnswer} {s : State}
    (he : s.engine = .receiving k job resp (left + 1)) (hr : s.rxQ = .abort :: q) (hq : s.hostQ = []) :
    micro s = some (State.raiseJob job .communicationError { s with rxQ := q }) := by
  rw [micro_eq_move hq, State.move, he]
  simp only [State.stepReceiving]
  rw [hr]
  simp only [he]

/-- The check of a received response is one move. -/
theorem micro_receiving_zero {k : Bool} {job : Job} {resp : List Byte} {s : State}
    (he : s.engine = .receiving k job resp 0) (hq : s.hostQ = []) :
    micro s = some (s.checkResponse k job resp) := by
  rw [micro_eq_move hq, State.move, he]
  rfl

/-- The state a transaction reaches when every byte was answered: the request sent, the response received. -/
def State.answered (s : State) (req resp : List Byte) (tq : List TxAnswer) (rq : List RxAnswer) (e : Engine) : State :=
  { s with
    lastcs := req.getLastD 0, txQ := tq, rxQ := rq, txSent := s.txSent ++ req, acc := byteSum resp, engine := e }

/-- From a request that was taken up to its response's check, every byte answered (R93, R95). -/
theorem runN_startTransact {go : Engine → Bool} (hgo : LetsTransact go) (k : Bool) (job : Job) (frame resp : List Byte)
    (tq : List TxAnswer) (rq : List RxAnswer) (s : State) (hf : frame ≠ [])
    (ha : s.answers (cookieBytes k ++ frame) resp tq rq) (hq : s.hostQ = []) :
    runN go (cookieLen k + frame.length + resp.length + 3) (s.startTransact k job frame resp.length) =
      some (State.checkResponse k job resp
        (s.answered (cookieBytes k ++ frame) resp tq rq (.receiving k job resp 0))) := by
  obtain ⟨ht, hr⟩ := ha
  have hl : (cookieBytes k ++ frame).length = cookieLen k + frame.length := by simp
  have hlast : frame.getLastD 0 = (cookieBytes k ++ frame).getLastD 0 := by
    rw [List.getLastD_eq_getLast?, List.getLastD_eq_getLast?, List.getLast?_append_of_ne_nil _ hf]
  let s1 : State := { s with lastcs := frame.getLastD 0, acc := 0 }
  have h1 : runN go 1 (s.startTransact k job frame resp.length) =
      some { s1 with engine := .sending k job (cookieBytes k ++ frame) resp.length } := by
    refine runN_succ (hgo _ rfl) ?_ rfl
    rw [micro_eq_move (by exact hq)]
    rfl
  have h2 := runN_sending hgo k job (cookieBytes k ++ frame) resp.length tq
    { s1 with engine := .sending k job (cookieBytes k ++ frame) resp.length } rfl ht hq
  have h3 := runN_receiving hgo k job resp [] 0 rq
    { s1 with txQ := tq, txSent := s.txSent ++ (cookieBytes k ++ frame), engine := .receiving k job [] resp.length } rfl hr hq
  have h4 := runN_add (runN_add (runN_add h1 h2) h3)
    (runN_succ (n := 0) (hgo _ rfl) (micro_receiving_zero rfl hq) rfl)
  rw [hl] at h4
  rw [show cookieLen k + frame.length + resp.length + 3 = 1 + (cookieLen k + frame.length + 1) + resp.length + (0 + 1) by
    omega, h4]
  simp only [State.answered, ← hlast]
  simp [s1]

/-! ## The checks of a response -/

theorem State.checkResponse_good {k : Bool} {w : Window} {page : Nat} {resp : List Byte} {s : State}
    (h : goodResponse k devPage resp) : s.checkResponse k (.pagedRead w page) resp = s.endWindow k w page resp := by
  obtain ⟨-, h2, h3⟩ := h
  simp [State.checkResponse, State.responseOk, h2, h3]

theorem State.checkResponse_bad {k : Bool} {job : Job} {resp : List Byte} {s : State}
    (h : (cookieOk k resp && s.responseOk k job resp) = false) :
    s.checkResponse k job resp = s.raiseJob job .badResponse := by
  simp [State.checkResponse, h]

/-! ## The short transactions, from issue on -/

/-- From the issue of a short read to its first byte's offer. -/
theorem microN_beginSread {a b : Byte} {s : State} (hr : s.ready) (h1 : shortMin ≤ b.toNat) (h2 : b.toNat ≤ shortMax) :
    microN 1 ((s.issue (some (.sread a b))).beginCommand s.cookieEn (some (.sread a b))) =
      some ((s.issue (some (.sread a b))).startTransact s.cookieEn (.shortRead b.toNat) (shortReadRequest a b)
        (cookieLen s.cookieEn + b.toNat + 1)) := by
  have hok : shortLenOk b = true := (shortLenOk_iff b).2 ⟨h1, h2⟩
  have e1 : (s.issue (some (.sread a b))).beginCommand s.cookieEn (some (.sread a b)) =
      { s.issue (some (.sread a b)) with engine := .request s.cookieEn none (shortReadRequest a b) } := by
    simp only [State.beginCommand, State.beginSread, hok, if_true]
  rw [e1]
  refine microN_succ ?_ rfl
  rw [micro_eq_move (by exact hr.2)]
  simp only [State.move]
  rw [shortReadRequest_eq, State.takeRequest_shortRead, State.takeShortRead, if_pos hok]
  rfl

/-- From the issue of a short write to its first byte's offer. -/
theorem microN_beginSwrite {a b : Byte} {s : State} (hr : s.ready) (h1 : shortMin ≤ b.toNat) (h2 : b.toNat ≤ shortMax) :
    microN 1 ((s.issue (some (.swrite a b))).beginCommand s.cookieEn (some (.swrite a b))) =
      some ((s.issue (some (.swrite a b))).startTransact s.cookieEn .shortWrite
        (shortWriteRequest a b (s.wbuf.toList.take b.toNat)) (cookieLen s.cookieEn + 1)) := by
  have hok : shortLenOk b = true := (shortLenOk_iff b).2 ⟨h1, h2⟩
  have hp : (s.wbuf.toList.take b.toNat).length = b.toNat := by
    have : b.toNat ≤ 16 := h2
    simp
    omega
  have e1 : (s.issue (some (.swrite a b))).beginCommand s.cookieEn (some (.swrite a b)) =
      { s.issue (some (.swrite a b)) with
        engine := .request s.cookieEn none (shortWriteRequest a b (s.wbuf.toList.take b.toNat)) } := by
    simp only [State.beginCommand, State.beginSwrite, hok, if_true]
    rfl
  rw [e1]
  refine microN_succ ?_ rfl
  rw [micro_eq_move (by exact hr.2)]
  simp only [State.move]
  rw [shortWriteRequest_eq, State.takeRequest_shortWrite _ _ _ _ _ _ _ hp, State.takeShortWrite, if_pos (by simp [hok, hp])]
  rfl

/-- SREAD with every byte answered comes to the check of its response. -/
theorem execSread_answered {a b : Byte} {s : State} {resp : List Byte} {tq : List TxAnswer} {rq : List RxAnswer} {t : State}
    (hr : s.ready) (h1 : shortMin ≤ b.toNat) (h2 : b.toNat ≤ shortMax)
    (ha : s.answers (cookieBytes s.cookieEn ++ shortReadRequest a b) resp tq rq)
    (hl : resp.length = cookieLen s.cookieEn + b.toNat + 1)
    (ht : State.checkResponse s.cookieEn (.shortRead b.toNat) resp
      ((s.issue (some (.sread a b))).answered (cookieBytes s.cookieEn ++ shortReadRequest a b) resp tq rq
        (.receiving s.cookieEn (.shortRead b.toNat) resp 0)) = t)
    (hi : t.engine = .idle) : execSread a b s = .next t := by
  have hb : b.toNat ≤ 16 := h2
  have hc := cookieLen_le s.cookieEn
  have h := runN_startTransact letsTransact_true s.cookieEn (.shortRead b.toNat) (shortReadRequest a b) resp tq rq
    (s.issue (some (.sread a b))) (by simp [shortReadRequest, withChecksum]) ha hr.2
  rw [ht, hl, shortReadRequest_length] at h
  exact runCommand_begun hr (microN_add (microN_beginSread hr h1 h2) h) (micro_of_idle hi) (by unfold microBound; omega)

/-- SWRITE with every byte answered comes to the check of its response. -/
theorem execSwrite_answered {a b : Byte} {s : State} {resp : List Byte} {tq : List TxAnswer} {rq : List RxAnswer} {t : State}
    (hr : s.ready) (h1 : shortMin ≤ b.toNat) (h2 : b.toNat ≤ shortMax)
    (ha : s.answers (cookieBytes s.cookieEn ++ shortWriteRequest a b (s.wbuf.toList.take b.toNat)) resp tq rq)
    (hl : resp.length = cookieLen s.cookieEn + 1)
    (ht : State.checkResponse s.cookieEn .shortWrite resp
      ((s.issue (some (.swrite a b))).answered (cookieBytes s.cookieEn ++ shortWriteRequest a b (s.wbuf.toList.take b.toNat))
        resp tq rq (.receiving s.cookieEn .shortWrite resp 0)) = t)
    (hi : t.engine = .idle) : execSwrite a b s = .next t := by
  have hb : b.toNat ≤ 16 := h2
  have hc := cookieLen_le s.cookieEn
  have hp : (s.wbuf.toList.take b.toNat).length = b.toNat := by
    simp
    omega
  have h := runN_startTransact letsTransact_true s.cookieEn .shortWrite (shortWriteRequest a b (s.wbuf.toList.take b.toNat))
    resp tq rq (s.issue (some (.swrite a b))) (by simp [shortWriteRequest, withChecksum]) ha hr.2
  rw [ht, hl, shortWriteRequest_length, hp] at h
  exact runCommand_begun hr (microN_add (microN_beginSwrite hr h1 h2) h) (micro_of_idle hi) (by unfold microBound; omega)

/-! ## Page windows -/

/-- One window, from PROGRESS to the taking up of its request (R103, R104). -/
theorem microN_windowBegin (k : Bool) (w : Window) (s : State) (he : s.engine = .progress k w) (hq : s.hostQ = [])
    (hp : w.p0 + w.i < 256) :
    microN 3 s = some (State.startTransact k (.pagedRead w (w.p0 + w.i)) (pagedReadRequest (BitVec.ofNat 8 (w.p0 + w.i)))
      (cookieLen k + devPage + 1) { s with pdone := BitVec.ofNat 8 w.i, prog := true }) := by
  let s1 : State := { s with pdone := BitVec.ofNat 8 w.i }
  let s2 : State := { s1 with prog := true }
  let req := pagedReadRequest (BitVec.ofNat 8 (w.p0 + w.i))
  have hpage : (BitVec.ofNat 8 (w.p0 + w.i)).toNat = w.p0 + w.i := by
    simp
    omega
  have m1 : micro s = some { s1 with engine := .progFlag k w } := by
    rw [micro_eq_move hq, State.move, he]
    rfl
  have m2 : micro { s1 with engine := .progFlag k w } = some { s2 with engine := .request k (some w) req } := by
    rw [micro_eq_move (by exact hq)]
    rfl
  have m3 : micro { s2 with engine := .request k (some w) req } =
      some (s2.startTransact k (.pagedRead w (w.p0 + w.i)) req (cookieLen k + devPage + 1)) := by
    rw [micro_eq_move (by exact hq)]
    simp only [State.move, req]
    rw [pagedReadRequest_eq, State.takeRequest_pagedRead, State.takePagedRead, if_pos rfl, windowOf, Option.getD_some,
      hpage]
    rfl
  exact microN_succ m1 (microN_succ m2 (microN_succ (n := 0) m3 rfl))

/-- One window, from PROGRESS to its response's check, every byte answered (R103, R104). -/
theorem microN_window (k : Bool) (w : Window) (resp : List Byte) (tq : List TxAnswer) (rq : List RxAnswer) (s : State)
    (he : s.engine = .progress k w) (hq : s.hostQ = []) (hp : w.p0 + w.i < 256)
    (ha : s.answers (cookieBytes k ++ pagedReadRequest (BitVec.ofNat 8 (w.p0 + w.i))) resp tq rq)
    (hl : resp.length = cookieLen k + devPage + 1) :
    microN (3 + (cookieLen k + 4 + resp.length + 3)) s =
      some (State.checkResponse k (.pagedRead w (w.p0 + w.i)) resp
        (State.answered { s with pdone := BitVec.ofNat 8 w.i, prog := true }
          (cookieBytes k ++ pagedReadRequest (BitVec.ofNat 8 (w.p0 + w.i))) resp tq rq
          (.receiving k (.pagedRead w (w.p0 + w.i)) resp 0))) :=
  microN_add (hl ▸ microN_windowBegin k w s he hq hp) (runN_startTransact letsTransact_true k _
    (pagedReadRequest (BitVec.ofNat 8 (w.p0 + w.i))) resp tq rq { s with pdone := BitVec.ofNat 8 w.i, prog := true }
    (by simp [pagedReadRequest, withChecksum]) ha hq)

/-- The request frames of `n` windows from window `i` on, with their cookies. -/
def requestsFrom (k : Bool) (p0 i n : Nat) : List Byte :=
  (List.range n).flatMap fun j => cookieBytes k ++ pagedReadRequest (BitVec.ofNat 8 (p0 + (i + j)))

theorem pageRequests_eq (k : Bool) (p0 n : Nat) : pageRequests k p0 n = requestsFrom k p0 0 n := by
  simp [pageRequests, requestsFrom]

theorem requestsFrom_cons (k : Bool) (p0 i n : Nat) :
    requestsFrom k p0 i (n + 1) =
      (cookieBytes k ++ pagedReadRequest (BitVec.ofNat 8 (p0 + i))) ++ requestsFrom k p0 (i + 1) n := by
  rw [requestsFrom, List.range_succ_eq_map, List.flatMap_cons, List.flatMap_map]
  congr 1
  simp [requestsFrom, Nat.add_assoc, Nat.add_comm 1]

theorem requestsFrom_snoc (k : Bool) (p0 i n : Nat) :
    requestsFrom k p0 i (n + 1) =
      requestsFrom k p0 i n ++ (cookieBytes k ++ pagedReadRequest (BitVec.ofNat 8 (p0 + (i + n)))) := by
  simp [requestsFrom, List.range_succ, List.flatMap_append]

theorem storePages_append (m : Memory) (p : Nat) (xs ys : List (List Byte)) :
    storePages m p (xs ++ ys) = storePages (storePages m p xs) (p + xs.length) ys := by
  induction xs generalizing m p with
  | nil => rfl
  | cons x xs ih => simp [storePages, ih, Nat.add_assoc, Nat.add_comm 1]

/-- Windows `i`, `i` + 1, ... with good responses and at least one window after them: their requests are sent, their
pages are in DUMP, and the next window is next (R102, R104). -/
theorem microN_windows (k : Bool) (p0 total : Nat) (resps : List (List Byte)) (i : Nat) (tq : List TxAnswer)
    (rq : List RxAnswer) (s : State) (he : s.engine = .progress k ⟨p0, total, i⟩) (hq : s.hostQ = [])
    (ht : p0 + total ≤ 256) (hi : i + resps.length < total) (hg : ∀ resp ∈ resps, goodResponse k devPage resp)
    (ha : s.answers (requestsFrom k p0 i resps.length) resps.flatten tq rq) :
    ∃ n, n ≤ 269 * resps.length ∧ ∃ pdone prog acc lastcs, microN n s = some { s with
      dump := storePages s.dump (p0 + i) (resps.map (pagePayload k))
      pdone := pdone
      prog := prog
      acc := acc
      lastcs := lastcs
      txQ := tq
      rxQ := rq
      txSent := s.txSent ++ requestsFrom k p0 i resps.length
      engine := .progress k ⟨p0, total, i + resps.length⟩ } := by
  induction resps generalizing i s with
  | nil =>
    refine ⟨0, by simp, s.pdone, s.prog, s.acc, s.lastcs, ?_⟩
    obtain ⟨h1, h2⟩ := ha
    cases s
    simp_all [runN, storePages, requestsFrom]
  | cons r rs ih =>
    rw [List.length_cons] at hi
    have hr : goodResponse k devPage r := hg r (by simp)
    rw [List.length_cons, requestsFrom_cons, List.flatten_cons] at ha
    have h1 := microN_window k ⟨p0, total, i⟩ r _ _ s he hq (by simp; omega) (State.answers_append ha) hr.1
    rw [State.checkResponse_good hr] at h1
    simp only [State.endWindow] at h1
    rw [if_pos (by omega)] at h1
    let s1 : State := State.answered { s with pdone := BitVec.ofNat 8 i, prog := true }
      (cookieBytes k ++ pagedReadRequest (BitVec.ofNat 8 (p0 + i))) r
      (List.replicate (requestsFrom k p0 (i + 1) rs.length).length TxAnswer.ok ++ tq) (rs.flatten.map RxAnswer.byte ++ rq)
      (.progress k ⟨p0, total, i + 1⟩)
    obtain ⟨n, hn, pdone, prog, acc, lastcs, h2⟩ := ih (i + 1) (s1.dumpWrite (devPage * (p0 + i)) (pagePayload k r)) rfl
      (by exact hq) (by omega) (fun r h => hg r (by simp [h])) ⟨rfl, rfl⟩
    refine ⟨_, ?_, pdone, prog, acc, lastcs, microN_add h1 (Eq.trans (congrArg _ ?_) (h2.trans ?_))⟩
    · have hc := cookieLen_le k
      rw [hr.1, List.length_cons]
      unfold devPage
      omega
    · rfl
    · rw [List.length_cons, requestsFrom_cons]
      simp [s1, State.answered, State.dumpWrite, storePages, pagePayload, Nat.add_assoc, Nat.add_comm 1]

/-- PREAD from its first move to the first request byte of window `resps.length`, after good responses in the windows
before it (R102 to R104). -/
theorem microN_beginPread_window {a b : Byte} {s : State} {resps : List (List Byte)} {tq : List TxAnswer}
    {rq : List RxAnswer} (hr : s.ready) (hab : a.toNat + b.toNat ≤ 256) (hlt : resps.length < b.toNat)
    (hg : ∀ resp ∈ resps, goodResponse s.cookieEn devPage resp)
    (ha : s.answers (pageRequests s.cookieEn a.toNat resps.length) resps.flatten tq rq) :
    ∃ n, n ≤ 269 * resps.length + 4 ∧
      microN n ((s.issue (some (.pread a b))).beginCommand s.cookieEn (some (.pread a b))) =
        some { s.issue (some (.pread a b)) with
          dump := storePages s.dump a.toNat (resps.map (pagePayload s.cookieEn))
          ptotal := b
          pdone := BitVec.ofNat 8 resps.length
          prog := true
          acc := 0
          lastcs := checksum [0xC1, a + BitVec.ofNat 8 resps.length, 0x01]
          txQ := tq
          rxQ := rq
          txSent := s.txSent ++ pageRequests s.cookieEn a.toNat resps.length
          engine := .sending s.cookieEn (.pagedRead ⟨a.toNat, b.toNat, resps.length⟩ (a.toNat + resps.length))
            (cookieBytes s.cookieEn ++ pagedReadRequest (a + BitVec.ofNat 8 resps.length))
            (cookieLen s.cookieEn + devPage + 1) } := by
  have hbegin : (s.issue (some (.pread a b))).beginCommand s.cookieEn (some (.pread a b)) =
      { s.issue (some (.pread a b)) with ptotal := b, engine := .progress s.cookieEn ⟨a.toNat, b.toNat, 0⟩ } := by
    simp only [State.beginCommand, State.beginPread]
    rw [if_neg (by omega)]
  have hpage : a + BitVec.ofNat 8 resps.length = BitVec.ofNat 8 (a.toNat + resps.length) :=
    BitVec.eq_of_toNat_eq (by simp)
  obtain ⟨n, hn, _, _, _, _, h⟩ := microN_windows s.cookieEn a.toNat b.toNat resps 0 tq rq
    { s.issue (some (.pread a b)) with ptotal := b, engine := .progress s.cookieEn ⟨a.toNat, b.toNat, 0⟩ } rfl hr.2 hab
    (by omega) hg ⟨by rw [← pageRequests_eq]; exact ha.1, ha.2⟩
  rw [hbegin]
  simp only [Nat.add_zero, Nat.zero_add, ← pageRequests_eq] at h
  refine ⟨n + (3 + 1), by omega, microN_add h (microN_add (microN_windowBegin s.cookieEn ⟨a.toNat, b.toNat, resps.length⟩ _
    rfl (by exact hr.2) (by dsimp only; omega)) (microN_succ (n := 0) ((micro_eq_move (by exact hr.2)).trans ?_) rfl))⟩
  rw [hpage]
  rfl

/-- Pages written leave every byte outside them. -/
theorem read_storePages_outside {m : Memory} {p x : Nat} {pages : List (List Byte)} (h : ∀ pg ∈ pages, pg.length ≤ devPage)
    (hx : x < devPage * p ∨ devPage * (p + pages.length) ≤ x) : (storePages m p pages).read x = m.read x := by
  induction pages generalizing m p with
  | nil => rfl
  | cons y ys ih =>
    have hy := h y (by simp)
    unfold devPage at *
    rw [List.length_cons] at hx
    rw [storePages, ih (fun z hz => h z (by simp [hz])) (by omega)]
    exact Memory.read_store_outside (by unfold devPage; omega)

end Sys2Proof.Machine
end

