-- ==== Sys2Proof/Laws/Invariant.lean ====
section
/-! SUPPORT. Which operations of the engine keep the machine's invariant (Safety.lean, `State.Inv`). -/

namespace Sys2Proof.Machine

/-- Everything of the invariant but the engine's position. -/
structure State.Inv0 (s : State) : Prop where
  cfg : s.cfg.wf
  dump : s.dump.wf dumpSize
  recm : s.recm.wf (entryBytes * s.cfg.recCap)
  err : s.err ≠ .connectionError
  reccnt : s.reccnt.toNat ≤ s.cfg.recCap

/-- An invariant state but for the engine's position. -/
theorem State.Inv.base {s : State} (h : s.Inv) : s.Inv0 := ⟨h.1, h.2, h.3, h.4, h.5⟩

theorem State.Inv0.inv {s : State} (h : s.Inv0) (he : s.engineOk) : s.Inv := ⟨h.1, h.2, h.3, h.4, h.5, he⟩

theorem raise_inv {s : State} {e : Err} (h : s.Inv0) (he : e ≠ .connectionError) : (s.raise e).Inv :=
  ⟨h.1, h.2, h.3, he, h.5, trivial⟩

theorem clearRbuf_inv0 {s : State} (h : s.Inv0) : s.clearRbuf.Inv0 := ⟨h.1, h.2, h.3, h.4, h.5⟩

theorem forgetPages_inv0 {s : State} (p n : Nat) (h : s.Inv0) : (s.forgetPages p n).Inv0 :=
  ⟨h.1, Memory.wf_forget _ _ h.2, h.3, h.4, h.5⟩

theorem forgetRec_inv0 {s : State} (h : s.Inv0) : s.forgetRec.Inv0 := ⟨h.1, h.2, Memory.wf_nil _, h.4, h.5⟩

theorem raiseLog_inv {s : State} {e : Err} (h : s.Inv0) (he : e ≠ .connectionError) : (s.raiseLog e).Inv :=
  raise_inv (forgetRec_inv0 h) he

theorem raiseJob_inv {s : State} {j : Job} {e : Err} (h : s.Inv0) (he : e ≠ .connectionError) : (s.raiseJob j e).Inv := by
  cases j with
  | shortRead n => exact raise_inv (clearRbuf_inv0 h) he
  | shortWrite => exact raise_inv h he
  | pagedRead w p => exact raise_inv (forgetPages_inv0 _ _ h) he

/-! ## The end of a command -/

theorem finishLog_inv {s : State} {n : Nat} (h : s.Inv0) (hn : n ≤ s.cfg.recCap) : (s.finishLog n).Inv :=
  ⟨h.1, h.2, h.3, nofun, by
    show (BitVec.ofNat 16 n).toNat ≤ _
    rw [BitVec.toNat_ofNat]
    exact Nat.le_trans (Nat.mod_le _ _) hn, trivial⟩

/-! ## Log walks -/

theorem recWrite_inv0 {s : State} {n : Nat} (e : Entry) (h : s.Inv0) (hn : n < s.cfg.recCap) : (s.recWrite n e).Inv0 :=
  ⟨h.1, h.2, Memory.wf_store h.3 (by
    rw [Entry.bytes_length]
    show entryBytes * n + entryBytes ≤ entryBytes * s.cfg.recCap
    unfold entryBytes
    omega), h.4, h.5⟩

/-- An Emit keeps the invariant when the walk's next position does. -/
theorem emit_inv {s : State} {n : Nat} {e : Entry} {next : Nat → State → State} (h : s.Inv0) (hl : s.logOk n)
    (hnext : ∀ t : State, t.Inv0 → t.cfg = s.cfg → t.logOk (n + 1) → (next (n + 1) t).Inv) : (s.emit n e next).Inv := by
  unfold State.emit
  split
  · exact raiseLog_inv h (by decide)
  · rename_i hne
    have := hl.2
    exact hnext _ (recWrite_inv0 e h (by omega)) rfl ⟨hl.1, by show n + 1 ≤ s.cfg.recCap; omega⟩

theorem with_engine_inv {s : State} {e : Engine} (h : s.Inv0) (he : State.engineOk { s with engine := e }) :
    State.Inv { s with engine := e } := ⟨h.1, h.2, h.3, h.4, h.5, he⟩

theorem nextEff_inv {s : State} {base p sl n : Nat} {slot : List Byte} (h : s.Inv0) (hl : s.logOk n)
    (hb : base + effRegion ≤ dumpSize) (hp : p < effSlots) : (s.nextEff base p sl slot n).Inv := by
  unfold State.nextEff
  split
  · exact finishLog_inv h hl.2
  · exact with_engine_inv h ⟨hb, hp, Nat.mod_lt _ (by decide), hl⟩

theorem stepEff_inv {s : State} {base p sl n : Nat} {prev : Option (List Byte)} (h : s.Inv0) (hl : s.logOk n)
    (hb : base + effRegion ≤ dumpSize) (hp : p < effSlots) : (s.stepEff base p sl prev n).Inv := by
  unfold State.stepEff
  split
  · exact nextEff_inv h hl hb hp
  · split
    · exact emit_inv h hl fun t ht _ hl' => nextEff_inv ht hl' hb hp
    · exact nextEff_inv h hl hb hp

/-- The profile walk stays in SlotSet (43_log_profile.md R140). -/
theorem advance_inSlotSet {c : Config} {o : Nat} (hc : 1 ≤ c.profBlocks) (h : inSlotSet c o = true) :
    inSlotSet c (advance c o) = true := by
  obtain ⟨j, h1, h2, rfl⟩ := (inSlotSet_iff c o).1 h
  rw [advance_profSlot c h2, inSlotSet_iff]
  split
  · exact ⟨_, by omega, by omega, rfl⟩
  · refine ⟨_, Nat.le_refl _, ?_, rfl⟩
    unfold profSlots
    cases c.profWrapTo <;> simp [wrapFirst] <;> omega

theorem first_inSlotSet {c : Config} (hc : 1 ≤ c.profBlocks) : inSlotSet c profFirst = true := by
  rw [inSlotSet_iff]
  refine ⟨1, by cases c.profWrapTo <;> decide, by unfold profSlots; omega, rfl⟩

theorem stepProf_inv {s : State} {base off o n : Nat} (h : s.Inv0) (hl : s.logOk n)
    (hb : base + profRegion s.cfg ≤ dumpSize) (hoff : inSlotSet s.cfg off) (ho : inSlotSet s.cfg o) :
    (s.stepProf base off o n).Inv := by
  refine emit_inv h hl fun t ht hc hl' => ?_
  unfold State.nextProf
  split
  · exact finishLog_inv ht hl'.2
  · refine with_engine_inv ht ⟨?_, ?_, ?_, hl'⟩
    · show base + profRegion t.cfg ≤ dumpSize
      rw [hc]; exact hb
    · show inSlotSet t.cfg off = true
      rw [hc]; exact hoff
    · show inSlotSet t.cfg (advance t.cfg o) = true
      rw [hc]; exact advance_inSlotSet h.1.2.2.1 ho

theorem perConsume_inv {s : State} {base p g c mask n bound : Nat} {stop : SectionEnd} (h : s.Inv0) (hl : s.logOk n)
    (hb : base + perRegion s.cfg ≤ dumpSize) (hp : p < perRegion s.cfg) (hg : g < s.cfg.perPages) :
    (s.perConsume base p g c mask stop bound n).Inv := by
  unfold State.perConsume
  split
  · exact raiseLog_inv h (by decide)
  · refine emit_inv h hl fun t ht hc hl' => with_engine_inv ht ⟨?_, ?_, ?_, hl'⟩
    · show base + perRegion t.cfg ≤ dumpSize
      rw [hc]; exact hb
    · show p < perRegion t.cfg
      rw [hc]; exact hp
    · show g < t.cfg.perPages
      rw [hc]; exact hg

theorem stepPerRecords_inv {s : State} {base p g c mask n : Nat} {stop : SectionEnd} (h : s.Inv0) (hl : s.logOk n)
    (hb : base + perRegion s.cfg ≤ dumpSize) (hp : p < perRegion s.cfg) (hg : g < s.cfg.perPages) :
    (s.stepPerRecords base p g c mask stop n).Inv := by
  unfold State.stepPerRecords
  split
  · split
    · exact finishLog_inv h hl.2
    · exact perConsume_inv h hl hb hp hg
  · split
    · exact perConsume_inv h hl hb hp hg
    · exact with_engine_inv h ⟨hb, hp, Nat.mod_lt _ h.1.2.2.2.2.1, hl⟩

theorem zeroLog {s : State} (h : s.reccnt = 0) : s.logOk 0 := ⟨h, Nat.zero_le _⟩

/-! ## Issue and transactions -/

theorem shortRead_requestOk (a b : Byte) (h : shortLenOk b = true) : requestOk (shortReadRequest a b) :=
  ⟨.wireShortRead a b (checksum [0x81, a, b]), rfl, by simp [Instr.wf, h]⟩

theorem pagedRead_requestOk (p : Byte) : requestOk (pagedReadRequest p) :=
  ⟨.wirePagedRead p 1 (checksum [0xC1, p, 0x01]), rfl, by simp [Instr.wf]⟩

theorem shortWrite_requestOk (a b : Byte) (pl : List Byte) (h : shortLenOk b = true) (hl : pl.length = b.toNat) :
    requestOk (shortWriteRequest a b pl) := by
  refine ⟨.wireShortWrite a b pl (checksum (0x01 :: a :: b :: pl)), ?_, by simp [Instr.wf, h, hl]⟩
  have := decodeFrame_shortWrite a b pl (checksum (0x01 :: a :: b :: pl)) [] hl
  simpa [shortWriteRequest_eq] using this

/-- What an issued command does first keeps the invariant. -/
theorem beginCommand_inv {s : State} {k : Bool} {cmd : Option Instr} (h : s.Inv0) (hc : cmd.any isLog → s.reccnt = 0) :
    (s.beginCommand k cmd).Inv := by
  unfold State.beginCommand
  cases cmd with
  | none => exact raise_inv h (by decide)
  | some i =>
    cases i with
    | nop a b => exact ⟨h.1, h.2, h.3, nofun, h.5, trivial⟩
    | csumClr a b => exact ⟨h.1, h.2, h.3, h.4, h.5, by simp [State.engineOk, State.beginCsumClr]⟩
    | csumAdd a b => exact ⟨h.1, h.2, h.3, h.4, h.5, by simp [State.engineOk, State.beginCsumAdd]⟩
    | sread a b =>
      simp only [State.beginSread]
      split
      · exact with_engine_inv h ⟨by simp, shortRead_requestOk _ _ ‹_›⟩
      · exact raise_inv (clearRbuf_inv0 h) (by decide)
    | swrite a b =>
      simp only [State.beginSwrite]
      split
      · rename_i hb
        refine with_engine_inv h ⟨by simp, shortWrite_requestOk _ _ _ hb ?_⟩
        have := (shortLenOk_iff b).1 hb
        simp
        omega
      · exact raise_inv h (by decide)
    | pread a b =>
      simp only [State.beginPread]
      split
      · exact raise_inv (forgetPages_inv0 _ _ h) (by decide)
      · exact ⟨h.1, h.2, h.3, h.4, h.5, by simp only [State.engineOk, Window.ok]; omega⟩
    | logEff a b =>
      have h0 := hc rfl
      simp only [State.beginLogEff]
      split
      · exact raiseLog_inv h (by decide)
      · split
        · exact raiseLog_inv h (by decide)
        · split
          · exact finishLog_inv h (Nat.zero_le _)
          · refine with_engine_inv h ⟨by omega, by omega, ?_, zeroLog h0⟩
            unfold effStart effSlots
            split <;> omega
    | logProf a b =>
      have h0 := hc rfl
      simp only [State.beginLogProf]
      split
      · exact raiseLog_inv h (by decide)
      · split
        · exact finishLog_inv h (Nat.zero_le _)
        · rename_i hs
          have hs' : inSlotSet s.cfg (profOff s.cfg s.ptr) = true := by simpa using hs
          refine with_engine_inv h ⟨Nat.not_lt.1 ‹_›, hs', ?_, zeroLog h0⟩
          show inSlotSet s.cfg (profStart s.cfg _ _) = true
          unfold profStart
          split
          · exact advance_inSlotSet h.1.2.2.1 hs'
          · exact first_inSlotSet h.1.2.2.1
    | logPer a b =>
      have h0 := hc rfl
      simp only [State.beginLogPer]
      split
      · exact raiseLog_inv h (by decide)
      · split
        · exact raiseLog_inv h (by decide)
        · split
          · exact finishLog_inv h (Nat.zero_le _)
          · rename_i h1 h2 _
            refine with_engine_inv h ⟨Nat.not_lt.1 h1, Nat.not_le.1 h2, ?_, zeroLog h0⟩
            have := h.1.2.2.2.2.1
            have h2' := Nat.not_le.1 h2
            unfold perRegion at h2'
            have hpp : perPtr s.ptr / perPage < s.cfg.perPages := Nat.div_lt_of_lt_mul (by rwa [Nat.mul_comm])
            show perStart s.cfg _ _ < s.cfg.perPages
            unfold perStart
            split
            · exact Nat.mod_lt _ this
            · omega
    | wireShortRead _ _ _ => exact raise_inv h (by decide)
    | wireShortWrite _ _ _ _ => exact raise_inv h (by decide)
    | wirePagedRead _ _ _ => exact raise_inv h (by decide)

theorem startTransact_inv {s : State} {k : Bool} {job : Job} {f : List Byte} {n : Nat} (h : s.Inv0) (hj : job.ok) :
    (s.startTransact k job f n).Inv := ⟨h.1, h.2, h.3, h.4, h.5, hj⟩

theorem takeShortRead_inv {s : State} {k : Bool} {a b c : Byte} (h : s.Inv0) : (s.takeShortRead k a b c).Inv := by
  unfold State.takeShortRead
  split
  · exact startTransact_inv h ((shortLenOk_iff b).1 ‹_›)
  · exact raiseJob_inv h (by decide)

theorem takeShortWrite_inv {s : State} {k : Bool} {a b c : Byte} {p : List Byte} (h : s.Inv0) :
    (s.takeShortWrite k a b p c).Inv := by
  unfold State.takeShortWrite
  split
  · exact startTransact_inv h trivial
  · exact raiseJob_inv h (by decide)

theorem takePagedRead_inv {s : State} {k : Bool} {w : Option Window} {a b c : Byte} (h : s.Inv0) (hw : ∀ v ∈ w, Window.ok v) :
    (s.takePagedRead k w a b c).Inv := by
  unfold State.takePagedRead
  split
  · refine startTransact_inv h ⟨?_, a.isLt⟩
    cases w with
    | none => have := a.isLt; simp [windowOf, Window.ok]; omega
    | some v => exact hw v rfl
  · exact raiseJob_inv h (by decide)

theorem takeRequest_inv {s : State} {k : Bool} {w : Option Window} {f : List Byte} (h : s.Inv0) (hw : ∀ v ∈ w, Window.ok v) :
    (s.takeRequest k w f).Inv := by
  unfold State.takeRequest
  split
  · exact takeShortRead_inv h
  · exact takeShortWrite_inv h
  · exact takePagedRead_inv h hw
  · exact raise_inv h (by decide)

/-- The end of a transaction keeps the invariant. -/
theorem checkResponse_inv {s : State} {k : Bool} {job : Job} {resp : List Byte} (h : s.Inv0) (hj : job.ok) :
    (s.checkResponse k job resp).Inv := by
  unfold State.checkResponse
  split
  · cases job with
    | shortRead n => exact ⟨h.1, h.2, h.3, nofun, h.5, trivial⟩
    | shortWrite => exact ⟨h.1, h.2, h.3, nofun, h.5, trivial⟩
    | pagedRead w page =>
      obtain ⟨hw, hp⟩ := hj
      have hd : (s.dump.store (devPage * page) ((resp.drop (cookieLen k)).take devPage)).wf dumpSize := by
        refine Memory.wf_store h.2 ?_
        have := List.length_take_le devPage (resp.drop (cookieLen k))
        unfold devPage dumpSize at *
        omega
      simp only [State.endWindow]
      split
      · refine ⟨h.1, hd, h.3, h.4, h.5, ?_⟩
        show Window.ok _
        exact ⟨hw.1, by show w.i + 1 < w.total; omega⟩
      · refine ⟨h.1, hd, h.3, h.4, h.5, ?_⟩
        intro v hv
        cases hv
        exact hw
  · exact raiseJob_inv h (by decide)

/-! ## Micro-steps -/

/-- Every move of the engine keeps the invariant. -/
theorem move_inv {s t : State} (h : s.Inv) (hm : s.move = some t) : t.Inv := by
  have h0 := h.base
  have he := h.engine
  unfold State.engineOk at he
  unfold State.move at hm
  split at hm <;> rename_i heq <;> rw [heq] at he <;> simp only at he
  · cases hm
  · cases hm; exact beginCommand_inv h0 he
  · cases hm; exact ⟨h.1, h.2, h.3, h.4, h.5, he⟩
  · cases hm
    exact ⟨h.1, h.2, h.3, h.4, h.5, by
      refine ⟨?_, pagedRead_requestOk _⟩
      intro v hv; cases hv; exact he⟩
  · cases hm; exact takeRequest_inv h0 he.1
  · cases hm; exact ⟨h.1, h.2, h.3, h.4, h.5, he⟩
  · unfold State.stepSending at hm
    split at hm
    · cases hm; exact ⟨h.1, h.2, h.3, h.4, h.5, he⟩
    · split at hm
      · cases hm
      · cases hm; exact ⟨h.1, h.2, h.3, h.4, h.5, he⟩
      · cases hm; exact raiseJob_inv ⟨h.1, h.2, h.3, h.4, h.5⟩ (by decide)
  · unfold State.stepReceiving at hm
    split at hm
    · cases hm; exact checkResponse_inv h0 he
    · split at hm
      · cases hm
      · cases hm; exact ⟨h.1, h.2, h.3, h.4, h.5, he⟩
      · cases hm; exact raiseJob_inv ⟨h.1, h.2, h.3, h.4, h.5⟩ (by decide)
  · cases hm; exact ⟨h.1, h.2, h.3, nofun, h.5, trivial⟩
  · cases hm; exact stepEff_inv h0 he.2.2.2 he.1 he.2.1
  · cases hm; exact stepProf_inv h0 he.2.2.2 he.1 he.2.1 he.2.2.1
  · cases hm; exact ⟨h.1, h.2, h.3, h.4, h.5, he⟩
  · cases hm; exact stepPerRecords_inv h0 he.2.2.2 he.1 he.2.1 he.2.2.1

theorem tick_inv {s : State} (h : s.Inv) : s.tick.Inv := by
  obtain ⟨h1, h2, h3, h4, h5, h6⟩ := h
  exact ⟨h1, h2, h3, h4, h5, h6⟩

theorem micro_inv {s t : State} (h : s.Inv) (hm : micro s = some t) : t.Inv := by
  unfold micro at hm
  obtain ⟨u, hu, rfl⟩ := Option.map_eq_some_iff.1 hm
  exact tick_inv (move_inv h hu)

theorem settle_inv {s : State} (h : s.Inv) : (settle s).Inv := drive_induct (fun _ _ h hm => micro_inv h hm) _ _ h

/-- Issue keeps the invariant. -/
theorem issue_inv {s : State} (c : Option Instr) (h : s.Inv) : (s.issue c).Inv := by
  refine ⟨h.1, h.2, h.3, nofun, ?_, ?_⟩
  · show (if c.any isLog then (0 : BitVec 16) else s.reccnt).toNat ≤ _
    split
    · simp
    · exact h.5
  · intro hc
    show (if c.any isLog then (0 : BitVec 16) else s.reccnt) = 0
    rw [if_pos hc]

/-! ## Host accesses -/

/-- The soft reset keeps the invariant. -/
theorem softReset_inv {s : State} (h : s.Inv) : s.softReset.Inv := by
  have key : s.abandon.Inv0 ∧ s.abandon.cfg = s.cfg := by
    unfold State.abandon
    split
    · exact ⟨h.base, rfl⟩
    · exact ⟨forgetPages_inv0 _ _ h.base, rfl⟩
    · exact ⟨forgetRec_inv0 h.base, rfl⟩
  exact ⟨key.1.1, key.1.2, key.1.3, nofun, by simp [State.softReset, State.clearRegisters, State.resetWith], trivial⟩

/-- The invariant is about the parameters, the RAMs, ERR, RECCNT and the engine alone. -/
theorem inv_congr {s t : State} (h : s.Inv) (h1 : t.cfg = s.cfg) (h2 : t.dump = s.dump) (h3 : t.recm = s.recm)
    (h4 : t.err = s.err) (h5 : t.reccnt = s.reccnt) (h6 : t.engine = s.engine) : t.Inv := by
  have he : t.engineOk := by
    have := h.engine
    unfold State.engineOk State.logOk at *
    simpa only [h1, h5, h6] using this
  exact ⟨h1 ▸ h.1, h2 ▸ h.2, by rw [h1, h3]; exact h.3, h4 ▸ h.4, by rw [h1, h5]; exact h.5, he⟩

theorem guarded_inv {s : State} {f : State → State} (h : s.Inv) (hf : (f s).Inv) : (s.guarded f).Inv := by
  unfold State.guarded
  split
  · exact ⟨h.1, h.2, h.3, h.4, h.5, h.6⟩
  · exact hf

end Sys2Proof.Machine
end

