-- ==== Sys2Proof/Laws/Logs.lean ====
section
/-! SUPPORT. The log walks of the engine, micro-step by micro-step, against the walks of Machine/Reference.lean. -/

namespace Sys2Proof.Machine

/-! ## The end of a walk that has emitted `recn` entries -/

/-- A LOG command's end when the rest of its walk comes to `r` (10_state.md R35, 60_exceptions.md R178). -/
def State.endWalk (recn : Nat) (r : LogRun) (s : State) : State :=
  if s.cfg.recCap < recn + r.entries.length then s.raiseLog .outOfMemory
  else if r.fault = .none then
    State.finishLog (recn + r.entries.length) { s with recm := storeEntries s.recm recn r.entries }
  else s.raiseLog r.fault

theorem State.endWalk_zero (r : LogRun) (s : State) : s.endWalk 0 r = s.commitLog r := by
  simp [State.endWalk, State.commitLog]

/-- Where the engine stands does not matter to the end. -/
theorem State.endWalk_engine (recn : Nat) (r : LogRun) (s : State) (e : Engine) :
    State.endWalk recn r { s with engine := e } = s.endWalk recn r := by
  unfold State.endWalk
  dsimp only
  repeat' split
  all_goals rfl

/-- The next entry of the walk, with room for it. -/
theorem State.endWalk_cons {recn : Nat} {e : Entry} {es : List Entry} {f : Err} {s : State} :
    State.endWalk (recn + 1) ⟨es, f⟩ (s.recWrite recn e) = s.endWalk recn ⟨e :: es, f⟩ := by
  have hn : recn + (e :: es).length = recn + 1 + es.length := by simp only [List.length_cons]; omega
  unfold State.endWalk
  rw [show (s.recWrite recn e).cfg = s.cfg from rfl]
  simp only [hn, storeEntries]
  split
  · rfl
  · split <;> rfl

/-- The next entry of the walk, without room for it. -/
theorem State.endWalk_full {recn : Nat} {e : Entry} {es : List Entry} {f : Err} {s : State} (h : recn = s.cfg.recCap) :
    s.endWalk recn ⟨e :: es, f⟩ = s.raiseLog .outOfMemory := by
  unfold State.endWalk
  rw [if_pos (by simp only [List.length_cons]; omega)]

theorem State.endWalk_nil {recn : Nat} {s : State} (h : recn ≤ s.cfg.recCap) :
    s.endWalk recn ⟨[], .none⟩ = s.finishLog recn := by
  unfold State.endWalk
  rw [if_neg (by simpa using h), if_pos rfl]
  rfl

/-! ## Efficiency log -/

/-- The entries of slots visited one after another after the slot `prev`, `none` before the first (R121, R122). -/
def effEntriesFrom (c : Config) (slotAt : Nat → List Byte) : Option (List Byte) → List Nat → List Entry
  | _, [] => []
  | none, sl :: rest => effEntriesFrom c slotAt (some (slotAt sl)) rest
  | some pv, sl :: rest =>
    (if effValid c (slotAt sl) then [effEntry c sl (slotAt sl) pv] else []) ++
      effEntriesFrom c slotAt (some (slotAt sl)) rest

theorem effEntriesFrom_none (c : Config) (slotAt : Nat → List Byte) (l : List Nat) :
    effEntriesFrom c slotAt none l = effEntries c slotAt l := by
  cases l with
  | nil => rfl
  | cons a l =>
    rw [effEntriesFrom]
    induction l generalizing a with
    | nil => rfl
    | cons b l ih => rw [effEntriesFrom, effEntries, ih]

/-- `l` is the efficiency walk from slot `sl` up to and with slot `p` (R119). -/
def EffWalk (p : Nat) : Nat → List Nat → Prop
  | _, [] => False
  | sl, x :: xs => x = sl ∧ if sl = p then xs = [] else EffWalk p ((sl + 1) % effSlots) xs

theorem effWalk_full_aux (p n j : Nat) (hp : p < effSlots) (hj : j + n + 1 = effSlots) :
    EffWalk p ((p + 1 + j) % effSlots) ((List.range' j (n + 1)).map fun i => (p + 1 + i) % effSlots) := by
  unfold effSlots at *
  induction n generalizing j with
  | zero =>
    simp only [List.range'_succ, List.map_cons, EffWalk, true_and]
    rw [if_pos (by omega)]
    rfl
  | succ n ih =>
    rw [List.range'_succ, List.map_cons, EffWalk]
    refine ⟨rfl, ?_⟩
    rw [if_neg (by omega)]
    have h := ih (j + 1) (by omega)
    rw [show (p + 1 + (j + 1)) % 224 = ((p + 1 + j) % 224 + 1) % 224 by omega] at h
    exact h

theorem effWalk_part_aux (p n j : Nat) (hp : p < effSlots) (hj : j + n = p) :
    EffWalk p j (List.range' j (n + 1)) := by
  unfold effSlots at *
  induction n generalizing j with
  | zero =>
    rw [List.range'_succ, EffWalk]
    refine ⟨rfl, ?_⟩
    rw [if_pos (by omega)]
    rfl
  | succ n ih =>
    rw [List.range'_succ, EffWalk]
    refine ⟨rfl, ?_⟩
    rw [if_neg (by omega)]
    have h := ih (j + 1) (by omega)
    rw [show effSlots = 224 from rfl, show (j + 1) % 224 = j + 1 by omega]
    exact h

/-- The slots of R118 and R119 are the walk from the start slot to the pointer slot. -/
theorem effWalk_visits (p : Nat) (full : Bool) (hp : p < effSlots) (h : full = true ∨ 1 ≤ p) :
    EffWalk p (effStart p full) (effVisits p full) := by
  cases full with
  | true =>
    have := effWalk_full_aux p 223 0 hp rfl
    simpa [effStart, effVisits, List.range_eq_range', effSlots] using this
  | false =>
    have h1 : 1 ≤ p := by simpa using h
    have := effWalk_part_aux p (p - 1) 1 hp (by omega)
    rw [show p - 1 + 1 = p by omega] at this
    have h2 : effVisits p false = List.range' 1 p := by
      simp [effVisits, List.range'_eq_map_range, Nat.add_comm]
    rw [h2]
    exact this

theorem effVisits_length_le (p : Nat) (full : Bool) (hp : p < effSlots) : (effVisits p full).length ≤ effSlots := by
  cases full <;> simp [effVisits]
  omega

/-- The engine's efficiency walk from a slot on comes to the walk's entries, one micro-step a slot. -/
theorem microN_walkEff (base p : Nat) (l : List Nat) (sl : Nat) (prev : Option (List Byte)) (recn : Nat) (s : State)
    (he : s.engine = .walkEff base p sl prev recn) (hq : s.hostQ = []) (hc : recn ≤ s.cfg.recCap) (hw : EffWalk p sl l) :
    ∃ n, n ≤ l.length ∧
      microN n s = some (s.endWalk recn ⟨effEntriesFrom s.cfg (fun sl => s.effSlotAt base sl) prev l, .none⟩) := by
  induction l generalizing sl prev recn s with
  | nil => exact hw.elim
  | cons x xs ih =>
    obtain ⟨rfl, hw⟩ := hw
    have hm : micro s = some (s.stepEff base p x prev recn) := by rw [micro_eq_move hq, State.move, he]
    -- after a visit that leaves `recn'` entries written in `t`
    have visit : ∀ (recn' : Nat) (t : State), t.cfg = s.cfg → t.dump = s.dump → t.epoch = s.epoch → t.hostQ = s.hostQ →
        recn' ≤ s.cfg.recCap → ∃ n, n ≤ xs.length ∧
          microN n (t.nextEff base p x (s.effSlotAt base x) recn') = some (t.endWalk recn'
            ⟨effEntriesFrom s.cfg (fun sl => s.effSlotAt base sl) (some (s.effSlotAt base x)) xs, .none⟩) := by
      intro recn' t h1 h2 h3 h4 h5
      unfold State.nextEff
      split at hw
      · subst hw
        rw [if_pos ‹_›]
        exact ⟨0, by simp, by rw [effEntriesFrom, State.endWalk_nil (h1 ▸ h5)]; rfl⟩
      · rw [if_neg ‹_›]
        obtain ⟨n, hn, h⟩ := ih _ (some (s.effSlotAt base x)) recn'
          { t with engine := .walkEff base p ((x + 1) % effSlots) (some (s.effSlotAt base x)) recn' } rfl (h4.trans hq)
          (h1 ▸ h5) hw
        refine ⟨n, hn, ?_⟩
        rw [h, State.endWalk_engine]
        have hs : ∀ sl, State.effSlotAt base sl { t with
            engine := .walkEff base p ((x + 1) % effSlots) (some (s.effSlotAt base x)) recn' } = s.effSlotAt base sl := by
          intro sl
          simp [State.effSlotAt, State.dumpBytes, State.dumpByte, h2, h3]
        simp only [hs]
        rw [h1]
    cases prev with
    | none =>
      obtain ⟨n, hn, h⟩ := visit recn s rfl rfl rfl rfl hc
      exact ⟨n + 1, by simpa using hn, microN_succ hm (by simpa only [State.stepEff, effEntriesFrom] using h)⟩
    | some pv =>
      by_cases hv : effValid s.cfg (s.effSlotAt base x)
      · by_cases hfull : recn = s.cfg.recCap
        · refine ⟨1, by simp, microN_succ (n := 0) hm ?_⟩
          simp only [State.stepEff, hv, if_true, State.emit, if_pos hfull, effEntriesFrom, List.singleton_append,
            State.endWalk_full hfull]
          rfl
        · obtain ⟨n, hn, h⟩ := visit (recn + 1) (s.recWrite recn (effEntry s.cfg x (s.effSlotAt base x) pv)) rfl rfl rfl rfl
            (by omega)
          refine ⟨n + 1, by simpa using hn, microN_succ hm ?_⟩
          simp only [State.stepEff, hv, if_true, State.emit, if_neg hfull, effEntriesFrom, List.singleton_append]
          rw [h, State.endWalk_cons]
      · obtain ⟨n, hn, h⟩ := visit recn s rfl rfl rfl rfl hc
        refine ⟨n + 1, by simpa using hn, microN_succ hm ?_⟩
        simpa only [State.stepEff, hv, if_false, effEntriesFrom, List.nil_append, Bool.false_eq_true] using h

/-! ## Profile log -/

/-- The engine's profile walk from an offset on, when `fuel` visits reach the pointer's offset. -/
theorem microN_walkProf (base off fuel o recn : Nat) (s : State) (he : s.engine = .walkProf base off o recn)
    (hq : s.hostQ = []) (hc : recn ≤ s.cfg.recCap) (hw : (visitsTo s.cfg off fuel o).getLast? = some off) :
    ∃ n, n ≤ fuel ∧ microN n s = some (s.endWalk recn
      ⟨(visitsTo s.cfg off fuel o).map fun o => profEntry s.cfg o (s.dumpBytes (base + o) profStride), .none⟩) := by
  induction fuel generalizing o recn s with
  | zero => simp [visitsTo] at hw
  | succ fuel ih =>
    have hm : micro s = some (s.stepProf base off o recn) := by rw [micro_eq_move hq, State.move, he]
    rw [visitsTo, List.map_cons]
    by_cases hfull : recn = s.cfg.recCap
    · refine ⟨1, by omega, microN_succ (n := 0) hm ?_⟩
      simp only [State.stepProf, State.emit, if_pos hfull, State.endWalk_full hfull]
      rfl
    · have hstep : s.stepProf base off o recn = State.nextProf base off o (recn + 1)
          (s.recWrite recn (profEntry s.cfg o (s.dumpBytes (base + o) profStride))) := by
        simp only [State.stepProf, State.emit, if_neg hfull]
      rw [← State.endWalk_cons]
      by_cases ho : o = off
      · refine ⟨1, by omega, microN_succ (n := 0) hm ?_⟩
        rw [hstep, if_pos ho, List.map_nil, State.endWalk_nil (by show recn + 1 ≤ s.cfg.recCap; omega), State.nextProf,
          if_pos ho]
        rfl
      · rw [if_neg ho]
        have hlast : (visitsTo s.cfg off fuel (advance s.cfg o)).getLast? = some off := by
          rw [visitsTo, if_neg ho, List.getLast?_cons] at hw
          cases hv : (visitsTo s.cfg off fuel (advance s.cfg o)).getLast? with
          | none => rw [hv] at hw; exact absurd (Option.some.inj hw) ho
          | some y => rw [hv] at hw; simpa using hw
        obtain ⟨n, hn, h⟩ := ih (advance s.cfg o) (recn + 1)
          { s.recWrite recn (profEntry s.cfg o (s.dumpBytes (base + o) profStride)) with
            engine := .walkProf base off (advance s.cfg o) (recn + 1) } rfl hq (by show recn + 1 ≤ s.cfg.recCap; omega) hlast
        refine ⟨n + 1, by omega, microN_succ hm ?_⟩
        rw [hstep, State.nextProf, if_neg ho]
        refine h.trans ?_
        rw [State.endWalk_engine]
        rfl

/-! ## Periodic log -/

/-- Two states whose DUMP reads the same everywhere and whose parameters agree. -/
structure State.SameDump (s t : State) : Prop where
  cfg : t.cfg = s.cfg
  dump : t.dump = s.dump
  epoch : t.epoch = s.epoch

theorem State.SameDump.dumpByte {s t : State} (h : s.SameDump t) (a : Nat) : t.dumpByte a = s.dumpByte a := by
  simp [State.dumpByte, h.dump, h.epoch]

theorem State.SameDump.dumpBytes {s t : State} (h : s.SameDump t) (a n : Nat) : t.dumpBytes a n = s.dumpBytes a n := by
  simp [State.dumpBytes, h.dumpByte]

theorem State.SameDump.sectionRun {s t : State} (h : s.SameDump t) (base g mask : Nat) (stop : SectionEnd) (fuel c : Nat) :
    t.sectionRun base g mask stop fuel c = s.sectionRun base g mask stop fuel c := by
  induction fuel generalizing c with
  | zero => rfl
  | succ fuel ih => simp only [State.sectionRun, ih, h.dumpBytes]

theorem State.SameDump.pageRun {s t : State} (h : s.SameDump t) (base p g : Nat) : t.pageRun base p g = s.pageRun base p g := by
  simp only [State.pageRun, h.sectionRun, State.le16, h.dumpBytes, State.sectionEnd, h.dumpByte, h.cfg]

theorem State.SameDump.pagesRun {s t : State} (h : s.SameDump t) (base p : Nat) (gs : List Nat) :
    t.pagesRun base p gs = s.pagesRun base p gs := by
  induction gs with
  | nil => rfl
  | cons g gs ih => simp only [State.pagesRun, ih, h.pageRun]

theorem storeEntries_append (m : Memory) (n : Nat) (xs ys : List Entry) :
    storeEntries m n (xs ++ ys) = storeEntries (storeEntries m n xs) (n + xs.length) ys := by
  induction xs generalizing m n with
  | nil => rfl
  | cons x xs ih => simp [storeEntries, ih, Nat.add_assoc, Nat.add_comm 1]

/-- A walk that has emitted `xs` and has `ys` to come. -/
theorem State.endWalk_append (recn : Nat) (xs ys : List Entry) (f : Err) (s : State) :
    State.endWalk (recn + xs.length) ⟨ys, f⟩ { s with recm := storeEntries s.recm recn xs } = s.endWalk recn ⟨xs ++ ys, f⟩ := by
  have hn : recn + (xs ++ ys).length = recn + xs.length + ys.length := by
    rw [List.length_append]
    omega
  unfold State.endWalk
  simp only [hn, storeEntries_append]
  split
  · rfl
  · split <;> rfl

/-- The engine's walk of a page's records from a cursor on: out of room, at a record that cannot be consumed whole, or
at the section's end with the section's entries written (R147, R148, R152, R178). -/
theorem microN_perRecords (base p g mask : Nat) (stop : SectionEnd) (fuel c recn : Nat) (s : State)
    (he : s.engine = .perRecords base p g c mask stop recn) (hq : s.hostQ = []) (hc : recn ≤ s.cfg.recCap)
    (hf : stop.bound < c + fuel) (hf0 : 0 < fuel) :
    ∃ n, n ≤ fuel ∧
      ((s.cfg.recCap < recn + (s.sectionRun base g mask stop fuel c).entries.length ∧
          microN n s = some (s.raiseLog .outOfMemory)) ∨
        (recn + (s.sectionRun base g mask stop fuel c).entries.length ≤ s.cfg.recCap ∧
          (s.sectionRun base g mask stop fuel c).fault ≠ .none ∧
          microN n s = some (s.raiseLog (s.sectionRun base g mask stop fuel c).fault)) ∨
        (recn + (s.sectionRun base g mask stop fuel c).entries.length ≤ s.cfg.recCap ∧
          (s.sectionRun base g mask stop fuel c).fault = .none ∧ ∃ c', stop.reached c' = true ∧
          microN n s = some { s with
            recm := storeEntries s.recm recn (s.sectionRun base g mask stop fuel c).entries
            engine := .perRecords base p g c' mask stop
              (recn + (s.sectionRun base g mask stop fuel c).entries.length) })) := by
  induction fuel generalizing c recn s with
  | zero => omega
  | succ fuel ih =>
    rw [State.sectionRun]
    by_cases hr : stop.reached c = true
    · rw [if_pos hr]
      refine ⟨0, by omega, .inr (.inr ⟨by simpa using hc, rfl, c, hr, ?_⟩)⟩
      cases s
      simp_all [runN, storeEntries]
    · rw [if_neg hr]
      have hm : micro s = some (s.perConsume base p g c mask stop stop.bound recn) := by
        rw [micro_eq_move hq, State.move, he]
        cases stop with
        | pointer pr => exact congrArg some (if_neg (by simpa [SectionEnd.reached] using hr))
        | length l => exact congrArg some (if_pos (by simpa [SectionEnd.reached] using hr))
      by_cases hw : recordWidth mask = 0 ∨ stop.bound < c + recordWidth mask
      · rw [if_pos hw]
        refine ⟨1, by omega, .inr (.inl ⟨by simpa using hc, by simp, microN_succ (n := 0) hm ?_⟩)⟩
        rw [State.perConsume, if_pos hw]
        rfl
      · rw [if_neg hw]
        simp only [not_or, Nat.not_lt] at hw
        simp only [List.length_cons]
        by_cases hfull : recn = s.cfg.recCap
        · refine ⟨1, by omega, .inl ⟨by omega, microN_succ (n := 0) hm ?_⟩⟩
          rw [State.perConsume, if_neg (by omega), State.emit, if_pos hfull]
          rfl
        · let e := perEntry g c mask (s.dumpBytes (base + g * perPage + c) (recordWidth mask))
          let t : State := { s.recWrite recn e with
            engine := .perRecords base p g (c + recordWidth mask) mask stop (recn + 1) }
          have hstep : s.perConsume base p g c mask stop stop.bound recn = t := by
            rw [State.perConsume, if_neg (by omega), State.emit, if_neg hfull]
          have hsame : s.SameDump t := ⟨rfl, rfl, rfl⟩
          obtain ⟨n, hn, h⟩ := ih (c + recordWidth mask) (recn + 1) t rfl hq (by show recn + 1 ≤ s.cfg.recCap; omega)
            (by omega) (by omega)
          rw [hsame.sectionRun, show t.cfg = s.cfg from rfl] at h
          refine ⟨n + 1, by omega, ?_⟩
          rw [show recn + ((s.sectionRun base g mask stop fuel (c + recordWidth mask)).entries.length + 1) =
            recn + 1 + (s.sectionRun base g mask stop fuel (c + recordWidth mask)).entries.length by omega]
          rw [hstep] at hm
          rcases h with ⟨h1, h2⟩ | ⟨h1, h2, h3⟩ | ⟨h1, h2, c', h3, h4⟩
          · exact .inl ⟨h1, microN_succ hm h2⟩
          · exact .inr (.inl ⟨h1, h2, microN_succ hm h3⟩)
          · exact .inr (.inr ⟨h1, h2, c', h3, microN_succ hm h4⟩)

/-- `l` is the periodic walk from page `g` up to and with the pointer's page `pp` (R149, R150). -/
def PageWalk (np pp : Nat) : Nat → List Nat → Prop
  | _, [] => False
  | g, x :: xs => x = g ∧ if g = pp then xs = [] else PageWalk np pp ((g + 1) % np) xs

theorem SectionEnd.bound_lt {s : State} {base p g : Nat} : (s.sectionEnd base p g).bound < perPage := by
  unfold State.sectionEnd
  split
  · exact Nat.mod_lt _ (by decide)
  · exact BitVec.isLt _

/-- The engine's periodic walk from a page on comes to the sections' entries. -/
theorem microN_perPages (base p : Nat) (gs : List Nat) (g recn : Nat) (s : State) (he : s.engine = .perPage base p g recn)
    (hq : s.hostQ = []) (hc : recn ≤ s.cfg.recCap) (hw : PageWalk s.cfg.perPages (p / perPage) g gs) :
    ∃ n, n ≤ 258 * gs.length ∧ microN n s = some (s.endWalk recn (s.pagesRun base p gs)) := by
  induction gs generalizing g recn s with
  | nil => exact hw.elim
  | cons x xs ih =>
    obtain ⟨rfl, hw⟩ := hw
    let mask := s.le16 (base + x * perPage + s.cfg.perMaskOff.val)
    let stop := s.sectionEnd base p x
    let t : State := { s with engine := .perRecords base p x (perFirst s.cfg) mask stop recn }
    have hm : micro s = some t := by
      rw [micro_eq_move hq, State.move, he]
      rfl
    have hsame : s.SameDump t := ⟨rfl, rfl, rfl⟩
    obtain ⟨n, hn, h⟩ := microN_perRecords base p x mask stop perPage (perFirst s.cfg) recn t rfl hq hc
      (Nat.lt_of_lt_of_le SectionEnd.bound_lt (Nat.le_add_left _ _)) (by decide)
    rw [hsame.sectionRun, show t.cfg = s.cfg from rfl] at h
    have hrun : s.sectionRun base x mask stop perPage (perFirst s.cfg) = s.pageRun base p x := rfl
    rw [hrun] at h
    have hb : n + 2 ≤ 258 := by unfold perPage at hn; omega
    rw [State.pagesRun, List.length_cons]
    rcases h with ⟨h1, h2⟩ | ⟨h1, h2, h3⟩ | ⟨h1, h2, c', h3, h4⟩
    · refine ⟨n + 1, by omega, microN_succ hm (h2.trans ?_)⟩
      split
      · rw [State.endWalk, if_pos (by simp only [List.length_append]; omega)]
        rfl
      · rw [State.endWalk, if_pos h1]
        rfl
    · refine ⟨n + 1, by omega, microN_succ hm (h3.trans ?_)⟩
      rw [if_neg h2, State.endWalk, if_neg (by omega), if_neg h2]
      rfl
    · rw [if_pos h2]
      let u : State := { t with
        recm := storeEntries t.recm recn (s.pageRun base p x).entries
        engine := .perRecords base p x c' mask stop (recn + (s.pageRun base p x).entries.length) }
      have hmu : micro u = some (u.stepPerRecords base p x c' mask stop (recn + (s.pageRun base p x).entries.length)) :=
        micro_eq_move (by exact hq)
      by_cases hx : x = p / perPage
      · rw [if_pos hx] at hw
        subst hw
        refine ⟨n + 2, by omega, microN_succ hm (microN_add h4 (microN_succ (n := 0) hmu ?_))⟩
        have hstop : stop = .pointer (p % perPage) := by simp only [stop, State.sectionEnd, if_pos hx]
        have hreach : c' = p % perPage := by simpa [hstop, SectionEnd.reached] using h3
        rw [hstop]
        simp only [State.stepPerRecords, if_pos hreach, State.pagesRun, List.append_nil]
        rw [State.endWalk, if_neg (Nat.not_lt.2 h1), if_pos rfl]
        rfl
      · rw [if_neg hx] at hw
        obtain ⟨l, hstop⟩ : ∃ l, stop = .length l := by
          simp only [stop, State.sectionEnd, if_neg hx]
          exact ⟨_, rfl⟩
        have hreach : ¬ c' < l := by simpa [hstop, SectionEnd.reached] using h3
        let v : State := { u with
          engine := .perPage base p ((x + 1) % s.cfg.perPages) (recn + (s.pageRun base p x).entries.length) }
        have hstep : u.stepPerRecords base p x c' mask stop (recn + (s.pageRun base p x).entries.length) = v := by
          rw [hstop]
          simp only [State.stepPerRecords, if_neg hreach]
          rfl
        obtain ⟨m, hm', h⟩ := ih _ _ v rfl hq h1 hw
        have hsv : s.SameDump v := ⟨rfl, rfl, rfl⟩
        rw [hsv.pagesRun] at h
        refine ⟨n + (m + 1) + 1, by omega, microN_succ hm (microN_add h4 (microN_succ (hmu.trans (by rw [hstep])) ?_))⟩
        rw [h, ← State.endWalk_append, ← State.endWalk_engine _ _ _ v.engine]
        rfl

theorem pageWalk_full_aux (np pp n j : Nat) (hp : pp < np) (hj : j + n + 1 = np) :
    PageWalk np pp ((pp + 1 + j) % np) ((List.range' j (n + 1)).map fun i => (pp + 1 + i) % np) := by
  induction n generalizing j with
  | zero =>
    simp only [List.range'_succ, List.map_cons, PageWalk, true_and]
    rw [if_pos]
    · rfl
    · rw [show pp + 1 + j = pp + np by omega, Nat.add_mod_right, Nat.mod_eq_of_lt hp]
  | succ n ih =>
    rw [List.range'_succ, List.map_cons, PageWalk]
    refine ⟨rfl, ?_⟩
    rw [if_neg]
    · have h := ih (j + 1) (by omega)
      rw [show (pp + 1 + (j + 1)) % np = ((pp + 1 + j) % np + 1) % np by simp [Nat.add_assoc]] at h
      exact h
    · intro h
      by_cases hlt : pp + 1 + j < np
      · rw [Nat.mod_eq_of_lt hlt] at h
        omega
      · have : (pp + 1 + j) % np = pp + 1 + j - np := by
          rw [Nat.mod_eq_sub_mod (by omega), Nat.mod_eq_of_lt (by omega)]
        omega

theorem pageWalk_part_aux (np pp n j : Nat) (hp : pp < np) (hj : j + n = pp) : PageWalk np pp j (List.range' j (n + 1)) := by
  induction n generalizing j with
  | zero =>
    rw [List.range'_succ, PageWalk]
    refine ⟨rfl, ?_⟩
    rw [if_pos (by omega)]
    rfl
  | succ n ih =>
    rw [List.range'_succ, PageWalk]
    refine ⟨rfl, ?_⟩
    rw [if_neg (by omega), Nat.mod_eq_of_lt (by omega)]
    exact ih (j + 1) (by omega)

/-- The pages of R145 and R149 are the walk from the starting page to the pointer's page. -/
theorem pageWalk_visits (c : Config) (pp : Nat) (full : Bool) (hp : pp < c.perPages) :
    PageWalk c.perPages pp (perStart c pp full) (perVisits c pp full) := by
  cases full with
  | true =>
    have := pageWalk_full_aux c.perPages pp (c.perPages - 1) 0 hp (by omega)
    rw [show c.perPages - 1 + 1 = c.perPages by omega] at this
    simpa [perStart, perVisits, List.range_eq_range'] using this
  | false =>
    have := pageWalk_part_aux c.perPages pp pp 0 hp (by omega)
    simpa [perStart, perVisits, List.range_eq_range'] using this

theorem perVisits_length_le (c : Config) (pp : Nat) (full : Bool) (hp : pp < c.perPages) :
    (perVisits c pp full).length ≤ c.perPages := by
  cases full <;> simp [perVisits]
  omega

end Sys2Proof.Machine
end

