-- ==== Sys2Proof/Laws/PerInstr.lean ====
section
/-! SUPPORT. Every instruction's encoding lies in its own row of the opcode table: the row's mask picks the row's match
out of the encoded bits (30_encoding.md R63, R64, R68, R70, R72). -/

namespace Sys2Proof.Laws.EncodesInItsTableRow

/-- The mask and match of an instruction's row in spec/opcode_table.json. -/
def row : Instr → Word × Word
  | .nop _ _ => (0xFF0000FF, 0x00000000)
  | .csumClr _ _ => (0xFF0000FF, 0x00000001)
  | .csumAdd _ _ => (0xFF0000FF, 0x00000002)
  | .sread _ _ => (0xFF0000FF, 0x00000010)
  | .swrite _ _ => (0xFF0000FF, 0x00000011)
  | .pread _ _ => (0xFF0000FF, 0x00000012)
  | .logEff _ _ => (0xFF0000FF, 0x00000020)
  | .logProf _ _ => (0xFF0000FF, 0x00000021)
  | .logPer _ _ => (0xFF0000FF, 0x00000022)
  | .wireShortRead _ _ _ => (0xFF, 0x81)
  | .wireShortWrite _ _ _ _ => (0xFF, 0x01)
  | .wirePagedRead _ _ _ => (0xFF, 0xC1)

/-- A code's first 32 bits, numbered as the table numbers them. -/
def firstBits : Code → Word
  | .command w => w
  | .frame bytes => BitVec.ofNat 32 (leNat bytes)

def Statement (i : Instr) : Prop := firstBits (encode i) &&& (row i).1 = (row i).2

theorem commandWord_toNat (op a b : Byte) : (commandWord op a b).toNat = op.toNat + 2 ^ 8 * a.toNat + 2 ^ 16 * b.toNat := by
  have h1 := op.isLt
  have h2 := a.isLt
  have h3 := b.isLt
  unfold commandWord
  rw [BitVec.toNat_append, BitVec.toNat_append, BitVec.toNat_append, ← Nat.shiftLeft_add_eq_or_of_lt h1,
    ← Nat.shiftLeft_add_eq_or_of_lt h2, ← Nat.shiftLeft_add_eq_or_of_lt h3]
  simp only [Nat.shiftLeft_eq, show (0 : Byte).toNat = 0 from rfl]
  omega

theorem commandWord_and_mask (op a b : Byte) : commandWord op a b &&& 0xFF0000FF = op.setWidth 32 := by
  have h1 := op.isLt
  have h2 := a.isLt
  have h3 := b.isLt
  have hlow : (commandWord op a b).toNat % 2 ^ 8 = op.toNat := by
    rw [commandWord_toNat]
    omega
  have hhigh : (commandWord op a b).toNat < 2 ^ 24 := by
    rw [commandWord_toNat]
    omega
  apply BitVec.eq_of_getLsbD_eq
  intro j hj
  rw [BitVec.getLsbD_and, BitVec.getLsbD_setWidth]
  have hbit : (commandWord op a b).getLsbD j = (commandWord op a b).toNat.testBit j := rfl
  by_cases h : j < 8
  · have hop : op.getLsbD j = (commandWord op a b).toNat.testBit j := by
      rw [← BitVec.testBit_toNat, ← hlow, Nat.testBit_mod_two_pow]
      simp [h]
    rw [hbit, hop]
    interval_cases j <;> simp
  · have hop : op.getLsbD j = false := BitVec.getLsbD_of_ge _ _ (by omega)
    rw [hop]
    by_cases h' : j < 24
    · interval_cases j <;> simp
    · rw [hbit, Nat.testBit_lt_two_pow (Nat.lt_of_lt_of_le hhigh (Nat.pow_le_pow_right (by decide) (by omega)))]
      simp

theorem frame_and_mask (c : Byte) (bytes : List Byte) : firstBits (.frame (c :: bytes)) &&& 0xFF = c.setWidth 32 := by
  apply BitVec.eq_of_toNat_eq
  have hc := c.isLt
  simp only [firstBits, leNat, BitVec.toNat_and, BitVec.toNat_ofNat, BitVec.toNat_setWidth]
  rw [show (0xFF : Word).toNat = 2 ^ 8 - 1 from rfl, Nat.and_two_pow_sub_one_eq_mod]
  omega

theorem nop (a b : Byte) : Statement (.nop a b) := commandWord_and_mask 0x00 a b

theorem csumClr (a b : Byte) : Statement (.csumClr a b) := commandWord_and_mask 0x01 a b

theorem csumAdd (a b : Byte) : Statement (.csumAdd a b) := commandWord_and_mask 0x02 a b

theorem sread (a b : Byte) : Statement (.sread a b) := commandWord_and_mask 0x10 a b

theorem swrite (a b : Byte) : Statement (.swrite a b) := commandWord_and_mask 0x11 a b

theorem pread (a b : Byte) : Statement (.pread a b) := commandWord_and_mask 0x12 a b

theorem logEff (a b : Byte) : Statement (.logEff a b) := commandWord_and_mask 0x20 a b

theorem logProf (a b : Byte) : Statement (.logProf a b) := commandWord_and_mask 0x21 a b

theorem logPer (a b : Byte) : Statement (.logPer a b) := commandWord_and_mask 0x22 a b

theorem wireShortRead (addr len cs : Byte) : Statement (.wireShortRead addr len cs) := frame_and_mask 0x81 _

theorem wireShortWrite (addr len : Byte) (payload : List Byte) (cs : Byte) :
    Statement (.wireShortWrite addr len payload cs) := frame_and_mask 0x01 _

theorem wirePagedRead (page count cs : Byte) : Statement (.wirePagedRead page count cs) := frame_and_mask 0xC1 _

end Sys2Proof.Laws.EncodesInItsTableRow
end

