-- ==== Sys2Proof/Tests/Slice0.lean ====
section
/-! SUPPORT. Tests against the spec's own examples (95_test_vectors.md; each test names its vector or rule), and for every
statement of Certificates/Slice0/Obligations.lean a state and operands that meet its hypotheses (`witness_…`). -/

open Sys2Proof Sys2Proof.Machine

namespace Sys2Proof.Tests

/-! ## Well-formedness: one ill-formed term per check -/

theorem test_wf_rejects_length_zero : (Instr.wireShortRead 0x10 0x00 0x6E).wf = false := by decide

theorem test_wf_rejects_length_seventeen : (Instr.wireShortRead 0x10 0x11 0x5D).wf = false := by decide

theorem test_wf_rejects_a_wrong_checksum : (Instr.wireShortRead 0x10 0x02 0x6D).wf = false := by decide

theorem test_wf_rejects_a_write_length_zero : (Instr.wireShortWrite 0x20 0x00 [] 0xDE).wf = false := by decide

theorem test_wf_rejects_a_payload_of_another_length : (Instr.wireShortWrite 0x20 0x02 [0x05] 0xD7).wf = false := by decide

theorem test_wf_rejects_a_wrong_write_checksum : (Instr.wireShortWrite 0x20 0x01 [0x05] 0xD7).wf = false := by decide

theorem test_wf_rejects_two_pages : (Instr.wirePagedRead 0x03 0x02 0x39).wf = false := by decide

theorem test_wf_rejects_a_wrong_page_checksum : (Instr.wirePagedRead 0x03 0x01 0x3B).wf = false := by decide

theorem test_wf_accepts_the_frames_of_6 :
    (Instr.wireShortRead 0x10 0x02 0x6C).wf = true ∧ (Instr.wireShortWrite 0x20 0x01 [0x05] 0xD8).wf = true ∧
      (Instr.wirePagedRead 0x03 0x01 0x3A).wf = true := by decide

/-! ## Decoding: words and frames written out from R63, R64, R68, R70, R72 -/

theorem test_decode_nop : decodeTableWord 32 0b00000000_10101010_01010101_00000000 = some (.nop 0x55 0xAA) := by decide

theorem test_decode_csum_clr : decodeTableWord 32 0b00000000_00000000_00000000_00000001 = some (.csumClr 0 0) := by decide

theorem test_decode_csum_add : decodeTableWord 32 0b00000000_00000000_10000001_00000010 = some (.csumAdd 0x81 0) := by decide

theorem test_decode_sread : decodeTableWord 32 0b00000000_00000010_00010000_00010000 = some (.sread 0x10 0x02) := by decide

theorem test_decode_swrite : decodeTableWord 32 0b00000000_00000001_00100000_00010001 = some (.swrite 0x20 0x01) := by decide

theorem test_decode_pread : decodeTableWord 32 0b00000000_00000001_00000011_00010010 = some (.pread 0x03 0x01) := by decide

theorem test_decode_log_eff : decodeTableWord 32 0b00000000_00000000_00000011_00100000 = some (.logEff 0x03 0) := by decide

theorem test_decode_log_prof : decodeTableWord 32 0b00000000_00000000_11111111_00100001 = some (.logProf 0xFF 0) := by decide

theorem test_decode_log_per : decodeTableWord 32 0b00000000_00000000_00100000_00100010 = some (.logPer 0x20 0) := by decide

theorem test_decode_rejects :
    decodeTableWord 32 0x01000000 = none ∧ decodeTableWord 32 0x000000FF = none ∧ decodeTableWord 32 0x00000013 = none ∧
      decode (.frame [0x82, 0x10, 0x02, 0x6C]) = .error .unknownFrame ∧
      decode (.frame [0x81, 0x10, 0x02]) = .error .truncatedFrame := by decide

theorem test_decode_wire_short_read :
    decodeFrame [0x81, 0x10, 0x02, 0x6C] = .ok (.wireShortRead 0x10 0x02 0x6C, []) ∧
      decodeTableWord 8 0x81 = some (.wireShortRead 0 0 0) := by decide

theorem test_decode_wire_short_write :
    decodeFrame [0x01, 0x20, 0x01, 0x05, 0xD8] = .ok (.wireShortWrite 0x20 0x01 [0x05] 0xD8, []) ∧
      decodeTableWord 8 0x01 = some (.wireShortWrite 0 0 [] 0) := by decide

theorem test_decode_wire_paged_read :
    decodeFrame [0xC1, 0x03, 0x01, 0x3A] = .ok (.wirePagedRead 0x03 0x01 0x3A, []) ∧
      decodeTableWord 8 0xC1 = some (.wirePagedRead 0 0 0) := by decide

/-! ## One step of each instruction -/

/-- The state an instruction leads to: every instruction answers a next state. -/
def ran (i : Instr) (s : State) : State :=
  match exec i s with
  | .next t => t
  | .fault _ => s
  | .refused _ => s

theorem exec_ran (i : Instr) (s : State) : exec i s = .next (ran i s) := by cases i <;> rfl

/-- A machine after reset whose transport answers the request and the response. -/
def talking (k : Bool) (req resp : List Byte) : State :=
  { State.reset with cookieEn := k, txQ := List.replicate req.length .ok, rxQ := resp.map .byte }

theorem talking_ready (k : Bool) (req resp : List Byte) : (talking k req resp).ready := ⟨rfl, rfl⟩

theorem talking_answers (k : Bool) (req resp : List Byte) : (talking k req resp).answers req resp [] [] := by
  simp [State.answers, talking]

/-- A machine after reset with DUMP bytes from an address, and PTR. -/
def logging (p : BitVec 16) (dump : Memory) : State := { State.reset with ptr := p, dump := dump }

/-- A machine whose command in flight has a request frame staged. -/
def staged (w : Option Window) (frame resp : List Byte) : State :=
  { talking false frame resp with engine := .request false w frame }

/-- CM-1. -/
theorem test_nop : (ran (.nop 0 0) State.reset).statusWord = 0x00000002 := by decide +kernel

/-- CM-2. -/
theorem test_csum_clr : (ran (.csumClr 0 0) { State.reset with acc := 0x93 }).csumWord = 0x0000FF00 := by decide +kernel

/-- CM-4. -/
theorem test_csum_add_wraps : (ran (.csumAdd 0x01 0) { State.reset with acc := 0xFF }).acc = 0x00 := by decide +kernel

/-- CM-6. -/
theorem test_csum_add_sets_cz :
    (ran (.csumAdd 0x6C 0) { State.reset with acc := 0x93 }).statusWord = 0x00000102 := by decide +kernel

/-- TR-1. -/
theorem test_sread_serial :
    let t := ran (.sread 0x10 2) (talking false [0x81, 0x10, 0x02, 0x6C] [0x34, 0x12, 0xB9])
    bufWord t.rbuf 0 = 0x00001234 ∧ t.acc = 0xFF ∧ t.lastcs = 0x6C ∧ t.err = .none ∧
      t.txSent = [0x81, 0x10, 0x02, 0x6C] := by decide +kernel

/-- TR-4. -/
theorem test_sread_wrong_cookie :
    let t := ran (.sread 0x10 2) (talking true [0x00, 0x81, 0x10, 0x02, 0x6C] [0x01, 0x34, 0x12, 0xB8])
    t.err = .badResponse ∧ t.cz = true ∧ t.rbuf = zeroBuf := by decide +kernel

/-- TR-9. -/
theorem test_swrite_serial :
    let t := ran (.swrite 0x20 1) { talking false [0x01, 0x20, 0x01, 0x05, 0xD8] [0xD8] with wbuf := bufOf [0x05] }
    t.err = .none ∧ t.csumWord = 0x000027D8 ∧ t.txSent = [0x01, 0x20, 0x01, 0x05, 0xD8] := by decide +kernel

/-- TR-10. -/
theorem test_swrite_wrong_echo :
    (ran (.swrite 0x20 1) { talking false [0x01, 0x20, 0x01, 0x05, 0xD8] [0xD7] with wbuf := bufOf [0x05] }).err =
      .badResponse := by decide +kernel

/-- A page of zeros and its checksum (CK-11). -/
def zeroPage : List Byte := List.replicate 256 0x00 ++ [0xFF]

/-- TR-18. -/
theorem test_pread_last_page :
    let t := ran (.pread 0xFF 1) (talking false [0xC1, 0xFF, 0x01, 0x3E] zeroPage)
    t.err = .none ∧ t.progressWord = 0x0101 ∧ t.dump.read 0xFF00 = some 0 ∧ t.txSent = [0xC1, 0xFF, 0x01, 0x3E] := by
  decide +kernel

/-- TR-19; the command's DUMP pages become unspecified and the others stay (R179, D11). -/
theorem test_pread_past_the_last_page :
    let t := ran (.pread 0xFF 2) { State.reset with dump := cellsAt 0xFEFF [0x11, 0x22] }
    t.err = .badRequest ∧ t.txSent = [] ∧ t.dump.read 0xFEFF = some 0x11 ∧ t.dump.read 0xFF00 = none := by decide +kernel

/-- EF-D, slots 1 to 4 (region bytes 9 to 44). -/
def effDump : Memory := cellsAt 9 [0xE8, 0x03, 0x00, 0x90, 0x01, 0x00, 0x00, 0x00, 0x80, 0xDC, 0x05, 0x00, 0xBC, 0x02, 0x00,
  0x78, 0x00, 0x80, 0xF0, 0xFF, 0xFF, 0x00, 0x01, 0x00, 0x3C, 0x00, 0x00, 0x10, 0x00, 0x00, 0x80, 0x01, 0x00, 0x1E, 0x00, 0x80]

/-- EF-3 and P3's entry 1. -/
theorem test_log_eff :
    let t := ran (.logEff 0 0) (logging 0x0004 effDump)
    t.reccnt = 2 ∧ t.entryAt 1 = [0x10, 0x00, 0x00, 0x80, 0x01, 0x00, 0x1E, 0x00, 0x80, 0, 0, 0, 0, 0, 0, 0, 0, 0, 0, 0,
      0x00, 0x00, 0x24, 0x00, 0x09, 0x00, 0x20, 0x00, 0x00, 0x80, 0x00, 0x00] := by decide +kernel

/-- EF-4. -/
theorem test_log_eff_pointer_out_of_range : (ran (.logEff 0 0) (logging 0x00E0 [])).err = .dataFormatError := by
  decide +kernel

/-- PF-19. -/
theorem test_log_prof :
    let t := ran (.logProf 0 0) (logging 0x000F
      (cellsAt 5 [0x64, 0x0C, 0xFF, 0xD1, 0x03, 0xF4, 0x85, 0x00, 0x00, 0x80, 0x00, 0x00, 0x00, 0x00, 0x00]))
    t.reccnt = 3 ∧ t.entryAt 1 = [0xF4, 0x85, 0x00, 0x00, 0x80, 0, 0, 0, 0, 0, 0, 0, 0, 0, 0, 0, 0, 0, 0, 0,
      0x01, 0x02, 0x0A, 0x00, 0x05, 0, 0, 0, 0, 0, 0, 0] ∧
      profSelector (t.entryAt 0) = 0 ∧ profSelector (t.entryAt 1) = 1 := by decide +kernel

/-- PF-7. -/
theorem test_log_prof_unused_tail :
    (ran (.logProf 0 0) (logging 0x003C [])).reccnt = 0 ∧ (ran (.logProf 0 0) (logging 0x003C [])).err = .none := by
  decide +kernel

/-- PE-4's dump: pages 0 and 1. -/
def perDump : Memory := cellsAt 0 [0x03, 0x00, 0x01, 0x02, 0x03, 0x04, 0x05, 0x06, 0x07, 0x08] ++ cellsAt 255
  [0x0A, 0x00, 0x02, 0x41, 0x80, 0x42, 0x80, 0x43, 0x00]

/-- PE-4. -/
theorem test_log_per :
    let t := ran (.logPer 0 0) (logging 0x0108 perDump)
    t.reccnt = 5 ∧ t.entryAt 4 = [0x43, 0x00, 0, 0, 0, 0, 0, 0, 0, 0, 0, 0, 0, 0, 0, 0, 0, 0, 0, 0,
      0x02, 0x00, 0x06, 0x01, 0x02, 0x00, 0x00, 0x02, 0x00, 0x00, 0x00, 0x00] := by decide +kernel

/-- PE-5. -/
theorem test_log_per_past_the_pointer :
    (ran (.logPer 0 0) (logging 0x0107 perDump)).err = .dataFormatError ∧
      (ran (.logPer 0 0) (logging 0x0107 perDump)).reccnt = 0 := by decide +kernel

/-- TR-1's frame. -/
theorem test_wire_short_read :
    let t := ran (.wireShortRead 0x10 0x02 0x6C) (staged none [0x81, 0x10, 0x02, 0x6C] [0x34, 0x12, 0xB9])
    bufWord t.rbuf 0 = 0x00001234 ∧ t.busy = false := by decide +kernel

/-- TR-9's frame. -/
theorem test_wire_short_write :
    let t := ran (.wireShortWrite 0x20 0x01 [0x05] 0xD8) (staged none [0x01, 0x20, 0x01, 0x05, 0xD8] [0xD8])
    t.err = .none ∧ t.acc = 0xD8 ∧ t.busy = false := by decide +kernel

/-- TR-14's frame. -/
theorem test_wire_paged_read :
    let t := ran (.wirePagedRead 0x03 0x01 0x3A) (staged (some ⟨3, 1, 0⟩) [0xC1, 0x03, 0x01, 0x3A] zeroPage)
    t.dump.read 0x3FF = some 0 ∧ t.pdone = 1 ∧ t.busy = false := by decide +kernel

/-- FV-11. -/
theorem test_profile_view :
    let e := [0x64, 0x0C, 0xFF, 0xD1, 0x03]
    profVolts Config.vectors e = 511 ∧ profPercent Config.vectors e = 100 ∧ profDay Config.vectors e = 7 ∧
      sciMantissa Config.vectors 0x64 0x0C = 100 ∧ sciExponent Config.vectors 0x0C = 3 ∧
      profAmps Config.vectors e = 100 := by decide +kernel

/-- The field offsets of mask 0x0311 (95_test_vectors.md 2.6). -/
theorem test_periodic_field_offsets :
    fieldOffset 0x0311 0 = 0 ∧ fieldOffset 0x0311 4 = 2 ∧ fieldOffset 0x0311 8 = 4 ∧ fieldOffset 0x0311 9 = 6 ∧
      recordWidth 0x0311 = 8 := by decide

/-! ## The host's accesses -/

/-- A machine whose host has one access due. -/
def host (op : HostOp) (s : State) : State := { s with hostQ := [{ gap := 0, op := op }] }

/-- The state a step leads to, if any. -/
def stepped (s : State) : Option State :=
  match step s with
  | .next t => some t
  | .fault _ => none
  | .refused _ => none

/-- A machine that waits for the answer to its first request byte. -/
def waiting : State := ran (.sread 0x40 1) State.reset

/-- RS-3. -/
theorem test_ptr_write_while_busy :
    (stepped (host (writeRegOp .ptr 5) waiting)).map (fun t => (t.ptr, t.haz, t.busy)) = some (0, true, true) := by
  decide +kernel

/-- RS-6. -/
theorem test_status_acknowledge :
    (stepped (host (writeRegOp .status 0xFFFFFFFF)
      { State.reset with done := true, prog := true, haz := true, err := .badResponse })).map State.statusWord =
      some 0x00000040 := by decide +kernel

/-- RS-5. -/
theorem test_soft_reset_while_busy :
    (stepped (host (writeRegOp .ctrl 0x80000000) { waiting with haz := true })).map State.statusWord = some 0 := by
  decide +kernel

/-- RS-8. -/
theorem test_unmapped_read :
    (stepped (host (.read .w32 0x00040) State.reset)).map State.busReads = some [0] := by decide +kernel

/-- R57: the results of a command may be read once STATUS has been read with DONE = 1. -/
theorem test_done_is_observed :
    let s := { State.reset with done := true, unseen := true }
    (stepped (host (readRegOp .status) s)).map State.unseen = some false ∧
      (stepped (host (readRegOp .csum) s)).map State.unseen = some true ∧
      (stepped (host (readRegOp .status) { s with done := false })).map State.unseen = some true := by decide +kernel

/-- R53, R54. -/
theorem test_refused_accesses :
    step (host (.read .w8 0x00008) State.reset) = .refused .badRegisterAccess ∧
      step (host (.write .w16 0x10001 0) State.reset) = .refused .misalignedWindowAccess := ⟨rfl, rfl⟩

/-- `withFetchWord` makes the next step run the word. -/
theorem test_fetch_word :
    (stepped (State.reset.withFetchWord 32 0x00008102)).map State.acc = some 0x81 ∧
      (stepped (State.reset.withFetchWord 8 0x81)).map State.err = some .badRequest := by decide +kernel

/-! ## Witnesses: encodings and the checksum -/

theorem witness_EncodedInstructionsDecodeBack :
    (Instr.sread 0xFF 0xFF).wf = true ∧ (Instr.wireShortRead 0 0x10 0x6E).wf = true ∧
      (Instr.wireShortWrite 0x20 0x01 [0x05] 0xD8).wf = true ∧ (Instr.wirePagedRead 0xFF 0x01 0x3E).wf = true := by decide

theorem witness_DecodedCodesEncodeBack :
    decodeCommand 0x00FFFF22 = .ok (.logPer 0xFF 0xFF) ∧
      decodeFrame [0x01, 0x20, 0x01, 0x05, 0xD8, 0x77] = .ok (.wireShortWrite 0x20 0x01 [0x05] 0xD8, [0x77]) := by decide

theorem witness_UndefinedWordsEndWithOther :
    (host (writeRegOp .cmd 0x01000000) State.reset).engine = .idle ∧ rsvField 0x01000000 ≠ 0 ∧
      opField 0x00000013 ∉ [0x00, 0x01, 0x02, 0x10, 0x11, 0x12, 0x20, 0x21, 0x22] := by decide +kernel

theorem witness_SingleByteErrorsAreDetected :
    frameValid ([0x34] ++ [0x12] ++ [0xB9]) = true ∧ [0x34, 0x12, 0xB9].Perm [0x12, 0x34, 0xB9] :=
  ⟨by decide, .swap _ _ _⟩

theorem reset_ready : State.reset.ready := ⟨rfl, rfl⟩

theorem witness_NopOnlyCompletes :
    State.reset.ready ∧ State.reset.acc ≠ 0xFF ∧ State.reset.prog = false ∧ State.reset.haz = false :=
  ⟨reset_ready, by decide, rfl, rfl⟩

theorem witness_CsumClrClearsTheAccumulator : ({ State.reset with acc := 0x93 } : State).ready := ⟨rfl, rfl⟩

theorem witness_CsumAddAddsItsByte : ({ State.reset with acc := 0xFF } : State).ready ∧ (0x00 : Byte) = 0 := ⟨⟨rfl, rfl⟩, rfl⟩

theorem witness_CsumCommandsCheckAFrame : State.reset.ready ∧ [0x34, 0x12, 0xB9].Perm [0x12, 0x34, (0xB9 : Byte)] :=
  ⟨reset_ready, .swap _ _ _⟩

/-! ## Witnesses: transactions -/

/-- TR-2, and TR-8's length with a zero payload. -/
theorem witness_SreadDeliversThePayload :
    (let s := talking true [0x00, 0x81, 0x10, 0x02, 0x6C] [0x00, 0x34, 0x12, 0xB9];
      s.ready ∧ shortMin ≤ (0x02 : Byte).toNat ∧ (0x02 : Byte).toNat ≤ shortMax ∧
        s.answers (cookieBytes s.cookieEn ++ shortReadRequest 0x10 0x02) [0x00, 0x34, 0x12, 0xB9] [] [] ∧
        goodResponse s.cookieEn 2 [0x00, 0x34, 0x12, 0xB9]) ∧
      shortMin ≤ (0x10 : Byte).toNat ∧ (0x10 : Byte).toNat ≤ shortMax ∧
      goodResponse false 16 (List.replicate 16 0x00 ++ [0xFF]) :=
  ⟨⟨⟨rfl, rfl⟩, by decide, by decide, talking_answers _ _ _, rfl, rfl, rfl⟩, by decide, by decide, rfl, rfl, rfl⟩

/-- TR-3. -/
theorem witness_SreadRejectsABadResponse :
    let s := talking false [0x81, 0x10, 0x02, 0x6C] [0x34, 0x12, 0xB8]
    s.ready ∧ shortMin ≤ (0x02 : Byte).toNat ∧ (0x02 : Byte).toNat ≤ shortMax ∧
      s.answers (cookieBytes s.cookieEn ++ shortReadRequest 0x10 0x02) [0x34, 0x12, 0xB8] [] [] ∧
      [0x34, 0x12, (0xB8 : Byte)].length = cookieLen s.cookieEn + 2 + 1 ∧ ¬ goodResponse s.cookieEn 2 [0x34, 0x12, 0xB8] :=
  ⟨⟨rfl, rfl⟩, by decide, by decide, talking_answers _ _ _, rfl, fun h => absurd h.2.2 (by decide)⟩

/-- TR-6, TR-7, TR-19, TR-20. -/
theorem witness_OperandsOutOfRangeAreBadRequest :
    State.reset.ready ∧ (0x00 : Byte).toNat < 1 ∧ 16 < (0x11 : Byte).toNat ∧ (0x00 : Byte).toNat = 0 ∧
      256 < (0xFF : Byte).toNat + (0x02 : Byte).toNat := ⟨reset_ready, by decide⟩

/-- TR-11. -/
theorem witness_SwriteEndsOnItsEcho :
    let s := { talking true [0x00, 0x01, 0x20, 0x01, 0x05, 0xD8] [0x00, 0xD8] with wbuf := bufOf [0x05] }
    s.ready ∧ shortMin ≤ (0x01 : Byte).toNat ∧ (0x01 : Byte).toNat ≤ shortMax ∧
      s.answers (cookieBytes s.cookieEn ++ shortWriteRequest 0x20 0x01 (s.wbuf.toList.take 1))
        (cookieBytes s.cookieEn ++ [checksum (0x01 :: 0x20 :: 0x01 :: s.wbuf.toList.take 1)]) [] [] :=
  ⟨⟨rfl, rfl⟩, by decide, by decide, by constructor <;> decide +kernel⟩

/-- TR-10. -/
theorem witness_SwriteRejectsAWrongEcho :
    let s := { talking false [0x01, 0x20, 0x01, 0x05, 0xD8] [0xD7] with wbuf := bufOf [0x05] }
    s.ready ∧ shortMin ≤ (0x01 : Byte).toNat ∧ (0x01 : Byte).toNat ≤ shortMax ∧
      s.answers (cookieBytes s.cookieEn ++ shortWriteRequest 0x20 0x01 (s.wbuf.toList.take 1)) [0xD7] [] [] ∧
      [(0xD7 : Byte)].length = cookieLen s.cookieEn + 1 ∧
      [0xD7] ≠ cookieBytes s.cookieEn ++ [checksum (0x01 :: 0x20 :: 0x01 :: s.wbuf.toList.take 1)] :=
  ⟨⟨rfl, rfl⟩, by decide, by decide, by constructor <;> decide +kernel, rfl, by decide +kernel⟩

/-- TR-13, TR-5, and an abort on the write's echo. -/
theorem witness_AbortEndsAShortTransaction :
    (let s := { State.reset with txQ := [.abort] };
      s.ready ∧ 0 < cookieLen s.cookieEn + 4 ∧ s.txQ = List.replicate 0 .ok ++ .abort :: []) ∧
    (let s := { State.reset with cookieEn := true, txQ := List.replicate 5 .ok, rxQ := [.byte 0x00, .byte 0x34, .abort] };
      s.ready ∧ [0x00, (0x34 : Byte)].length < cookieLen s.cookieEn + 2 + 1 ∧
        s.txQ = List.replicate (cookieLen s.cookieEn + 4) .ok ++ [] ∧ s.rxQ = [0x00, 0x34].map .byte ++ .abort :: []) ∧
    (let s := { State.reset with txQ := List.replicate 5 .ok, rxQ := [.abort] };
      s.ready ∧ ([] : List Byte).length < cookieLen s.cookieEn + 1 ∧
        s.txQ = List.replicate (cookieLen s.cookieEn + 1 + 4) .ok ++ [] ∧ s.rxQ = [].map .byte ++ .abort :: []) :=
  ⟨⟨⟨rfl, rfl⟩, by decide, rfl⟩, ⟨⟨rfl, rfl⟩, by decide, rfl, rfl⟩, ⟨rfl, rfl⟩, by decide, rfl, rfl⟩

theorem zeroPage_good : goodResponse false devPage zeroPage := ⟨by decide +kernel, rfl, by decide +kernel⟩

/-- TR-18. -/
theorem witness_PreadFetchesItsPages :
    let s := talking false (pageRequests false 255 1) [zeroPage].flatten
    s.ready ∧ 1 ≤ (0x01 : Byte).toNat ∧ (0xFF : Byte).toNat + (0x01 : Byte).toNat ≤ 256 ∧
      [zeroPage].length = (0x01 : Byte).toNat ∧ (∀ resp ∈ [zeroPage], goodResponse s.cookieEn devPage resp) ∧
      s.answers (pageRequests s.cookieEn 255 1) [zeroPage].flatten [] [] :=
  ⟨⟨rfl, rfl⟩, by decide, by decide, rfl, fun r h => by rw [List.mem_singleton.1 h]; exact zeroPage_good, talking_answers _ _ _⟩

/-- TR-17's first window. -/
def badPage : List Byte := List.replicate 256 0x00 ++ [0xFE]

theorem witness_PreadStopsAtABadWindow :
    let s := talking false (pageRequests false 0 1) badPage
    s.ready ∧ (0x00 : Byte).toNat + (0x02 : Byte).toNat ≤ 256 ∧ ([] : List (List Byte)).length < (0x02 : Byte).toNat ∧
      badPage.length = cookieLen s.cookieEn + devPage + 1 ∧ ¬ goodResponse s.cookieEn devPage badPage ∧
      s.answers (pageRequests s.cookieEn 0 1) ([].flatten ++ badPage) [] [] :=
  ⟨⟨rfl, rfl⟩, by decide, by decide, by decide +kernel, fun h => absurd h.2.2 (by decide +kernel), talking_answers _ _ _⟩

theorem witness_AbortEndsAPagedRead :
    (let s := { State.reset with txQ := [.ok, .ok, .ok, .abort] };
      s.ready ∧ 3 < cookieLen s.cookieEn + 4 ∧
        s.txQ = List.replicate ((pageRequests s.cookieEn 0 0).length + 3) .ok ++ .abort :: [] ∧
        s.rxQ = ([] : List (List Byte)).flatten.map .byte ++ []) ∧
    (let s := { State.reset with txQ := List.replicate 4 .ok, rxQ := [.byte 0x12, .abort] };
      s.ready ∧ [(0x12 : Byte)].length < cookieLen s.cookieEn + devPage + 1 ∧
        s.txQ = List.replicate (pageRequests s.cookieEn 0 1).length .ok ++ [] ∧
        s.rxQ = (([] : List (List Byte)).flatten ++ [0x12]).map .byte ++ .abort :: []) :=
  ⟨⟨⟨rfl, rfl⟩, by decide, rfl, rfl⟩, ⟨rfl, rfl⟩, by decide, rfl, rfl⟩

/-! ## Witnesses: wire frames -/

theorem witness_ShortReadFrameRuns :
    let s := staged none [0x81, 0x10, 0x02, 0x6C] [0x34, 0x12, 0xB9]
    s.engine = .request false none [0x81, 0x10, 0x02, 0x6C] ∧ s.hostQ = [] ∧ shortMin ≤ (0x02 : Byte).toNat ∧
      (0x02 : Byte).toNat ≤ shortMax ∧
      s.answers (cookieBytes false ++ shortReadBytes 0x10 0x02 0x6C) [0x34, 0x12, 0xB9] [] [] ∧
      goodResponse false 2 [0x34, 0x12, 0xB9] := ⟨rfl, rfl, by decide, by decide, ⟨rfl, rfl⟩, rfl, rfl, rfl⟩

theorem witness_ShortWriteFrameRuns :
    let s := staged none [0x01, 0x20, 0x01, 0x05, 0xD8] [0xD8]
    s.engine = .request false none [0x01, 0x20, 0x01, 0x05, 0xD8] ∧ s.hostQ = [] ∧ shortMin ≤ (0x01 : Byte).toNat ∧
      (0x01 : Byte).toNat ≤ shortMax ∧ [(0x05 : Byte)].length = (0x01 : Byte).toNat ∧
      s.answers (cookieBytes false ++ shortWriteBytes 0x20 0x01 [0x05] 0xD8) (cookieBytes false ++ [0xD8]) [] [] :=
  ⟨rfl, rfl, by decide, by decide, rfl, rfl, rfl⟩

/-- A window with another after it, the last window, and a frame with no window. -/
theorem witness_PagedReadFrameRuns :
    (let w : Window := ⟨3, 2, 0⟩;
      let s := staged (some w) [0xC1, 0x03, 0x01, 0x3A] zeroPage;
      s.engine = .request false (some w) [0xC1, 0x03, 0x01, 0x3A] ∧ s.hostQ = [] ∧
        s.answers (cookieBytes false ++ pagedReadBytes 0x03 0x01 0x3A) zeroPage [] [] ∧
        goodResponse false devPage zeroPage ∧ w.i + 1 < w.total) ∧
      (⟨3, 2, 1⟩ : Window).total ≤ (⟨3, 2, 1⟩ : Window).i + 1 ∧
      (staged none [0xC1, 0x03, 0x01, 0x3A] zeroPage).engine = .request false none [0xC1, 0x03, 0x01, 0x3A] :=
  ⟨⟨rfl, rfl, by constructor <;> decide +kernel, zeroPage_good, by decide⟩, by decide, rfl⟩

theorem witness_FramesTheEngineDoesNotBuild :
    (isCommand (.wireShortRead 0x10 0x02 0x6C) = false ∧ ∀ k w frame, State.reset.engine ≠ .request k w frame) ∧
      (staged none [0xC1, 0x03, 0x02, 0x39] []).engine = .request false none [0xC1, 0x03, 0x02, 0x39] ∧
      (staged none [0xC1, 0x03, 0x02, 0x39] []).hostQ = [] ∧ (0x02 : Byte) ≠ 1 ∧ (0x00 : Byte).toNat < 1 ∧
      16 < (0x11 : Byte).toNat ∧ ([] : List Byte).length ≠ (0x01 : Byte).toNat :=
  ⟨⟨rfl, by nofun⟩, rfl, rfl, by decide, by decide, by decide, by decide⟩

/-! ## Witnesses: logs -/

theorem vectors_wf : Config.vectors.wf := by decide

theorem witness_LogEffIsTheEfficiencyWalk : (logging 0x80DF effDump).ready := ⟨rfl, rfl⟩

theorem witness_LogProfIsTheProfileWalk : (logging 0x8045 []).ready ∧ (logging 0x8045 []).cfg.wf := ⟨⟨rfl, rfl⟩, vectors_wf⟩

theorem witness_LogPerIsThePeriodicWalk : (logging 0x0108 perDump).ready ∧ (logging 0x0108 perDump).cfg.wf :=
  ⟨⟨rfl, rfl⟩, vectors_wf⟩

/-- The last base page of each region (EF-11, PF-18, PE-17), and PE-4's walk. -/
theorem witness_LogCommandsCommitTheirEntries :
    (let s := logging 0x0001 [];
      s.ready ∧ s.cfg.wf ∧ basePage 248 + effRegion ≤ dumpSize ∧ effPtr s.ptr < effSlots ∧
        (s.effRun 248).entries.length ≤ s.cfg.recCap) ∧
    (let s := logging 0x0005 [];
      basePage 192 + profRegion s.cfg ≤ dumpSize ∧ inSlotSet s.cfg (profOff s.cfg s.ptr) = true ∧
        (s.profRun 192).entries.length ≤ s.cfg.recCap) ∧
    (let s := logging 0x0108 perDump;
      basePage 0 + perRegion s.cfg ≤ dumpSize ∧ perPtr s.ptr < perRegion s.cfg ∧ perPtr s.ptr % perPage ≠ 0 ∧
        (s.perRun 0).fault = .none ∧ (s.perRun 0).entries.length ≤ s.cfg.recCap) :=
  ⟨⟨⟨rfl, rfl⟩, vectors_wf, by decide +kernel, by decide +kernel, by decide +kernel⟩,
    ⟨by decide +kernel, by decide +kernel, by decide +kernel⟩,
    by decide +kernel, by decide +kernel, by decide +kernel, by decide +kernel, by decide +kernel⟩

theorem witness_EffWalkVisitsEachSlotOnce : 0 < effSlots ∧ 223 < effSlots ∧ 1 ≤ 223 := by decide

theorem witness_ProfWalkIsOneCycleThroughTheSlots :
    Config.vectors.wf ∧ inSlotSet Config.vectors 0 = true ∧ inSlotSet Config.vectors 0x3FF7 = true ∧
      inSlotSet { Config.vectors with profWrapTo := .slot5 } 5 = true := ⟨vectors_wf, by decide +kernel⟩

theorem witness_PeriodicRecordsAreBounded : State.reset.cfg.wf := vectors_wf

/-- EF-3's entry of slot 2. -/
def slot2Entry : Entry := ⟨0, 0, [0xDC, 0x05, 0x00, 0xBC, 0x02, 0x00, 0x78, 0x00, 0x80], 18, 500, 300⟩

theorem witness_CommittedEntriesAreReadBack :
    let r : LogRun := ⟨[slot2Entry], .none⟩
    State.reset.cfg.wf ∧ r.fault = .none ∧ r.entries.length ≤ State.reset.cfg.recCap ∧ 0 < r.entries.length :=
  ⟨vectors_wf, rfl, by decide, by decide⟩

theorem witness_EntryBytesHoldTheirFields :
    slot2Entry.raw.length ≤ 20 ∧ slot2Entry.srcOff < 2 ^ 16 ∧ slot2Entry.x0 < 2 ^ 24 ∧ slot2Entry.x1 < 2 ^ 24 := by decide

/-- EF-4. -/
theorem witness_FailedLogLeavesNoEntries :
    let s := logging 0x00E0 []
    s.ready ∧ isLog (.logEff 0 0) = true ∧ exec (.logEff 0 0) s = .next (ran (.logEff 0 0) s) ∧
      (ran (.logEff 0 0) s).done = true ∧ (ran (.logEff 0 0) s).err ≠ .none :=
  ⟨⟨rfl, rfl⟩, rfl, exec_ran _ _, by decide +kernel, by decide +kernel⟩

/-- Two machines that differ in a DUMP byte outside the regions and in REC RAM. -/
theorem witness_LogReadsOnlyItsRegion :
    let s := logging 0x0004 (cellsAt 0x8000 [0x11])
    let s' := { logging 0x0004 (cellsAt 0x8000 [0x22]) with recm := [(0, 0x33)] }
    s.ready ∧ s'.ready ∧ s.cfg.wf ∧ s'.cfg = s.cfg ∧ s'.ptr = s.ptr ∧
      ∀ region, (region = effRegion ∨ region = profRegion s.cfg ∨ region = perRegion s.cfg) →
        ∀ x, x < region → s'.dumpByte (basePage 0 + x) = s.dumpByte (basePage 0 + x) := by
  refine ⟨⟨rfl, rfl⟩, ⟨rfl, rfl⟩, vectors_wf, rfl, rfl, fun region hr x hx => ?_⟩
  have key : ∀ b : Byte, (cellsAt 0x8000 [b]).lookup x = none := by
    intro b
    have : x < 0x8000 := by
      rcases hr with rfl | rfl | rfl <;> exact Nat.lt_of_lt_of_le hx (by decide +kernel)
    rw [cellsAt, cellsAt, List.lookup_cons, show (x == 0x8000) = false by simpa using Nat.ne_of_lt this]
    rfl
  simp only [State.dumpByte, Memory.read, logging, show basePage 0 + x = x from Nat.zero_add x, key]

/-! ## Witnesses: field views -/

/-- FV-6 (mantissa 0), FV-1 (exponent 3), the decided layout. -/
theorem witness_ScientificValueCorners :
    sciMantissa Config.vectors 0x00 0x80 = 0 ∧ sciExponent Config.vectors 0x0C = 3 ∧ Config.vectors.sciMhHi = 1 ∧
      Config.vectors.sciEHi = 4 ∧ Config.vectors.sciELo = 2 ∧ Config.vectors.sciSign = 7 := by decide +kernel

/-- EF-3's entry of slot 2 has both views; an entry of zeros has neither. -/
theorem witness_EfficiencyViewsAreTheFormulas :
    (effPercent slot2Entry.bytes).isSome = true ∧ (effSelfDischarge Config.vectors slot2Entry.bytes).isSome = true ∧
      effPercent [] = none ∧ effSelfDischarge Config.vectors [] = none := by
  refine ⟨?_, ?_, rfl, rfl⟩
  · unfold effPercent
    rw [if_neg (by decide +kernel)]
    rfl
  · unfold effSelfDischarge
    rw [if_neg (by decide +kernel)]
    rfl

/-! ## Witnesses: the step, the bus, completion and reset -/

theorem witness_StepRunsTheCommandWord :
    (host (writeRegOp .cmd 0x00021010) State.reset).engine = .idle ∧
      (host (writeRegOp .cmd 0x00021010) State.reset).hostQ = { gap := 0, op := writeRegOp .cmd 0x00021010 } :: [] ∧
      decodeCommand 0x00021010 = .ok (.sread 0x10 0x02) := ⟨rfl, rfl, by decide⟩

theorem witness_StepRunsTheStagedRequest :
    let s := staged none [0x81, 0x10, 0x02, 0x6C] []
    s.engine = .request false none [0x81, 0x10, 0x02, 0x6C] ∧ (∀ p rest, s.hostQ = p :: rest → 0 < p.gap) ∧
      decodeFrame [0x81, 0x10, 0x02, 0x6C] = .ok (.wireShortRead 0x10 0x02 0x6C, []) := ⟨rfl, by nofun, by decide⟩

/-- The machine waits BUSY; a due access, and the ends of the DUMP window. -/
theorem witness_WritesWhileBusyAreDropped :
    waiting.busy = true ∧ (∀ op, (host op waiting).due op []) ∧ (host (writeRegOp .ptr 5) waiting).busy = true ∧
      (0x7FFFFFFF : Word).getLsbD 31 = false ∧ dumpWindow ≤ (0x10000 : BusAddr).toNat ∧
      (0x1FFFC : BusAddr).toNat < recWindow ∧ (0x1FFFC : BusAddr).toNat % Width.w32.bytes = 0 ∧
      recWindow ≤ (0x20000 : BusAddr).toNat ∧ 0x40 ≤ (0x00040 : BusAddr).toNat ∧
      (0x0FFFF : BusAddr).toNat + Width.w8.bytes ≤ dumpWindow :=
  ⟨by decide +kernel, fun _ => rfl, by decide +kernel, by decide, by decide, by decide, by decide, by decide, by decide, by decide⟩

theorem witness_WritesWhileIdleTakeEffect :
    (∀ op, (host op State.reset).engine = .idle ∧ (host op State.reset).due op []) ∧
      (0x00000007 : Word).getLsbD 31 = false ∧ recWindow ≤ (0x20000 : BusAddr).toNat ∧
      (0x3FFFC : BusAddr).toNat % Width.w32.bytes = 0 ∧ 0x40 ≤ (0x00040 : BusAddr).toNat ∧
      (0x0FFFF : BusAddr).toNat + Width.w8.bytes ≤ dumpWindow := ⟨fun _ => ⟨rfl, rfl⟩, by decide⟩

theorem witness_DumpWindowHoldsWhatIsWritten :
    let s := { State.reset with
      hostQ := [{ gap := 0, op := .write .w32 0x1FFFC 0x12345678 }, { gap := 0, op := .read .w32 0x1FFFC }] }
    s.engine = .idle ∧ s.unseen = false ∧ dumpWindow ≤ (0x1FFFC : BusAddr).toNat ∧ (0x1FFFC : BusAddr).toNat < recWindow ∧
      (0x1FFFC : BusAddr).toNat % Width.w32.bytes = 0 := ⟨rfl, rfl, by decide, by decide, by decide⟩

/-- IDLE and BUSY machines, one whose host has a completion to see, entries below and at RECCNT. -/
theorem witness_ReadsReturnWhatTheMapSays :
    (∀ op, (host op State.reset).busy = false ∧ (host op State.reset).unseen = false ∧ (host op State.reset).due op []) ∧
      (host (readRegOp .status) waiting).busy = true ∧
      (stepped (host (writeRegOp .cmd 0) State.reset)).map State.unseen = some true ∧
      Reg.status.hiddenWhileBusy = false ∧ Reg.reccnt.hiddenWhileBusy = true ∧
      ((0x2001F : BusAddr).toNat - recWindow) / 32 < (1 : BitVec 16).toNat ∧
      (0 : BitVec 16).toNat ≤ ((0x20000 : BusAddr).toNat - recWindow) / 32 :=
  ⟨fun _ => ⟨rfl, rfl, rfl⟩, by decide +kernel, by decide +kernel, rfl, rfl, by decide, by decide⟩

/-- Addresses and widths on both sides of each edge: the registers' end, the DUMP window's start, the last address. -/
theorem witness_OnlyDisallowedAccessesAreRefused :
    State.reset.engineFirst = true ∧ (∀ op, (host op State.reset).engineFirst = false) ∧
      (HostOp.write .w16 0x0003C 7).accesses .w16 0x0003C ∧ (0x0003C : BusAddr).toNat < 0x40 ∧ Width.w16 ≠ .w32 ∧
      (0x0003E : BusAddr).toNat % 4 ≠ 0 ∧ (0x0003C : BusAddr).toNat % 4 = 0 ∧
      (HostOp.read .w16 0x0FFFF).accesses .w16 0x0FFFF ∧ 0x40 ≤ (0x0FFFF : BusAddr).toNat ∧
      0x10000 < (0x0FFFF : BusAddr).toNat + Width.w16.bytes ∧ (0x0FFFF : BusAddr).toNat % Width.w16.bytes ≠ 0 ∧
      (0x0FFFF : BusAddr).toNat + Width.w8.bytes ≤ 0x10000 ∧ (0x3FFFD : BusAddr).toNat % Width.w32.bytes ≠ 0 ∧
      (0x3FFFC : BusAddr).toNat % Width.w32.bytes = 0 :=
  ⟨rfl, fun _ => rfl, .inr ⟨7, rfl⟩, by decide, by decide, by decide, by decide, .inl rfl, by decide, by decide, by decide,
    by decide, by decide, by decide⟩

theorem witness_CtrlMasksTheInterrupt :
    (host (writeRegOp .ctrl 0x2) State.reset).engine = .idle ∧ (0x2 : Word).getLsbD 31 = false ∧
      (host (writeRegOp .ctrl 0x2) State.reset).due (writeRegOp .ctrl 0x2) [] := ⟨rfl, by decide, rfl⟩

/-- Each kind of abandoned command. -/
theorem witness_SoftResetClearsTheMachine :
    (0x80000000 : Word).getLsbD 31 = true ∧
      (host (writeRegOp .ctrl 0x80000000) State.reset).due (writeRegOp .ctrl 0x80000000) [] ∧
      State.reset.engine.abandoned = .nothing ∧ (ran (.pread 3 2) State.reset).engine.abandoned = .pages 3 2 ∧
      (State.reset.issue (some (.logEff 0 0))).engine.abandoned = .records :=
  ⟨by decide, rfl, rfl, by decide +kernel, rfl⟩

/-- On TX before the first byte and before the last, on RX before the first byte and before the last, in PREAD's second
window. -/
theorem witness_SilentTransportLeavesTheCommandWaiting :
    (let s := { State.reset with txQ := List.replicate 3 .ok };
      s.ready ∧ 1 ≤ (0x01 : Byte).toNat ∧ (0x10 : Byte).toNat ≤ 16 ∧
        3 < (cookieBytes s.cookieEn ++ shortReadRequest 0x40 0x01).length ∧ State.reset.txQ = List.replicate 0 .ok) ∧
    (let s := { State.reset with txQ := List.replicate 5 .ok };
      s.ready ∧ ([] : List Byte).length < cookieLen s.cookieEn + 1 ∧
        s.txQ = List.replicate (cookieBytes s.cookieEn ++ shortWriteRequest 0x20 0x01 (s.wbuf.toList.take 1)).length .ok ++ [] ∧
        s.rxQ = ([] : List Byte).map .byte) ∧
    (let s := { State.reset with txQ := List.replicate 8 .ok, rxQ := (zeroPage ++ [0x12]).map .byte };
      s.ready ∧ (0x03 : Byte).toNat + (0x02 : Byte).toNat ≤ 256 ∧ [zeroPage].length < (0x02 : Byte).toNat ∧
        goodResponse s.cookieEn devPage zeroPage ∧ [(0x12 : Byte)].length < cookieLen s.cookieEn + devPage + 1 ∧
        s.txQ = List.replicate ((pageRequests s.cookieEn 3 1).length +
          (cookieBytes s.cookieEn ++ pagedReadRequest (0x03 + BitVec.ofNat 8 1)).length) .ok ++ [] ∧
        s.rxQ = ([zeroPage].flatten ++ [0x12]).map .byte) :=
  ⟨⟨⟨rfl, rfl⟩, by decide, by decide, by decide, rfl⟩, ⟨⟨rfl, rfl⟩, by decide, by decide +kernel, rfl⟩, ⟨rfl, rfl⟩, by decide,
    by decide, zeroPage_good, by decide, by decide +kernel, by decide +kernel⟩

theorem witness_CommandsWithoutTransportEnd : State.reset.ready ∧ State.reset.cfg.wf := ⟨reset_ready, vectors_wf⟩

/-- Enough answers, all aborts. -/
theorem witness_AnsweredTransactionsEnd :
    let s := { State.reset with txQ := List.replicate 510 .abort, rxQ := List.replicate 516 .abort }
    s.ready ∧ 5 ≤ s.txQ.length ∧ (0x10 : Byte).toNat + 2 ≤ s.rxQ.length ∧ (0x10 : Byte).toNat + 5 ≤ s.txQ.length ∧
      2 ≤ s.rxQ.length ∧ 5 * (0x02 : Byte).toNat ≤ s.txQ.length ∧ 258 * (0x02 : Byte).toNat ≤ s.rxQ.length := by
  exact ⟨⟨rfl, rfl⟩, by decide +kernel⟩

/-! ## Witnesses: frames and the invariant -/

theorem witness_InstructionsLeaveTheHostsRegisters :
    exec (.csumAdd 1 0) waiting = .next (ran (.csumAdd 1 0) waiting) ∧
      exec (.csumAdd 1 0) State.reset = .next (ran (.csumAdd 1 0) State.reset) := ⟨exec_ran _ _, exec_ran _ _⟩

theorem witness_ControlCommandsFrame :
    State.reset.engine = .idle ∧ exec (.nop 1 2) State.reset = .next (ran (.nop 1 2) State.reset) ∧
      exec (.csumClr 1 2) State.reset = .next (ran (.csumClr 1 2) State.reset) ∧
      exec (.csumAdd 1 2) State.reset = .next (ran (.csumAdd 1 2) State.reset) :=
  ⟨rfl, exec_ran _ _, exec_ran _ _, exec_ran _ _⟩

theorem witness_ShortTransactionsFrame :
    State.reset.engine = .idle ∧ exec (.sread 0x10 2) State.reset = .next (ran (.sread 0x10 2) State.reset) ∧
      exec (.swrite 0x20 1) State.reset = .next (ran (.swrite 0x20 1) State.reset) ∧
      (let s := staged none [0x81, 0x10, 0x02, 0x6C] [0x34, 0x12, 0xB9];
        exec (.wireShortRead 0x10 0x02 0x6C) s = .next (ran (.wireShortRead 0x10 0x02 0x6C) s)) :=
  ⟨rfl, exec_ran _ _, exec_ran _ _, exec_ran _ _⟩

theorem witness_PagedReadsFrame :
    State.reset.engine = .idle ∧ exec (.pread 0xFF 1) State.reset = .next (ran (.pread 0xFF 1) State.reset) ∧
      (let s := staged (some ⟨3, 2, 0⟩) [0xC1, 0x03, 0x01, 0x3A] zeroPage;
        exec (.wirePagedRead 0x03 0x01 0x3A) s = .next (ran (.wirePagedRead 0x03 0x01 0x3A) s) ∧
          s.engine = .request false (some ⟨3, 2, 0⟩) [0xC1, 0x03, 0x01, 0x3A] ∧
          ¬ (devPage * (0x03 : Byte).toNat ≤ 0x200 ∧ 0x200 < devPage * ((0x03 : Byte).toNat + 1)) ∧
          ¬ (devPage * (windowOf (some ⟨3, 2, 0⟩) 0x03).p0 ≤ 0x200 ∧ 0x200 < devPage * 5)) :=
  ⟨rfl, exec_ran _ _, exec_ran _ _, rfl, by decide, by decide⟩

theorem witness_LogCommandsFrame :
    (logging 0x0004 effDump).engine = .idle ∧ isLog (.logEff 0 0) = true ∧
      exec (.logEff 0 0) (logging 0x0004 effDump) = .next (ran (.logEff 0 0) (logging 0x0004 effDump)) :=
  ⟨rfl, rfl, exec_ran _ _⟩

theorem witness_EveryStepKeepsTheInvariant :
    (host (writeRegOp .cmd 0x00008102) State.reset).Inv ∧
      (stepped (host (writeRegOp .cmd 0x00008102) State.reset)).isSome = true :=
  ⟨⟨vectors_wf, ⟨List.Pairwise.nil, by simp [host, State.reset, State.resetWith]⟩,
    ⟨List.Pairwise.nil, by simp [host, State.reset, State.resetWith]⟩, by decide, by decide, trivial⟩, by decide +kernel⟩

theorem witness_PowerOnMeetsTheInvariant : Config.vectors.wf := vectors_wf

theorem witness_ScriptStatementsDoWhatTheyName :
    ({ State.reset with hostQ := scriptOps 0 [.command .sread 0x10 2] } : State).engine = .idle ∧
      ({ State.reset with hostQ := scriptOps 0 [.command .sread 0x10 2] } : State).hostQ =
        scriptOps 0 [.command .sread 0x10 2] ∧
      ({ State.reset with hostQ := scriptOps 0 [.wbuf [0x05]] } : State).hostQ = scriptOps 0 [.wbuf [0x05]] :=
  ⟨rfl, rfl, rfl⟩

end Sys2Proof.Tests
end

section
/-! PROOF. Power-on reset and the machine's invariant (00_scope.md R11; 10_state.md R41; 70_reset_and_hazards.md R191). -/

namespace Sys2Proof.Machine

/-- Both RAMs are unspecified after power-on, so they hold no cell; the registers are 0 and the engine is IDLE. Only the
parameters bring a condition of their own. -/
theorem State.resetWith_inv {c : Config} (hc : c.wf) : (State.resetWith c).Inv where
  cfg := hc
  dump := Memory.wf_nil _
  recm := Memory.wf_nil _
  err := nofun
  reccnt := Nat.zero_le _
  engine := trivial

/-- Settles O59: any parameters in range give an invariant state, and the parameters of `State.reset` are in range. -/
theorem powerOnMeetsTheInvariant : Obligations.PowerOnMeetsTheInvariant :=
  ⟨fun _ hc => State.resetWith_inv hc, State.resetWith_inv (c := Config.vectors) (by decide)⟩

end Sys2Proof.Machine
end

section
/-! SUPPORT. What an instruction's run and a landing host access come to: the two shapes of `exec`, and one equation for
each kind of due access (20_memory.md R46, R57). -/

namespace Sys2Proof.Machine

/-! ## The two shapes of an instruction's run -/

/-- A command word's run is issue and the engine's run. -/
theorem exec_command {i : Instr} (hi : isCommand i = true) (s : State) : exec i s = runCommand (some i) s := by
  cases i with
  | wireShortRead | wireShortWrite | wirePagedRead => cases hi
  | _ => rfl

/-- What a wire frame makes of the staged request it is: the taking up of its kind of request. -/
def takeFrame (i : Instr) (k : Bool) (w : Option Window) (s : State) : State :=
  match i with
  | .wireShortRead addr len cs => s.takeShortRead k addr len cs
  | .wireShortWrite addr len payload cs => s.takeShortWrite k addr len payload cs
  | .wirePagedRead page count cs => s.takePagedRead k w page count cs
  | _ => s

/-- A wire frame's run is the run of the request it takes up. -/
theorem exec_frame {i : Instr} (hi : isCommand i = false) (s : State) : exec i s = runRequest (takeFrame i) s := by
  cases i with
  | wireShortRead | wireShortWrite | wirePagedRead => rfl
  | _ => cases hi

/-- A frame with its request staged runs to the end of its transaction. -/
theorem runRequest_staged {take : Bool → Option Window → State → State} {s : State} {k : Bool} {w : Option Window}
    {frame : List Byte} (he : s.engine = .request k w frame) :
    runRequest take s = .next (settleRequest s (take k w s)) := by
  simp only [runRequest, he]

/-- A frame with no request staged changes nothing (log 5). -/
theorem runRequest_unstaged {take : Bool → Option Window → State → State} {s : State}
    (he : ∀ k w frame, s.engine ≠ .request k w frame) : runRequest take s = .next s := by
  unfold runRequest
  split
  · exact absurd ‹_› (he _ _ _)
  · rfl

/-- A command word to an IDLE engine is issued and run. -/
theorem runCommand_idle {cmd : Option Instr} {s : State} (h : s.busy = false) :
    runCommand cmd s = .next (settle (s.issue cmd)) := by
  simp [runCommand, h]

/-! ## Due writes -/

section
variable {s : State} {rest : List Pending} {width : Width} {a : BusAddr} {v : Word}

theorem step_writeCmd (h : s.due (writeRegOp .cmd v) rest) : step s = { s with hostQ := rest }.writeCmd exec v := by
  rw [step_of_due h]
  simp only [land, writeRegOp, State.busWrite, target_reg]

theorem step_writeReg {r : Reg} (hr : r ≠ .cmd) (h : s.due (writeRegOp r v) rest) :
    step s = .next ({ s with hostQ := rest }.writeReg r v) := by
  rw [step_of_due h]
  simp only [land, writeRegOp, State.busWrite, target_reg]

theorem step_writeDump (ha : dumpWindow ≤ a.toNat) (ha' : a.toNat < recWindow) (hal : a.toNat % width.bytes = 0)
    (h : s.due (.write width a v) rest) :
    step s = .next ({ s with hostQ := rest }.guarded fun s =>
      s.dumpWrite (a.toNat - dumpWindow) (leBytes width.bytes v.toNat)) := by
  rw [step_of_due h]
  simp only [land, State.busWrite, target_dump _ _ ha ha' hal]

/-- The REC window ignores writes (R44). -/
theorem step_writeRecs (ha : recWindow ≤ a.toNat) (hal : a.toNat % width.bytes = 0)
    (h : s.due (.write width a v) rest) : step s = .next { s with hostQ := rest } := by
  rw [step_of_due h]
  simp only [land, State.busWrite, target_recs _ _ ha hal]

/-- Unmapped addresses ignore writes (R46). -/
theorem step_writeUnmapped (ha : 0x40 ≤ a.toNat) (ha' : a.toNat + width.bytes ≤ dumpWindow)
    (h : s.due (.write width a v) rest) : step s = .next { s with hostQ := rest } := by
  rw [step_of_due h]
  simp only [land, State.busWrite, target_unmapped _ _ ha ha']

/-- The registers that ignore every write, at any time (R44). -/
theorem step_writeReadOnly {r : Reg}
    (hr : r ∈ [Reg.csum, .lastcs, .progress, .reccnt, .rbuf 0, .rbuf 1, .rbuf 2, .rbuf 3])
    (h : s.due (writeRegOp r v) rest) : step s = .next { s with hostQ := rest } := by
  have hcmd : r ≠ .cmd := by rintro rfl; simp at hr
  rw [step_writeReg hcmd h]
  simp only [List.mem_cons, List.not_mem_nil, or_false] at hr
  rcases hr with rfl | rfl | rfl | rfl | rfl | rfl | rfl | rfl <;> rfl

/-- The bits written 1 in STATUS are cleared, at any time (R25). -/
theorem step_writeStatus (h : s.due (writeRegOp .status v) rest) :
    step s = .next { s with
      hostQ := rest
      done := s.done && !v.getLsbD 1
      prog := s.prog && !v.getLsbD 2
      haz := s.haz && !v.getLsbD 3 } :=
  step_writeReg (by decide) h

/-- A CTRL write with bit 31 clear sets CTRL's fields unless it is dropped (R23, R199). -/
theorem step_writeCtrl (hv : v.getLsbD 31 = false) (h : s.due (writeRegOp .ctrl v) rest) :
    step s = .next ({ s with hostQ := rest }.guarded fun s =>
      { s with cookieEn := v.getLsbD 0, ie := v.getLsbD 1, pie := v.getLsbD 2 }) := by
  rw [step_writeReg (by decide) h, State.writeReg, State.writeCtrl, hv]
  rfl

theorem State.guarded_busy {f : State → State} (h : s.busy = true) : s.guarded f = s.dropWrite := if_pos h

theorem State.guarded_idle {f : State → State} (h : s.busy = false) : s.guarded f = f s := by
  simp [State.guarded, h]

/-! ## Due reads -/

theorem step_readReg {r : Reg} (h : s.due (readRegOp r) rest) :
    step s = .next ({ s with hostQ := rest }.readReg .w32 r) := by
  rw [step_of_due h]
  simp only [land, readRegOp, State.busRead, target_reg]

theorem step_readUnmapped (ha : 0x40 ≤ a.toNat) (ha' : a.toNat + width.bytes ≤ dumpWindow)
    (h : s.due (.read width a) rest) : step s = .next ({ s with hostQ := rest }.returned 0) := by
  rw [step_of_due h]
  simp only [land, State.busRead, target_unmapped _ _ ha ha']

theorem step_readDump (ha : dumpWindow ≤ a.toNat) (ha' : a.toNat < recWindow) (hal : a.toNat % width.bytes = 0)
    (h : s.due (.read width a) rest) :
    step s = .next (if s.hidden then { s with hostQ := rest }.returnedAny width
      else { s with hostQ := rest }.returned (wordOf (s.dumpBytes (a.toNat - dumpWindow) width.bytes))) := by
  rw [step_of_due h]
  simp only [land, State.busRead, target_dump _ _ ha ha' hal]
  rfl

theorem step_readRecs (ha : recWindow ≤ a.toNat) (hal : a.toNat % width.bytes = 0) (h : s.due (.read width a) rest) :
    step s = .next (if s.hidesRec (a.toNat - recWindow) then { s with hostQ := rest }.returnedAny width
      else { s with hostQ := rest }.returned (wordOf (s.recBytes (a.toNat - recWindow) width.bytes))) := by
  rw [step_of_due h]
  simp only [land, State.busRead, target_recs _ _ ha hal]
  rfl

theorem State.hidden_eq_true_iff : s.hidden = true ↔ s.busy = true ∨ s.unseen = true := by
  simp [State.hidden]

theorem State.hidden_eq_false_iff : s.hidden = false ↔ s.busy = false ∧ s.unseen = false := by
  simp [State.hidden]

theorem State.hidesRec_eq_true_iff {o : Nat} :
    s.hidesRec o = true ↔ s.hidden = true ∨ s.reccnt.toNat ≤ o / entryBytes := by
  simp [State.hidesRec]

end

end Sys2Proof.Machine
end

section
/-! PROOF. Every step keeps the machine's invariant (10_state.md R26, R31, R34, R35, R39; 41_frames.md R109). -/

namespace Sys2Proof.Machine

/-! ## Instructions -/

theorem runCommand_inv {cmd : Option Instr} {s t : State} (h : s.Inv) (ht : runCommand cmd s = .next t) : t.Inv := by
  cases hb : s.busy with
  | true =>
    rw [runCommand_busy hb] at ht
    cases ht
    exact inv_congr h rfl rfl rfl rfl rfl rfl
  | false =>
    rw [runCommand_idle hb] at ht
    cases ht
    exact settle_inv (issue_inv cmd h)

theorem takeFrame_inv {i : Instr} {k : Bool} {w : Option Window} {s : State} (h : s.Inv) (hw : ∀ v ∈ w, Window.ok v) :
    (takeFrame i k w s).Inv := by
  unfold takeFrame
  split
  · exact takeShortRead_inv h.base
  · exact takeShortWrite_inv h.base
  · exact takePagedRead_inv h.base hw
  · exact h

theorem settleRequest_inv {s taken : State} (h : taken.Inv) : (settleRequest s taken).Inv :=
  drive_induct (fun _ _ h hm => micro_inv h hm) _ _ (tick_inv h)

/-- Every instruction keeps the invariant: a frame acts only as the staged request, whose window is legal then. -/
theorem exec_inv {i : Instr} {s t : State} (h : s.Inv) (ht : exec i s = .next t) : t.Inv := by
  cases hi : isCommand i with
  | true => exact runCommand_inv h (exec_command hi s ▸ ht)
  | false =>
    rw [exec_frame hi] at ht
    have hpos := h.engine
    unfold State.engineOk at hpos
    by_cases hs : ∃ k w frame, s.engine = .request k w frame
    · obtain ⟨k, w, frame, he⟩ := hs
      rw [he] at hpos
      rw [runRequest_staged he] at ht
      cases ht
      exact settleRequest_inv (takeFrame_inv h hpos.1)
    · rw [runRequest_unstaged fun k w frame he => hs ⟨k, w, frame, he⟩] at ht
      cases ht
      exact h

theorem engineTurn_inv {s t : State} (h : s.Inv) (ht : engineTurn exec s = .next t) : t.Inv := by
  unfold engineTurn at ht
  split at ht
  · split at ht
    · exact exec_inv h ht
    · cases ht
      exact settle_inv h
  · cases ht
    exact settle_inv h

/-! ## Host accesses -/

theorem writeCtrl_inv {s : State} (v : Word) (h : s.Inv) : (s.writeCtrl v).Inv := by
  unfold State.writeCtrl
  split
  · exact softReset_inv h
  · exact guarded_inv h (inv_congr h rfl rfl rfl rfl rfl rfl)

theorem writeReg_inv {s : State} (r : Reg) (v : Word) (h : s.Inv) : (s.writeReg r v).Inv := by
  cases r with
  | ctrl => exact writeCtrl_inv v h
  | status => exact inv_congr h rfl rfl rfl rfl rfl rfl
  | ptr | wbuf =>
    simp only [State.writeReg]
    refine guarded_inv h ?_
    exact inv_congr h rfl rfl rfl rfl rfl rfl
  | cmd | csum | lastcs | progress | reccnt | rbuf => exact h

theorem awaitDone_inv {s : State} (h : s.Inv) : s.awaitDone.Inv := by
  unfold State.awaitDone
  split
  · exact h
  · exact inv_congr h rfl rfl rfl rfl rfl rfl

theorem dumpWrite_inv {s : State} {a : Nat} {bs : List Byte} (h : s.Inv) (ha : a + bs.length ≤ dumpSize) :
    (s.dumpWrite a bs).Inv :=
  ⟨h.cfg, Memory.wf_store h.dump ha, h.recm, h.err, h.reccnt, h.engine⟩

theorem busWrite_inv {w : Width} {a : BusAddr} {v : Word} {s t : State} (h : s.Inv)
    (ht : s.busWrite exec w a v = .next t) : t.Inv := by
  unfold State.busWrite at ht
  split at ht
  · unfold State.writeCmd at ht
    split at ht
    · exact exec_inv (awaitDone_inv h) ht
    · exact runCommand_inv (awaitDone_inv h) ht
  · cases ht
    exact writeReg_inv _ _ h
  · cases ht
    exact h
  · cases ht
    exact guarded_inv h (dumpWrite_inv h (by rw [leBytes_length]; exact target_dump_bound ‹_›))
  · cases ht
    exact h
  · cases ht
  · cases ht

theorem busRead_inv {w : Width} {a : BusAddr} {s t : State} (h : s.Inv) (ht : s.busRead w a = .next t) : t.Inv := by
  obtain ⟨v, hv⟩ := busRead_next ht
  rw [hv]
  exact inv_congr h rfl rfl rfl rfl rfl rfl

theorem poll_inv {s t : State} (h : s.Inv) (ht : s.poll = .next t) : t.Inv := by
  unfold State.poll at ht
  cases ht
  split <;> exact inv_congr h rfl rfl rfl rfl rfl rfl

theorem land_inv {op : HostOp} {s t : State} (h : s.Inv) (ht : land exec op s = .next t) : t.Inv := by
  cases op with
  | read w a => exact busRead_inv h ht
  | write w a v => exact busWrite_inv h ht
  | cookie en =>
    cases ht
    exact writeCtrl_inv _ h
  | waitIdle => exact poll_inv h ht

/-- Settles O58: a step is the engine's turn or the landing of the host's next access, and both keep the invariant. -/
theorem everyStepKeepsTheInvariant : Obligations.EveryStepKeepsTheInvariant := by
  intro s t h ht
  unfold step turn at ht
  split at ht
  · exact engineTurn_inv h ht
  · split at ht
    · exact engineTurn_inv h ht
    · refine land_inv ?_ ht
      exact inv_congr h rfl rfl rfl rfl rfl rfl

end Sys2Proof.Machine
end

section
/-! PROOF. What a host access does: writes while BUSY and IDLE, reads, the CTRL write's interrupt masks, the soft reset,
and whose run a step is (10_state.md R23 to R44; 20_memory.md R46 to R57; 70_reset_and_hazards.md R192, R199, R200). -/

namespace Sys2Proof.Machine

/-! ## Whose run a step is -/

/-- A command word written to an IDLE engine lands whatever its gap, as the engine has no move to make. -/
theorem step_commandWord {s : State} {w : Word} {i : Instr} {gap : Nat} {rest : List Pending} (he : s.engine = .idle)
    (hq : s.hostQ = { gap := gap, op := writeRegOp .cmd w } :: rest) (hd : decodeCommand w = .ok i) :
    step s = exec i { s with hostQ := rest, unseen := true } := by
  rw [step_of_not_engineFirst hq (engineFirst_of_idle he hq)]
  simp only [land, writeRegOp, State.busWrite, target_reg, State.writeCmd, hd]
  rw [awaitDone_idle (by exact he)]

/-- Settles O39: the write lands at once, and its word runs as the instruction it decodes to. -/
theorem stepRunsTheCommandWord : Obligations.StepRunsTheCommandWord :=
  fun _ _ _ _ _ he hq hd => step_commandWord he hq hd

theorem micro_isSome_of_request {s : State} {k : Bool} {w : Option Window} {frame : List Byte}
    (he : s.engine = .request k w frame) : (micro s).isSome = true := by
  simp [micro, State.move, he]

/-- Settles O40: a staged request can always be taken up, so the engine goes first unless an access is due. -/
theorem stepRunsTheStagedRequest : Obligations.StepRunsTheStagedRequest := by
  intro s k w frame more i he hgap hd
  have hfirst : s.engineFirst = true := by
    unfold State.engineFirst
    split
    · rfl
    · have := hgap _ _ ‹_›
      simp only [Bool.and_eq_true, bne_iff_ne]
      exact ⟨by omega, micro_isSome_of_request he⟩
  rw [step_of_engineFirst hfirst]
  simp only [engineTurn, he, hd]

/-! ## Writes -/

/-- A command word that comes while a command is in flight is dropped, whether it decodes or not (R24). -/
theorem writeCmd_busy {s : State} (hb : s.busy = true) (v : Word) : s.writeCmd exec v = .next s.dropWrite := by
  unfold State.writeCmd
  rw [awaitDone_busy hb]
  split
  · exact exec_command_busy hb _ (isCommand_of_decode ‹_›)
  · exact runCommand_busy hb

/-- Settles O41: each write goes where its address says, and the guarded ones are dropped. -/
theorem writesWhileBusyAreDropped : Obligations.WritesWhileBusyAreDropped := by
  intro s rest hb
  have hb' : ({ s with hostQ := rest } : State).busy = true := hb
  refine ⟨fun v h => ?_, fun v hv h => ?_, fun v h => ?_, fun k v h => ?_, fun width a v ha ha' hal h => ?_,
    fun v h => step_writeStatus h, fun r v hr h => step_writeReadOnly hr h,
    fun width a v ha hal h => step_writeRecs ha hal h, fun width a v ha ha' h => step_writeUnmapped ha ha' h⟩
  · rw [step_writeCmd h, writeCmd_busy hb']
    rfl
  · rw [step_writeCtrl hv h, State.guarded_busy hb']
    rfl
  · rw [step_writeReg (by decide) h, State.writeReg, State.guarded_busy hb']
    rfl
  · rw [step_writeReg (by simp) h, State.writeReg, State.guarded_busy hb']
    rfl
  · rw [step_writeDump ha ha' hal h, State.guarded_busy hb']
    rfl

/-- Settles O42: the same writes where no command is in flight, so that the guarded ones take effect. -/
theorem writesWhileIdleTakeEffect : Obligations.WritesWhileIdleTakeEffect := by
  intro s rest he
  have hb : ({ s with hostQ := rest } : State).busy = false := (State.busy_eq_false_iff _).2 he
  refine ⟨fun v hv h => ?_, fun v h => ?_, fun k v h => ?_, fun v h => step_writeStatus h,
    fun r v hr h => step_writeReadOnly hr h, fun width a v ha hal h => step_writeRecs ha hal h,
    fun width a v ha ha' h => step_writeUnmapped ha ha' h⟩
  · rw [step_writeCtrl hv h, State.guarded_idle hb]
  · rw [step_writeReg (by decide) h, State.writeReg, State.guarded_idle hb]
  · rw [step_writeReg (by simp) h, State.writeReg, State.guarded_idle hb]
    exact ⟨_, rfl, rfl, bufWord_setBufWord _ _ _ k.isLt, fun j hj =>
      bufWord_setBufWord_ne _ _ _ _ j.isLt fun e => hj (Fin.ext e)⟩

theorem irq_eq_true_iff (s : State) :
    s.irq = true ↔ (s.done = true ∧ s.ie = true) ∨ (s.prog = true ∧ s.pie = true) := by
  simp [State.irq]

/-- Settles O47: irq is read off the flags and the masks, and the CTRL write sets the masks alone. -/
theorem ctrlMasksTheInterrupt : Obligations.CtrlMasksTheInterrupt := by
  intro s v rest he hv h
  obtain ⟨hctrl, -⟩ := writesWhileIdleTakeEffect s rest he
  exact ⟨_, hctrl v hv h, rfl, rfl, irq_eq_true_iff _⟩

/-! ## The soft reset -/

theorem softReset_of_nothing {s : State} (h : s.engine.abandoned = .nothing) : s.softReset = s.clearRegisters := by
  simp only [State.softReset, State.abandon, h]

theorem softReset_of_pages {s : State} {p0 n : Nat} (h : s.engine.abandoned = .pages p0 n) :
    s.softReset = (s.forgetPages p0 n).clearRegisters := by
  simp only [State.softReset, State.abandon, h]

theorem softReset_of_records {s : State} (h : s.engine.abandoned = .records) :
    s.softReset = s.forgetRec.clearRegisters := by
  simp only [State.softReset, State.abandon, h]

/-- Settles O48: the registers and the engine are as after power-on; each kind of abandoned command says what the RAMs
lose. -/
theorem softResetClearsTheMachine : Obligations.SoftResetClearsTheMachine := by
  intro s v rest hv h
  refine ⟨State.softReset { s with hostQ := rest }, ?_, ?_, fun ha => ?_, fun p0 n ha => ?_, fun ha => ?_⟩
  · rw [step_writeReg (by decide) h, State.writeReg, State.writeCtrl, if_pos hv]
  · unfold State.softReset State.abandon
    split <;> rfl
  · rw [softReset_of_nothing (by exact ha)]
    exact ⟨rfl, rfl, rfl⟩
  · rw [softReset_of_pages (by exact ha)]
    exact ⟨rfl, fun x => Memory.read_forget _ _ _ _⟩
  · rw [softReset_of_records (by exact ha)]
    exact ⟨rfl, fun x => rfl⟩

/-! ## Reads -/

/-- A register that shows its value: no result, or a result the host may see (R40, R57). -/
theorem readReg_shown {s : State} {r : Reg} (w : Width) (hr : r ≠ .status)
    (h : s.hidden = false ∨ r.hiddenWhileBusy = false) : s.readReg w r = s.returned (s.regWord r) := by
  have hshow : (s.hidden && r.hiddenWhileBusy) = false := by
    rcases h with h | h <;> simp [h]
  rw [State.readReg, hshow, if_neg Bool.false_ne_true, if_neg hr]

theorem readReg_hidden {s : State} {r : Reg} (w : Width) (h : s.hidden = true) (hr : r.hiddenWhileBusy = true) :
    s.readReg w r = s.returnedAny w := by
  rw [State.readReg, if_pos (by rw [h, hr]; rfl)]

/-- STATUS is never hidden, and reading it is what the host waits for (R57). -/
theorem readReg_status (w : Width) (s : State) : s.readReg w .status = (s.returned s.statusWord).observe := by
  simp [State.readReg, Reg.hiddenWhileBusy]

/-- Settles O44: each access reads where its address says, and what is hidden returns a free value. -/
theorem readsReturnWhatTheMapSays : Obligations.ReadsReturnWhatTheMapSays := by
  intro s rest
  refine ⟨fun r hr hs h => ?_, fun h => ?_, fun r hh hr h => ?_, fun width a ha ha' h => step_readUnmapped ha ha' h,
    fun width a ha ha' hal h => ⟨fun hb hu => ?_, fun hh => ?_⟩, fun width a ha hal h => ⟨fun hb hu hlt => ?_, fun hh => ?_⟩⟩
  · rw [step_readReg h, readReg_shown _ hr (by exact hs.imp_left State.hidden_eq_false_iff.2)]
    rfl
  · rw [step_readReg h, readReg_status]
    exact ⟨_, rfl, rfl, by simp [State.observe]⟩
  · rw [step_readReg h, readReg_hidden _ (by exact State.hidden_eq_true_iff.2 hh) hr]
    exact ⟨_, rfl⟩
  · rw [step_readDump ha ha' hal h, State.hidden_eq_false_iff.2 ⟨hb, hu⟩]
    rfl
  · rw [step_readDump ha ha' hal h, State.hidden_eq_true_iff.2 hh]
    exact ⟨_, rfl⟩
  · have hs : s.hidesRec (a.toNat - recWindow) = false := by
      rw [Bool.eq_false_iff, ne_eq, State.hidesRec_eq_true_iff, State.hidden_eq_false_iff.2 ⟨hb, hu⟩]
      rintro (h0 | hle)
      · cases h0
      · exact Nat.not_le.2 hlt hle
    rw [step_readRecs ha hal h, hs]
    rfl
  · have hs : s.hidesRec (a.toNat - recWindow) = true := by
      rw [State.hidesRec_eq_true_iff, State.hidden_eq_true_iff, or_assoc]
      exact hh
    rw [step_readRecs ha hal h, hs]
    exact ⟨_, rfl⟩

end Sys2Proof.Machine
end

section
/-! PROOF. What no instruction changes (10_state.md R27, R36; 70_reset_and_hazards.md R199), and the frames the engine does
not build (logs 5, 6). -/

namespace Sys2Proof.Machine

/-! ## The host's side of a run -/

/-- The host's registers are the same and its accesses to come are the same ones, perhaps nearer. -/
structure State.HostKept (s t : State) : Prop where
  same : State.HostSame { s with hostQ := t.hostQ } t
  ops : t.hostQ.map Pending.op = s.hostQ.map Pending.op

theorem State.HostKept.trans {s t u : State} (h : s.HostKept t) (h' : t.HostKept u) : s.HostKept u :=
  ⟨⟨h'.same.cfg.trans h.same.cfg, h'.same.cookieEn.trans h.same.cookieEn, h'.same.ie.trans h.same.ie,
    h'.same.pie.trans h.same.pie, h'.same.haz.trans h.same.haz, h'.same.ptr.trans h.same.ptr,
    h'.same.wbuf.trans h.same.wbuf, h'.same.draws.trans h.same.draws, h'.same.unseen.trans h.same.unseen, rfl,
    h'.same.busReads.trans h.same.busReads⟩, h'.ops.trans h.ops⟩

theorem State.HostSame.kept {s t : State} (h : s.HostSame t) : s.HostKept t where
  same := ⟨h.cfg, h.cookieEn, h.ie, h.pie, h.haz, h.ptr, h.wbuf, h.draws, h.unseen, Eq.refl _, h.busReads⟩
  ops := congrArg _ h.hostQ

theorem tick_hostKept (s : State) : s.HostKept s.tick where
  same := by constructor <;> rfl
  ops := by
    rw [State.tick_hostQ]
    cases s.hostQ <;> rfl

theorem micro_hostKept {s t : State} (h : micro s = some t) : s.HostKept t := by
  obtain ⟨u, hu, rfl⟩ := Option.map_eq_some_iff.1 h
  exact (State.move_hostSame hu).kept.trans (tick_hostKept u)

theorem drive_hostKept {go : Engine → Bool} (n : Nat) {s t : State} (h : s.HostKept t) : s.HostKept (drive go n t) :=
  drive_induct (P := s.HostKept) (fun _ _ ht hm => ht.trans (micro_hostKept hm)) n t h

theorem issue_hostSame (cmd : Option Instr) (s : State) : s.HostSame (s.issue cmd) := by constructor <;> rfl

theorem takeFrame_hostSame (i : Instr) (k : Bool) (w : Option Window) (s : State) : s.HostSame (takeFrame i k w s) := by
  unfold takeFrame
  split
  · exact State.takeShortRead_hostSame _ _ _ _ _
  · exact State.takeShortWrite_hostSame _ _ _ _ _ _
  · exact State.takePagedRead_hostSame _ _ _ _ _ _
  · exact .rfl

/-- An instruction that is not dropped leaves the host's side as it was. -/
theorem exec_hostKept {i : Instr} {s t : State} (h : (s.busy && isCommand i) = false) (ht : exec i s = .next t) :
    s.HostKept t := by
  cases hi : isCommand i with
  | true =>
    rw [hi, Bool.and_true] at h
    rw [exec_command hi, runCommand_idle h] at ht
    cases ht
    exact drive_hostKept _ (issue_hostSame _ s).kept
  | false =>
    rw [exec_frame hi] at ht
    by_cases hs : ∃ k w frame, s.engine = .request k w frame
    · obtain ⟨k, w, frame, he⟩ := hs
      rw [runRequest_staged he] at ht
      cases ht
      exact drive_hostKept _ ((takeFrame_hostSame i k w s).kept.trans (tick_hostKept _))
    · rw [runRequest_unstaged fun k w frame he => hs ⟨k, w, frame, he⟩] at ht
      cases ht
      exact State.HostSame.rfl.kept

/-- Settles O53: a command word that comes while BUSY sets HAZ alone; no other run touches the host's side. -/
theorem instructionsLeaveTheHostsRegisters : Obligations.InstructionsLeaveTheHostsRegisters := by
  intro i s t ht
  cases hd : s.busy && isCommand i with
  | true =>
    obtain ⟨hb, hi⟩ := Bool.and_eq_true_iff.1 hd
    rw [exec_command_busy hb i hi] at ht
    cases ht
    exact ⟨rfl, rfl, rfl, rfl, rfl, rfl, rfl, rfl, rfl, rfl, (Bool.or_true _).symm⟩
  | false =>
    obtain ⟨hsame, hops⟩ := exec_hostKept hd ht
    exact ⟨hsame.cfg, hsame.cookieEn, hsame.ie, hsame.pie, hsame.ptr, hsame.wbuf, hsame.draws, hsame.unseen,
      hsame.busReads, hops, hsame.haz.trans (Bool.or_false _).symm⟩

/-! ## Frames the engine does not build -/

theorem not_shortLenOk {len : Byte} (h : len.toNat < 1 ∨ 16 < len.toNat) : shortLenOk len = false := by
  rw [Bool.eq_false_iff, ne_eq, shortLenOk_iff]
  omega

theorem takeShortRead_bad (k : Bool) (addr cs : Byte) {len : Byte} (s : State) (h : len.toNat < 1 ∨ 16 < len.toNat) :
    s.takeShortRead k addr len cs = s.raiseJob (.shortRead len.toNat) .badRequest := by
  rw [State.takeShortRead, not_shortLenOk h]
  rfl

theorem takeShortWrite_bad (k : Bool) (addr cs : Byte) {len : Byte} {payload : List Byte} (s : State)
    (h : len.toNat < 1 ∨ 16 < len.toNat ∨ payload.length ≠ len.toNat) :
    s.takeShortWrite k addr len payload cs = s.raiseJob .shortWrite .badRequest := by
  have hbad : (shortLenOk len && payload.length == len.toNat) = false := by
    rcases or_assoc.2 h with hlen | hpay
    · rw [not_shortLenOk hlen, Bool.false_and]
    · rw [beq_false_of_ne hpay, Bool.and_false]
  rw [State.takeShortWrite, hbad]
  rfl

theorem takePagedRead_bad (k : Bool) (w : Option Window) (page cs : Byte) {count : Byte} (s : State) (h : count ≠ 1) :
    s.takePagedRead k w page count cs = s.raiseJob (.pagedRead (windowOf w page) page.toNat) .badRequest :=
  if_neg h

/-- A command that fails inside a transaction ends it: nothing more is sent, offered or asked for. -/
theorem raiseJob_ends (job : Job) (e : Err) (s : State) :
    (s.raiseJob job e).engine = .idle ∧ (s.raiseJob job e).done = true ∧ (s.raiseJob job e).err = e ∧
      (s.raiseJob job e).txSent = s.txSent ∧ (s.raiseJob job e).txQ = s.txQ ∧ (s.raiseJob job e).rxQ = s.rxQ := by
  cases job <;> exact ⟨rfl, rfl, rfl, rfl, rfl, rfl⟩

/-- Settles O23: a frame that is not staged is not the engine's to send; a staged one of a bad form is not taken up, and
its command ends where it stands. -/
theorem framesTheEngineDoesNotBuild : Obligations.FramesTheEngineDoesNotBuild := by
  refine ⟨fun i s hi he => (exec_frame hi s).trans (runRequest_unstaged he), fun i s k w frame he hq hbad => ?_⟩
  obtain ⟨hi, job, htake⟩ : isCommand i = false ∧ ∃ job, takeFrame i k w s = s.raiseJob job .badRequest := by
    cases i with
    | wireShortRead addr len cs => exact ⟨rfl, _, takeShortRead_bad k addr cs s hbad⟩
    | wireShortWrite addr len payload cs => exact ⟨rfl, _, takeShortWrite_bad k addr cs s hbad⟩
    | wirePagedRead page count cs => exact ⟨rfl, _, takePagedRead_bad k w page cs s hbad⟩
    | _ => exact hbad.elim
  have hends := raiseJob_ends job .badRequest s
  refine ⟨s.raiseJob job .badRequest, ?_, hends⟩
  rw [exec_frame hi]
  exact runRequest_eq (n := 0) he hq ((takeFrame_hostSame i k w s).hostQ.trans hq) (congrArg some htake)
    (.inl (micro_of_idle hends.1)) (by decide)

end Sys2Proof.Machine
end

section
/-! PROOF. The entries a LOG command leaves in REC RAM: read back when they are committed, none after an error
(10_state.md R31, R35; 60_exceptions.md R178). -/

namespace Sys2Proof.Machine

/-! ## Committed entries -/

/-- Entries written from entry `n` on leave the bytes before it. -/
theorem read_storeEntries_before {m : Memory} {n x : Nat} {es : List Entry} (hx : x < entryBytes * n) :
    (storeEntries m n es).read x = m.read x := by
  induction es generalizing m n with
  | nil => rfl
  | cons e es ih =>
    rw [storeEntries, ih (by rw [Nat.mul_succ]; omega)]
    exact Memory.read_store_outside (.inl hx)

/-- Byte `j` of the `i`-th of the entries written from entry `n` on. -/
theorem read_storeEntries {m : Memory} {n i j : Nat} {es : List Entry} (hi : i < es.length) (hj : j < entryBytes) :
    (storeEntries m n es).read (entryBytes * (n + i) + j) = es[i].bytes[j]? := by
  induction es generalizing m n i with
  | nil => cases hi
  | cons e es ih =>
    rw [storeEntries]
    cases i with
    | zero =>
      have hin : entryBytes * n ≤ entryBytes * n + j ∧ entryBytes * n + j < entryBytes * n + e.bytes.length := by
        rw [Entry.bytes_length]
        omega
      rw [Nat.add_zero n, read_storeEntries_before (by rw [Nat.mul_succ]; omega), Memory.read_store, if_pos hin,
        Nat.add_sub_cancel_left]
      rfl
    | succ i =>
      rw [← Nat.succ_add_eq_add_succ n i]
      exact ih (Nat.lt_of_succ_lt_succ hi)

/-- An entry written is the entry read (R35). -/
theorem entryAt_of_storeEntries {s : State} {m : Memory} {es : List Entry} (hs : s.recm = storeEntries m 0 es) {i : Nat}
    (hi : i < es.length) : s.entryAt i = es[i].bytes := by
  have hbyte : ∀ j, (h : j < entryBytes) → s.recByte (entryBytes * i + j) = es[i].bytes[j]'(by simpa using h) := by
    intro j hj
    have hread := read_storeEntries (m := m) (n := 0) hi hj
    rw [Nat.zero_add, List.getElem?_eq_getElem (by simpa using hj)] at hread
    rw [State.recByte, hs, hread, Option.getD_some]
  apply List.ext_getElem
  · simp [State.entryAt]
  · intro j hj _
    simp only [State.entryAt, List.getElem_map, List.getElem_range]
    exact hbyte j (by simpa [State.entryAt] using hj)

theorem commitLog_committed {r : LogRun} {s : State} (hf : r.fault = .none) (hl : r.entries.length ≤ s.cfg.recCap) :
    s.commitLog r = State.finishLog r.entries.length { s with recm := storeEntries s.recm 0 r.entries } := by
  rw [State.commitLog, if_neg (Nat.not_lt.2 hl), if_pos hf]

/-- Settles O31: the entries are written one after another, each at its own 32 bytes, and RECCNT holds every count up to
REC_CAP. -/
theorem committedEntriesAreReadBack : Obligations.CommittedEntriesAreReadBack := by
  intro r s hc hf hl
  rw [commitLog_committed hf hl]
  refine ⟨?_, rfl, rfl, fun i hi => entryAt_of_storeEntries rfl hi⟩
  obtain ⟨-, hcap, -⟩ := hc
  exact Nat.mod_eq_of_lt (by omega)

/-! ## A LOG command that fails -/

/-- A LOG command is in flight. -/
def Engine.logging : Engine → Bool
  | .issued _ cmd => cmd.any isLog
  | .walkEff _ _ _ _ _ => true
  | .walkProf _ _ _ _ => true
  | .perPage _ _ _ _ => true
  | .perRecords _ _ _ _ _ _ _ => true
  | _ => false

/-- RECCNT and ERR as the issue of a LOG command leaves them. -/
def State.LogOpen (s : State) : Prop := s.reccnt = 0 ∧ s.err = .none

/-- A LOG command runs with RECCNT and ERR as at issue, or has ended: with no error, or with no entry and no REC byte. -/
def State.LogRuns (s : State) : Prop :=
  (s.engine.logging = true ∧ s.LogOpen) ∨ (s.engine = .idle ∧ (s.err = .none ∨ (s.reccnt = 0 ∧ s.recm = [])))

theorem with_engine_logRuns {s : State} {e : Engine} (he : e.logging = true) (h : s.LogOpen) :
    State.LogRuns { s with engine := e } := .inl ⟨he, h⟩

theorem finishLog_logRuns (n : Nat) (s : State) : (s.finishLog n).LogRuns := .inr ⟨rfl, .inl rfl⟩

theorem raiseLog_logRuns {s : State} (e : Err) (h : s.LogOpen) : (s.raiseLog e).LogRuns := .inr ⟨rfl, .inr ⟨h.1, rfl⟩⟩

theorem emit_logRuns {s : State} {n : Nat} {e : Entry} {next : Nat → State → State} (h : s.LogOpen)
    (hnext : ∀ n t, State.LogOpen t → (next n t).LogRuns) : (s.emit n e next).LogRuns := by
  unfold State.emit
  split
  · exact raiseLog_logRuns _ h
  · exact hnext _ _ h

theorem nextEff_logRuns {s : State} (base p sl : Nat) (slot : List Byte) (n : Nat) (h : s.LogOpen) :
    (s.nextEff base p sl slot n).LogRuns := by
  unfold State.nextEff
  split
  · exact finishLog_logRuns _ _
  · exact with_engine_logRuns rfl h

theorem stepEff_logRuns {s : State} (base p sl : Nat) (prev : Option (List Byte)) (n : Nat) (h : s.LogOpen) :
    (s.stepEff base p sl prev n).LogRuns := by
  unfold State.stepEff
  split
  · exact nextEff_logRuns _ _ _ _ _ h
  · split
    · exact emit_logRuns h fun _ _ ht => nextEff_logRuns _ _ _ _ _ ht
    · exact nextEff_logRuns _ _ _ _ _ h

theorem stepProf_logRuns {s : State} (base off o n : Nat) (h : s.LogOpen) : (s.stepProf base off o n).LogRuns := by
  refine emit_logRuns h fun _ _ ht => ?_
  unfold State.nextProf
  split
  · exact finishLog_logRuns _ _
  · exact with_engine_logRuns rfl ht

theorem perConsume_logRuns {s : State} (base p g c mask : Nat) (stop : SectionEnd) (bound n : Nat) (h : s.LogOpen) :
    (s.perConsume base p g c mask stop bound n).LogRuns := by
  unfold State.perConsume
  split
  · exact raiseLog_logRuns _ h
  · exact emit_logRuns h fun _ _ ht => with_engine_logRuns rfl ht

theorem stepPerRecords_logRuns {s : State} (base p g c mask : Nat) (stop : SectionEnd) (n : Nat) (h : s.LogOpen) :
    (s.stepPerRecords base p g c mask stop n).LogRuns := by
  unfold State.stepPerRecords
  split <;> split
  · exact finishLog_logRuns _ _
  · exact perConsume_logRuns _ _ _ _ _ _ _ _ h
  · exact perConsume_logRuns _ _ _ _ _ _ _ _ h
  · exact with_engine_logRuns rfl h

theorem beginLogEff_logRuns {s : State} (a : Byte) (h : s.LogOpen) : (s.beginLogEff a).LogRuns := by
  unfold State.beginLogEff
  split
  · exact raiseLog_logRuns _ h
  · split
    · exact raiseLog_logRuns _ h
    · split
      · exact finishLog_logRuns _ _
      · exact with_engine_logRuns rfl h

theorem beginLogProf_logRuns {s : State} (a : Byte) (h : s.LogOpen) : (s.beginLogProf a).LogRuns := by
  unfold State.beginLogProf
  split
  · exact raiseLog_logRuns _ h
  · split
    · exact finishLog_logRuns _ _
    · exact with_engine_logRuns rfl h

theorem beginLogPer_logRuns {s : State} (a : Byte) (h : s.LogOpen) : (s.beginLogPer a).LogRuns := by
  unfold State.beginLogPer
  split
  · exact raiseLog_logRuns _ h
  · split
    · exact raiseLog_logRuns _ h
    · split
      · exact finishLog_logRuns _ _
      · exact with_engine_logRuns rfl h

theorem beginCommand_logRuns {s : State} (k : Bool) {cmd : Option Instr} (hl : cmd.any isLog = true) (h : s.LogOpen) :
    (s.beginCommand k cmd).LogRuns := by
  cases cmd with
  | none => cases hl
  | some i =>
    cases i with
    | logEff a b => exact beginLogEff_logRuns a h
    | logProf a b => exact beginLogProf_logRuns a h
    | logPer a b => exact beginLogPer_logRuns a h
    | _ => cases hl

/-- Only the moves of a LOG command can come while one runs, and none after it has ended. -/
theorem move_logRuns {s t : State} (h : s.LogRuns) (hm : s.move = some t) : t.LogRuns := by
  unfold State.move at hm
  obtain ⟨he, h⟩ | ⟨he, -⟩ := h
  · split at hm <;> rename_i heq <;> rw [heq] at he
    case h_2 => cases hm; exact beginCommand_logRuns _ he h
    case h_10 => cases hm; exact stepEff_logRuns _ _ _ _ _ h
    case h_11 => cases hm; exact stepProf_logRuns _ _ _ _ h
    case h_12 => cases hm; exact with_engine_logRuns rfl h
    case h_13 => cases hm; exact stepPerRecords_logRuns _ _ _ _ _ _ _ h
    all_goals cases he
  · rw [he] at hm
    cases hm

theorem micro_logRuns {s t : State} (h : s.LogRuns) (hm : micro s = some t) : t.LogRuns := by
  obtain ⟨u, hu, rfl⟩ := Option.map_eq_some_iff.1 hm
  have hruns : u.LogRuns := move_logRuns h hu
  exact hruns

theorem isCommand_of_isLog {i : Instr} (h : isLog i = true) : isCommand i = true := by
  cases i with
  | logEff | logProf | logPer => rfl
  | _ => cases h

theorem issue_logRuns {i : Instr} (hl : isLog i = true) (s : State) : (s.issue (some i)).LogRuns :=
  .inl ⟨hl, by rw [State.LogOpen, State.issue_reccnt, if_pos (by exact hl)]; exact ⟨rfl, rfl⟩⟩

/-- Settles O34: from issue on the command runs with RECCNT 0 and no error, so an error it ends with is one that made
REC RAM unspecified. -/
theorem failedLogLeavesNoEntries : Obligations.FailedLogLeavesNoEntries := by
  intro i s t hr hl ht _ herr
  rw [exec_command (isCommand_of_isLog hl), runCommand_idle ((State.busy_eq_false_iff s).2 hr.1)] at ht
  cases ht
  have hruns : (settle (s.issue (some i))).LogRuns := drive_induct (fun _ _ => micro_logRuns) _ _ (issue_logRuns hl s)
  rcases hruns with ⟨-, -, hnone⟩ | ⟨-, hnone | ⟨hcnt, hrec⟩⟩
  · exact absurd hnone herr
  · exact absurd hnone herr
  · exact ⟨hcnt, fun x => by rw [hrec]; rfl⟩

end Sys2Proof.Machine
end

section
/-! PROOF. A transport that stops answering leaves the command waiting, BUSY, until a soft reset ends it
(70_reset_and_hazards.md R192, R203). -/

namespace Sys2Proof.Machine

/-- From its first move command `i`, issued in `s`, comes to `u`, where the first byte of the request `req` is next to be
offered, for a response of `n` bytes. It takes at most 68600 micro-steps: 255 windows of 269 each and the start of another,
the most a PREAD has before its last request (R102). The longest request is a short write's, the longest response a page's. -/
structure State.Offers (s : State) (i : Instr) (req : List Byte) (n : Nat) (k : Bool) (job : Job) (u : State) : Prop where
  run : ∃ m, m ≤ 68600 ∧ microN m ((s.issue (some i)).beginCommand s.cookieEn (some i)) = some u
  engine : u.engine = .sending k job req n
  hostQ : u.hostQ = []
  acc : u.acc = 0
  reqLength : req.length ≤ 21
  respLength : n ≤ 258

section
variable {s u : State} {i : Instr} {req : List Byte} {n : Nat} {k : Bool} {job : Job}

/-- The request of a transaction just taken up is next to be sent, and ACC is 0 (R93). -/
theorem offers_of_startTransact {t : State} {frame : List Byte} (hq : t.hostQ = []) {m : Nat} (hm : m < 68600)
    (hreq : (cookieBytes k ++ frame).length ≤ 21) (hresp : n ≤ 258)
    (h : microN m ((s.issue (some i)).beginCommand s.cookieEn (some i)) = some (t.startTransact k job frame n)) :
    s.Offers i (cookieBytes k ++ frame) n k job
      { t with lastcs := frame.getLastD 0, acc := 0, engine := .sending k job (cookieBytes k ++ frame) n } where
  run := by
    refine ⟨m + 1, hm, microN_add h (microN_succ (n := 0) ?_ rfl)⟩
    rw [micro_eq_move (by exact hq)]
    rfl
  engine := rfl
  hostQ := hq
  acc := rfl
  reqLength := hreq
  respLength := hresp

/-- A run that stops at a state whose engine is in a transaction and cannot move leaves the command waiting there. -/
theorem waits_at {t : State} (hr : s.ready) (h : s.Offers i req n k job u) {m : Nat} (hm : m ≤ 300)
    (hrun : microN m u = some t) (hb : t.busy = true) (hstuck : micro t = none) :
    runCommand (some i) s = .next t ∧ t.waits t.softReset := by
  obtain ⟨m0, hm0, h0⟩ := h.run
  exact ⟨runCommand_begun hr (microN_add h0 hrun) hstuck (by unfold microBound; omega),
    waits_of_stuck hb (runN_hostQ_nil hrun h.hostQ) hstuck⟩

/-- No answer to byte `j` of the request: it stays on offer, the bytes before it sent (R93, R203). -/
theorem waits_on_tx (hr : s.ready) (h : s.Offers i req n k job u) {j : Nat} (hj : j < req.length)
    (ht : u.txQ = List.replicate j .ok) :
    ∃ t, runCommand (some i) s = .next t ∧ t.waits t.softReset ∧ t.txOffer = req[j]? ∧
      t.txSent = u.txSent ++ req.take j ∧ t.dump = u.dump ∧ t.engine.abandoned = abandonedJob job := by
  have hreq := h.reqLength
  have hlen : (req.take j).length = j := by rw [List.length_take]; omega
  have hsplit : req = req.take j ++ req[j] :: req.drop (j + 1) := by
    rw [← List.drop_eq_getElem_cons, List.take_append_drop]
  have hrun := runN_sending_prefix letsTransact_true k job (req.take j) (req[j] :: req.drop (j + 1)) n [] u
    (by rw [h.engine, ← hsplit]) (by rw [hlen, List.append_nil, ht]) h.hostQ
  obtain ⟨hc, hw⟩ := waits_at hr h (by omega) hrun rfl (micro_sending_silent rfl rfl)
  exact ⟨_, hc, hw, (List.getElem?_eq_getElem hj).symm, rfl, rfl, rfl⟩

/-- No answer to the request for a byte of the response: it stays asked for, the request sent and the bytes `got` before
it summed in ACC (R93, R203). -/
theorem waits_on_rx (hr : s.ready) (h : s.Offers i req n k job u) {got : List Byte} {tq : List TxAnswer}
    (hg : got.length < n) (ht : u.txQ = List.replicate req.length .ok ++ tq)
    (hrx : u.rxQ = got.map .byte) :
    ∃ t, runCommand (some i) s = .next t ∧ t.waits t.softReset ∧ t.rxAsks = true ∧ t.txSent = u.txSent ++ req ∧
      t.acc = byteSum got ∧ t.dump = u.dump ∧ t.engine.abandoned = abandonedJob job := by
  have hreq := h.reqLength
  have hresp := h.respLength
  obtain ⟨left, rfl⟩ : ∃ left, n = got.length + (left + 1) := ⟨n - got.length - 1, by omega⟩
  have hsend := runN_sending letsTransact_true k job req _ tq u h.engine ht h.hostQ
  have hrecv := runN_receiving letsTransact_true k job got [] (left + 1) []
    { u with txQ := tq, txSent := u.txSent ++ req, engine := .receiving k job [] (got.length + (left + 1)) } rfl
    (by rw [List.append_nil]; exact hrx) h.hostQ
  obtain ⟨hc, hw⟩ := waits_at hr h (by omega) (microN_add hsend hrecv) rfl (micro_receiving_silent rfl rfl)
  exact ⟨_, hc, hw, rfl, rfl, by rw [h.acc]; exact BitVec.zero_add _, rfl, rfl⟩

/-- A soft reset keeps DUMP unless it abandons the pages of a paged read (R192). -/
theorem softReset_dump_of_job {t : State} (ha : t.engine.abandoned = abandonedJob job)
    (hj : ∀ w page, job ≠ .pagedRead w page) : t.softReset.dump = t.dump := by
  refine softReset_dump fun p0 m => ?_
  rw [ha]
  cases job with
  | shortRead _ => nofun
  | shortWrite => nofun
  | pagedRead w page => exact absurd rfl (hj w page)

end

/-! ## The three transactions up to their request -/

/-- Command `i` comes to `u` before its request `req`, with the bytes `sent` of earlier requests sent and the answers `tq`
and `rq` still to come; only a paged read can have changed DUMP by then, or lose any of it to a soft reset (R192). -/
structure State.OffersAfter (s : State) (i : Instr) (sent req : List Byte) (n : Nat) (tq : List TxAnswer)
    (rq : List RxAnswer) (k : Bool) (job : Job) (u : State) : Prop where
  offers : s.Offers i req n k job u
  txQ : u.txQ = tq
  rxQ : u.rxQ = rq
  txSent : u.txSent = s.txSent ++ sent
  dump : (∀ c d, i ≠ .pread c d) → u.dump = s.dump ∧ ∀ w page, job ≠ .pagedRead w page

section
variable {s : State} {a b : Byte}

theorem offers_sread (hr : s.ready) (h1 : 1 ≤ b.toNat) (h2 : b.toNat ≤ 16) :
    ∃ k job u, s.OffersAfter (.sread a b) [] (cookieBytes s.cookieEn ++ shortReadRequest a b)
      (cookieLen s.cookieEn + b.toNat + 1) s.txQ s.rxQ k job u := by
  have hc := cookieLen_le s.cookieEn
  have hlen : (cookieBytes s.cookieEn ++ shortReadRequest a b).length ≤ 21 := by
    rw [List.length_append, cookieBytes_length, shortReadRequest_length]
    omega
  exact ⟨_, _, _, offers_of_startTransact (by exact hr.2) (by decide) hlen (by omega) (microN_beginSread hr h1 h2), rfl,
    rfl, (List.append_nil _).symm, fun _ => ⟨rfl, nofun⟩⟩

theorem offers_swrite (hr : s.ready) (h1 : 1 ≤ b.toNat) (h2 : b.toNat ≤ 16) :
    ∃ k job u, s.OffersAfter (.swrite a b) []
      (cookieBytes s.cookieEn ++ shortWriteRequest a b (s.wbuf.toList.take b.toNat)) (cookieLen s.cookieEn + 1) s.txQ s.rxQ
      k job u := by
  have hc := cookieLen_le s.cookieEn
  have hlen : (cookieBytes s.cookieEn ++ shortWriteRequest a b (s.wbuf.toList.take b.toNat)).length ≤ 21 := by
    have hp := List.length_take_le b.toNat s.wbuf.toList
    rw [List.length_append, cookieBytes_length, shortWriteRequest_length]
    omega
  exact ⟨_, _, _, offers_of_startTransact (by exact hr.2) (by decide) hlen (by omega) (microN_beginSwrite hr h1 h2), rfl,
    rfl, (List.append_nil _).symm, fun _ => ⟨rfl, nofun⟩⟩

theorem offers_pread {resps : List (List Byte)} {tq : List TxAnswer} {rq : List RxAnswer} (hr : s.ready)
    (hab : a.toNat + b.toNat ≤ 256) (hlt : resps.length < b.toNat)
    (hg : ∀ resp ∈ resps, goodResponse s.cookieEn devPage resp)
    (ha : s.answers (pageRequests s.cookieEn a.toNat resps.length) resps.flatten tq rq) :
    ∃ k job u, s.OffersAfter (.pread a b) (pageRequests s.cookieEn a.toNat resps.length)
      (cookieBytes s.cookieEn ++ pagedReadRequest (a + BitVec.ofNat 8 resps.length))
      (cookieLen s.cookieEn + devPage + 1) tq rq k job u := by
  have hc := cookieLen_le s.cookieEn
  have hb := b.isLt
  obtain ⟨m, hm, h⟩ := microN_beginPread_window hr hab hlt hg ha
  have hlen : (cookieBytes s.cookieEn ++ pagedReadRequest (a + BitVec.ofNat 8 resps.length)).length ≤ 21 := by
    rw [List.length_append, cookieBytes_length, pagedReadRequest_length]
    omega
  exact ⟨_, _, _, ⟨⟨m, by omega, h⟩, rfl, hr.2, rfl, hlen, by unfold devPage; omega⟩, rfl, rfl, rfl,
    fun hp => absurd rfl (hp a b)⟩

end

/-- Settles O50: each transaction comes to its request with the answers before it used up, and waits in it where the
answers end. -/
theorem silentTransportLeavesTheCommandWaiting : Obligations.SilentTransportLeavesTheCommandWaiting := by
  intro a b s i sent received req n hr hi
  obtain ⟨hcmd, hoffers⟩ : isCommand i = true ∧ ∀ tq rq,
      s.txQ = List.replicate sent.length .ok ++ tq → s.rxQ = received.map .byte ++ rq →
      ∃ k job u, s.OffersAfter i sent req n tq rq k job u := by
    rcases hi with ⟨rfl, h1, h2, rfl, rfl, rfl, rfl⟩ | ⟨rfl, h1, h2, rfl, rfl, rfl, rfl⟩ |
      ⟨rfl, hab, rfl, resps, hlt, hg, rfl, rfl, rfl⟩
    · refine ⟨rfl, ?_⟩
      rintro tq rq rfl rfl
      exact offers_sread hr h1 h2
    · refine ⟨rfl, ?_⟩
      rintro tq rq rfl rfl
      exact offers_swrite hr h1 h2
    · exact ⟨rfl, fun tq rq ht hrx => offers_pread hr hab hlt hg ⟨ht, hrx⟩⟩
  rw [exec_command hcmd]
  refine ⟨fun j rq hj ht hrx => ?_, fun got tq hg ht hrx => ?_⟩
  · rw [List.replicate_add] at ht
    obtain ⟨k, job, u, h⟩ := hoffers _ _ ht hrx
    obtain ⟨t, hc, hw, hoffer, hsent, hdump, haband⟩ := waits_on_tx hr h.offers hj h.txQ
    refine ⟨t, _, hc, hw, hoffer, by rw [hsent, h.txSent, List.append_assoc], fun hp => ?_⟩
    rw [softReset_dump_of_job haband (h.dump hp).2, hdump, (h.dump hp).1]
  · rw [List.replicate_add, List.append_assoc] at ht
    rw [List.map_append] at hrx
    obtain ⟨k, job, u, h⟩ := hoffers _ _ ht hrx
    obtain ⟨t, hc, hw, hasks, hsent, hacc, hdump, haband⟩ := waits_on_rx hr h.offers hg h.txQ h.rxQ
    refine ⟨t, _, hc, hw, hasks, by rw [hsent, h.txSent, List.append_assoc], hacc, fun hp => ?_⟩
    rw [softReset_dump_of_job haband (h.dump hp).2, hdump, (h.dump hp).1]

end Sys2Proof.Machine
end

section
/-! PROOF. The register words' fields (10_state.md R23, R25, R28, R30) and their values after power-on (R41, R191). -/

namespace Sys2Proof.Machine

/-! ## Fields of a word given as a number -/

/-- A bit of a word, read off the number it stands for. -/
theorem getLsbD_ofNat_of_digit {n k : Nat} {b : Bool} (hk : k < 32) (h : n / 2 ^ k % 2 = b.toNat) :
    (BitVec.ofNat 32 n).getLsbD k = b := by
  rw [BitVec.getLsbD_ofNat, Nat.testBit_eq_decide_div_mod_eq, h]
  cases b <;> simp [hk]

/-- A field of a word, read off the number it stands for. -/
theorem extractLsb'_ofNat_toNat {n lo len : Nat} (hn : n < 2 ^ 32) :
    ((BitVec.ofNat 32 n).extractLsb' lo len).toNat = n / 2 ^ lo % 2 ^ len := by
  rw [BitVec.extractLsb'_toNat, BitVec.toNat_ofNat, Nat.mod_eq_of_lt hn, Nat.shiftRight_eq_div_pow]

theorem bitAt_eq (b : Bool) (k : Nat) : bitAt b k = b.toNat * 2 ^ k := by
  cases b <;> simp [bitAt]

theorem Err.code_lt (e : Err) : e.code < 8 := by cases e <;> decide

/-- STATUS's number: one bit a flag, and ERR in bits 6:4 (R25). -/
theorem statusWord_eq (s : State) :
    s.statusWord = BitVec.ofNat 32 (s.busy.toNat + s.done.toNat * 2 + s.prog.toNat * 4 + s.haz.toNat * 8 +
      s.err.code * 16 + s.cz.toNat * 256) := by
  simp only [State.statusWord, bitAt_eq]
  congr 1
  omega

theorem ctrlWord_eq (s : State) :
    s.ctrlWord = BitVec.ofNat 32 (s.cookieEn.toNat + s.ie.toNat * 2 + s.pie.toNat * 4) := by
  simp only [State.ctrlWord, bitAt_eq]
  congr 1
  omega

/-- STATUS's fields at their bits, 0 elsewhere (R25). -/
theorem statusWord_fields (s : State) :
    s.statusWord.getLsbD 0 = s.busy ∧ s.statusWord.getLsbD 1 = s.done ∧ s.statusWord.getLsbD 2 = s.prog ∧
      s.statusWord.getLsbD 3 = s.haz ∧ (s.statusWord.extractLsb' 4 3).toNat = s.err.code ∧
      s.statusWord.getLsbD 7 = false ∧ s.statusWord.getLsbD 8 = s.cz ∧ s.statusWord.extractLsb' 9 23 = 0 := by
  have hbusy := s.busy.toNat_le
  have hdone := s.done.toNat_le
  have hprog := s.prog.toNat_le
  have hhaz := s.haz.toNat_le
  have hcz := s.cz.toNat_le
  have herr := s.err.code_lt
  rw [statusWord_eq]
  refine ⟨getLsbD_ofNat_of_digit (by decide) ?_, getLsbD_ofNat_of_digit (by decide) ?_,
    getLsbD_ofNat_of_digit (by decide) ?_, getLsbD_ofNat_of_digit (by decide) ?_,
    (extractLsb'_ofNat_toNat (by omega)).trans ?_, getLsbD_ofNat_of_digit (by decide) ?_,
    getLsbD_ofNat_of_digit (by decide) ?_, BitVec.eq_of_toNat_eq ((extractLsb'_ofNat_toNat (by omega)).trans ?_)⟩
  case refine_6 => rw [Bool.toNat_false]; omega
  case refine_8 => show _ = 0; omega
  all_goals omega

/-- CTRL's fields at their bits, 0 elsewhere (R23). -/
theorem ctrlWord_fields (s : State) :
    s.ctrlWord.getLsbD 0 = s.cookieEn ∧ s.ctrlWord.getLsbD 1 = s.ie ∧ s.ctrlWord.getLsbD 2 = s.pie ∧
      s.ctrlWord.extractLsb' 3 29 = 0 := by
  have hcookie := s.cookieEn.toNat_le
  have hie := s.ie.toNat_le
  have hpie := s.pie.toNat_le
  rw [ctrlWord_eq]
  refine ⟨getLsbD_ofNat_of_digit (by decide) ?_, getLsbD_ofNat_of_digit (by decide) ?_,
    getLsbD_ofNat_of_digit (by decide) ?_, BitVec.eq_of_toNat_eq ((extractLsb'_ofNat_toNat (by omega)).trans ?_)⟩
  case refine_4 => show _ = 0; omega
  all_goals omega

theorem bytePair_toNat (hi lo : Byte) : ((0 : BitVec 16) ++ hi ++ lo).toNat = lo.toNat + 2 ^ 8 * hi.toNat := by
  have hhi := hi.isLt
  rw [BitVec.toNat_append, BitVec.toNat_append, ← Nat.shiftLeft_add_eq_or_of_lt lo.isLt,
    ← Nat.shiftLeft_add_eq_or_of_lt hhi]
  simp only [Nat.shiftLeft_eq, show (0 : BitVec 16).toNat = 0 from rfl]
  omega

/-- Two bytes in a word's low half, 0 in its high half: how CSUM and PROGRESS are laid out (R28, R30). -/
theorem bytePair_fields (hi lo : Byte) :
    ((0 : BitVec 16) ++ hi ++ lo).extractLsb' 0 8 = lo ∧ ((0 : BitVec 16) ++ hi ++ lo).extractLsb' 8 8 = hi ∧
      ((0 : BitVec 16) ++ hi ++ lo).extractLsb' 16 16 = 0 := by
  have hhi := hi.isLt
  have hlo := lo.isLt
  refine ⟨BitVec.eq_of_toNat_eq ?_, BitVec.eq_of_toNat_eq ?_, BitVec.eq_of_toNat_eq ?_⟩ <;>
    rw [BitVec.extractLsb'_toNat, bytePair_toNat, Nat.shiftRight_eq_div_pow]
  case refine_3 => show _ = 0; omega
  all_goals omega

/-- Settles O46: STATUS and CTRL are sums of separate bits, CSUM and PROGRESS a pair of bytes. -/
theorem registerWordsHoldTheirFields : Obligations.RegisterWordsHoldTheirFields :=
  fun s => ⟨statusWord_fields s, bytePair_fields _ _, bytePair_fields _ _, ctrlWord_fields s⟩

/-! ## Power-on -/

theorem bufWord_zeroBuf (k : Fin 4) : bufWord zeroBuf k.val = 0 := by
  revert k
  decide

theorem regWord_resetWith (c : Config) (r : Reg) :
    (State.resetWith c).regWord r = if r = .csum then 0x0000FF00 else 0 := by
  cases r with
  | wbuf k => exact (bufWord_zeroBuf k).trans (if_neg (by simp)).symm
  | rbuf k => exact (bufWord_zeroBuf k).trans (if_neg (by simp)).symm
  | csum => exact show (0 : BitVec 16) ++ (0xFF - 0 : Byte) ++ (0 : Byte) = (0x0000FF00 : Word) by decide
  | progress => exact show (0 : BitVec 16) ++ (0 : Byte) ++ (0 : Byte) = (0 : Word) by decide
  | _ => rfl

/-- Settles O49: an IDLE engine with no host access to come cannot move, so the machine waits. -/
theorem powerOnResetValues : Obligations.PowerOnResetValues := by
  intro c s
  have hwait : step s = .next s := by
    rw [step_of_hostQ_nil rfl, engineTurn_of_stuck (micro_of_idle rfl)]
  exact ⟨regWord_resetWith c, fun _ => ⟨rfl, rfl⟩, rfl, rfl, rfl, rfl, rfl, rfl, rfl, hwait⟩

end Sys2Proof.Machine
end

section
/-! SUPPORT. A host access to an IDLE engine, a DUMP access among them, and which accesses are disallowed (20_memory.md
R46, R53, R54, R57). -/

namespace Sys2Proof.Machine

/-- An IDLE engine has no move to make, so the next host access lands whatever its gap. -/
theorem step_of_idle {s : State} {p : Pending} {rest : List Pending} (he : s.engine = .idle)
    (hq : s.hostQ = p :: rest) : step s = land exec p.op { s with hostQ := rest } :=
  step_of_not_engineFirst hq (engineFirst_of_idle he hq)

/-- Below 0x40 an access is disallowed unless it is 32 bits wide and 4-byte aligned (R53). -/
theorem target_eq_badRegister_iff (w : Width) (a : BusAddr) :
    target w a = .badRegister ↔ a.toNat < 0x40 ∧ (w ≠ .w32 ∨ a.toNat % 4 ≠ 0) := by
  unfold target
  repeat' split
  all_goals grind

/-- An access from 0x40 on that touches a window is disallowed where it is misaligned (R54). -/
theorem target_eq_misaligned_iff (w : Width) (a : BusAddr) :
    target w a = .misaligned ↔ 0x40 ≤ a.toNat ∧ dumpWindow < a.toNat + w.bytes ∧ a.toNat % w.bytes ≠ 0 := by
  unfold target
  repeat' split
  all_goals grind

section
variable {s : State} {w : Width} {a : BusAddr} {v : Word} {gap : Nat} {rest : List Pending}

/-- A DUMP write to an IDLE engine stores the value's low bytes (R51). -/
theorem step_writeDump_of_idle (he : s.engine = .idle) (ha : dumpWindow ≤ a.toNat) (ha' : a.toNat < recWindow)
    (hal : a.toNat % w.bytes = 0) (hq : s.hostQ = { gap := gap, op := .write w a v } :: rest) :
    step s = .next (State.dumpWrite { s with hostQ := rest } (a.toNat - dumpWindow) (leBytes w.bytes v.toNat)) := by
  rw [step_of_idle he hq]
  simp only [land, State.busWrite, target_dump _ _ ha ha' hal]
  rw [State.guarded_idle (by exact (State.busy_eq_false_iff s).2 he)]

/-- A DUMP read from an IDLE engine returns the bytes there once the host has no completion to see (R57). -/
theorem step_readDump_of_idle (he : s.engine = .idle) (hu : s.unseen = false) (ha : dumpWindow ≤ a.toNat)
    (ha' : a.toNat < recWindow) (hal : a.toNat % w.bytes = 0)
    (hq : s.hostQ = { gap := gap, op := .read w a } :: rest) :
    step s = .next (State.returned (wordOf (s.dumpBytes (a.toNat - dumpWindow) w.bytes)) { s with hostQ := rest }) := by
  have hshown : State.hidden { s with hostQ := rest } = false :=
    State.hidden_eq_false_iff.2 ⟨(State.busy_eq_false_iff s).2 he, hu⟩
  rw [step_of_idle he hq]
  simp only [land, State.busRead, target_dump _ _ ha ha' hal]
  rw [hshown]
  rfl

end

end Sys2Proof.Machine
end

section
/-! PROOF. The DUMP window written and read back (20_memory.md R46, R51, R54, R57). -/

namespace Sys2Proof.Machine

theorem getElem_leBytes (n : Nat) (v : Word) {j : Nat} (h : j < (leBytes n v.toNat).length) :
    (leBytes n v.toNat)[j] = v.extractLsb' (8 * j) 8 := by
  simp [leBytes, byteOf_toNat]

theorem wordOf_leBytes (w : Width) (v : Nat) : wordOf (leBytes w.bytes v) = BitVec.ofNat 32 (v % 2 ^ (8 * w.bytes)) := by
  rw [wordOf, leNat_leBytes]

/-- Byte `j` of a word is found `j` bytes after the address it was written to (R51). -/
theorem read_store_leBytes (m : Memory) (b : Nat) (v : Word) {n j : Nat} (hj : j < n) :
    (m.store b (leBytes n v.toNat)).read (b + j) = some (v.extractLsb' (8 * j) 8) := by
  rw [Memory.read_store_inside (Nat.le_add_right b j) (by rw [leBytes_length]; omega), getElem_leBytes,
    Nat.add_sub_cancel_left]

/-- The word written to DUMP is read back, at its width. -/
theorem wordOf_dumpBytes_dumpWrite (s : State) (b : Nat) (w : Width) (v : Nat) :
    wordOf ((s.dumpWrite b (leBytes w.bytes v)).dumpBytes b w.bytes) = BitVec.ofNat 32 (v % 2 ^ (8 * w.bytes)) := by
  have h := dumpBytes_dumpWrite s b (leBytes w.bytes v)
  rw [leBytes_length] at h
  rw [h, wordOf_leBytes]

/-- Settles O43: both accesses land on the IDLE engine, the write as a store of the word's bytes and the read as a read of
the same bytes. -/
theorem dumpWindowHoldsWhatIsWritten : Obligations.DumpWindowHoldsWhatIsWritten := by
  intro s width a v gap rest he ha ha' hal hq
  refine ⟨_, step_writeDump_of_idle he ha ha' hal hq, rfl, fun x hx => ?_, fun j hj => read_store_leBytes _ _ _ hj,
    fun hu => ?_⟩
  · exact Memory.read_store_outside (by rwa [leBytes_length])
  · rw [step_readDump_of_idle (by exact he) (by exact hu) ha ha' hal rfl, wordOf_dumpBytes_dumpWrite]
    rfl

end Sys2Proof.Machine
end

section
/-! PROOF. Which steps are refused (20_memory.md R46, R53, R54; 70_reset_and_hazards.md R200). -/

namespace Sys2Proof.Machine

/-! ## The engine's turn goes on -/

theorem exec_next (i : Instr) (s : State) : ∃ t, exec i s = .next t := by
  cases hi : isCommand i with
  | true => exact ⟨_, exec_command hi s⟩
  | false => exact ⟨_, exec_frame hi s⟩

theorem engineTurn_next (s : State) : ∃ t, engineTurn exec s = .next t := by
  unfold engineTurn
  split
  · split
    · exact exec_next _ s
    · exact ⟨_, rfl⟩
  · exact ⟨_, rfl⟩

/-! ## A landing access is refused by its target -/

theorem writeCmd_next (v : Word) (s : State) : ∃ t, s.writeCmd exec v = .next t := by
  unfold State.writeCmd
  split
  · exact exec_next _ _
  · exact ⟨_, rfl⟩

section
variable {op : HostOp} {w : Width} {a : BusAddr} (s : State)

theorem land_badRegister (h : op.accesses w a) (ht : target w a = .badRegister) :
    land exec op s = .refused .badRegisterAccess := by
  rcases h with rfl | ⟨v, rfl⟩
  · simp only [land, State.busRead, ht]
  · simp only [land, State.busWrite, ht]

theorem land_misaligned (h : op.accesses w a) (ht : target w a = .misaligned) :
    land exec op s = .refused .misalignedWindowAccess := by
  rcases h with rfl | ⟨v, rfl⟩
  · simp only [land, State.busRead, ht]
  · simp only [land, State.busWrite, ht]

theorem land_next (h : op.accesses w a) (hreg : target w a ≠ .badRegister) (hwin : target w a ≠ .misaligned) :
    ∃ t, land exec op s = .next t := by
  rcases h with rfl | ⟨v, rfl⟩
  · simp only [land]
    unfold State.busRead
    split
    case h_5 ht => exact absurd ht hreg
    case h_6 ht => exact absurd ht hwin
    all_goals exact ⟨_, rfl⟩
  · simp only [land]
    unfold State.busWrite
    split
    case h_1 => exact writeCmd_next v s
    case h_6 ht => exact absurd ht hreg
    case h_7 ht => exact absurd ht hwin
    all_goals exact ⟨_, rfl⟩

end

/-- Settles O45: the engine's turn always goes on, and a landing access goes on unless its address and width make it a
disallowed one. -/
theorem onlyDisallowedAccessesAreRefused : Obligations.OnlyDisallowedAccessesAreRefused := by
  refine fun s => ⟨fun hf => step_of_engineFirst hf ▸ engineTurn_next s, fun p rest hq hf => ?_⟩
  rw [step_of_not_engineFirst hq hf]
  refine ⟨fun w a hop => ⟨fun ha hbad => ?_, fun ha htouch hmis => ?_, fun ha hw hal => ?_, fun ha hok => ?_⟩, ?_⟩
  · exact land_badRegister _ hop ((target_eq_badRegister_iff w a).2 ⟨ha, hbad⟩)
  · exact land_misaligned _ hop ((target_eq_misaligned_iff w a).2 ⟨ha, htouch, hmis⟩)
  · refine land_next _ hop (mt (target_eq_badRegister_iff w a).1 ?_) (mt (target_eq_misaligned_iff w a).1 ?_)
    · rintro ⟨-, hne | hne⟩
      · exact hne hw
      · exact hne hal
    · rintro ⟨hge, -⟩
      exact absurd ha (Nat.not_lt.2 hge)
  · refine land_next _ hop (mt (target_eq_badRegister_iff w a).1 ?_) (mt (target_eq_misaligned_iff w a).1 ?_)
    · rintro ⟨hlt, -⟩
      exact absurd hlt (Nat.not_lt.2 ha)
    · rintro ⟨-, htouch, hmis⟩
      exact hok.elim (Nat.not_le.2 htouch) hmis
  · rintro (⟨en, hop⟩ | hop)
    · exact ⟨_, by rw [hop]; rfl⟩
    · exact ⟨_, by rw [hop]; rfl⟩

end Sys2Proof.Machine
end

section
/-! PROOF. What a script's command statements and `WBUF` do (10_state.md R32; 30_encoding.md R63, R64, R79, R80; log 22). -/

namespace Sys2Proof.Machine

/-! ## Command statements -/

/-- The fields of an assembled command word are what it was assembled from (R63). -/
theorem commandWord_fields (op a b : Byte) :
    opField (commandWord op a b) = op ∧ aField (commandWord op a b) = a ∧ bField (commandWord op a b) = b ∧
      rsvField (commandWord op a b) = 0 := by
  have hop := op.isLt
  have ha := a.isLt
  have hb := b.isLt
  refine ⟨BitVec.eq_of_toNat_eq ?_, BitVec.eq_of_toNat_eq ?_, BitVec.eq_of_toNat_eq ?_, BitVec.eq_of_toNat_eq ?_⟩
  all_goals
    simp only [opField, aField, bField, rsvField, BitVec.extractLsb'_toNat, Laws.EncodesInItsTableRow.commandWord_toNat,
      Nat.shiftRight_eq_div_pow]
  case refine_4 => show _ = 0; omega
  all_goals omega

/-- An assembled command word is decoded by its opcode alone. -/
theorem decodeCommand_commandWord (op a b : Byte) : decodeCommand (commandWord op a b) = decodeOp op a b := by
  obtain ⟨hop, ha, hb, hrsv⟩ := commandWord_fields op a b
  rw [decodeCommand, if_pos hrsv, hop, ha, hb]

/-! ## `WBUF` -/

/-- Byte `j` of a buffer's word `k` is the buffer's byte 4k + j (R32). -/
theorem extractLsb'_bufWord (src : Vector Byte 16) (k : Nat) {j : Nat} (hj : j < 4) :
    (bufWord src k).extractLsb' (8 * j) 8 = src.toList.getD (4 * k + j) 0 := by
  rw [bufWord_eq]
  have h0 := (src.toList.getD (4 * k) 0).isLt
  have h1 := (src.toList.getD (4 * k + 1) 0).isLt
  have h2 := (src.toList.getD (4 * k + 2) 0).isLt
  have h3 := (src.toList.getD (4 * k + 3) 0).isLt
  apply BitVec.eq_of_toNat_eq
  rw [extractLsb'_ofNat_toNat (by simp only [leNat]; omega)]
  simp only [leNat]
  interval_cases j
  · rw [Nat.add_zero (4 * k)]
    omega
  all_goals omega

/-- A word taken from buffer `src` and written to `b` copies that word's bytes and no other (R32). -/
theorem getElem_setBufWord_bufWord (b src : Vector Byte 16) (k : Nat) (i : Fin 16) :
    (setBufWord b k (bufWord src k))[i] = if i.val / 4 = k then src[i] else b[i] := by
  simp only [setBufWord, Fin.getElem_fin, Vector.getElem_ofFn]
  split
  next hk =>
    rw [extractLsb'_bufWord src k (Nat.mod_lt _ (by decide)), show 4 * k + i.val % 4 = i.val by omega]
    simp
  next => rfl

/-- A due WBUF write to an IDLE engine (R32). -/
theorem step_writeWbuf {s : State} {k : Fin 4} {v : Word} {rest : List Pending} (he : s.engine = .idle)
    (h : s.due (writeRegOp (.wbuf k) v) rest) :
    step s = .next { s with hostQ := rest, wbuf := setBufWord s.wbuf k.val v } := by
  rw [step_writeReg (by simp) h, State.writeReg, State.guarded_idle (by exact (State.busy_eq_false_iff s).2 he)]

/-- Due writes of words `ks` of buffer `src` to an IDLE engine copy those words to WBUF and change nothing else. -/
theorem stepN_writeWbuf (src : Vector Byte 16) (ks : List (Fin 4)) (s : State) (he : s.engine = .idle)
    (hq : s.hostQ = ks.map fun k => { gap := 0, op := writeRegOp (.wbuf k) (bufWord src k.val) }) :
    ∃ t, stepN ks.length s = .next t ∧ t = { s with hostQ := [], wbuf := t.wbuf } ∧
      ∀ i : Fin 16, t.wbuf[i] = if i.val / 4 ∈ ks.map Fin.val then src[i] else s.wbuf[i] := by
  induction ks generalizing s with
  | nil =>
    refine ⟨s, rfl, ?_, fun i => by simp⟩
    rw [← show s.hostQ = [] from hq]
  | cons k ks ih =>
    obtain ⟨t, hrun, ht, hbytes⟩ := ih { s with
      hostQ := ks.map fun k => { gap := 0, op := writeRegOp (.wbuf k) (bufWord src k.val) }
      wbuf := setBufWord s.wbuf k.val (bufWord src k.val) } he rfl
    refine ⟨t, ?_, ht, fun i => ?_⟩
    · rw [List.length_cons, stepN, step_writeWbuf he hq]
      exact hrun
    · rw [hbytes, getElem_setBufWord_bufWord]
      by_cases hk : i.val / 4 = k.val <;> simp [hk]

theorem getElem_bufOf (bytes : List Byte) (i : Fin 16) : (bufOf bytes)[i] = bytes.getD i.val 0 := by
  simp [bufOf]

/-- Settles O60: a command statement writes the word that decodes to the command it names; `WBUF` writes the four words of
the buffer it names, which are all its bytes. -/
theorem scriptStatementsDoWhatTheyName : Obligations.ScriptStatementsDoWhatTheyName := by
  refine ⟨fun a b s m he hq => ?_, fun bytes s he hq => ?_⟩
  · have hd := decodeCommand_commandWord m.op a b
    cases m with
    | _ => exact step_commandWord he hq hd
  · obtain ⟨t, hrun, ht, hbytes⟩ := stepN_writeWbuf (bufOf bytes) (List.finRange 4) s he hq
    refine ⟨t, hrun, ht, fun i => ?_⟩
    have hi : i.val / 4 ∈ (List.finRange 4).map Fin.val := by
      revert i
      decide
    rw [hbytes, if_pos hi, getElem_bufOf]

end Sys2Proof.Machine
end

section
/-! PROOF. Commands and frames decode to what they were encoded from, and encode to what they were decoded from
(30_encoding.md R63 to R72, R82). -/

namespace Sys2Proof.Machine

/-! ## From an instruction to its code and back -/

/-- A frame with nothing after it is decoded as its instruction. -/
theorem decode_frame {bytes : List Byte} {i : Instr} (h : decodeFrame (bytes ++ []) = .ok (i, [])) :
    decode (.frame bytes) = .ok i := by
  rw [List.append_nil] at h
  rw [decode, h]
  rfl

/-- Settles O2: a command word is decoded by its opcode, a frame by its first byte; a short write's payload ends where its
length says. -/
theorem encodedInstructionsDecodeBack : Obligations.EncodedInstructionsDecodeBack := by
  intro i hwf
  cases i with
  | wireShortRead addr len cs => exact decode_frame (decodeFrame_shortRead addr len cs [])
  | wireShortWrite addr len payload cs =>
    have hlen : payload.length = len.toNat := by
      simp only [Instr.wf, Bool.and_eq_true, beq_iff_eq] at hwf
      obtain ⟨⟨-, hlen⟩, -⟩ := hwf
      exact hlen
    exact decode_frame (decodeFrame_shortWrite addr len payload cs [] hlen)
  | wirePagedRead page count cs => exact decode_frame (decodeFrame_pagedRead page count cs [])
  | _ => exact decodeCommand_commandWord _ _ _

/-- Settles O1: each word is evaluated by the decoder. -/
theorem assembledWordsDecode : Obligations.AssembledWordsDecode := by
  unfold Obligations.AssembledWordsDecode
  decide

/-! ## From a code to its instruction and back -/

/-- A word with RSV 0 is the one assembled from its fields (R63). -/
theorem commandWord_of_fields {w : Word} (h : rsvField w = 0) : commandWord (opField w) (aField w) (bField w) = w := by
  have hrsv : w.toNat / 2 ^ 24 % 2 ^ 8 = 0 := by
    rw [← Nat.shiftRight_eq_div_pow, ← BitVec.extractLsb'_toNat]
    exact congrArg BitVec.toNat h
  have hw := w.isLt
  apply BitVec.eq_of_toNat_eq
  rw [Laws.EncodesInItsTableRow.commandWord_toNat]
  simp only [opField, aField, bField, BitVec.extractLsb'_toNat, Nat.shiftRight_eq_div_pow]
  omega

/-- The opcode map names each command by the opcode it is encoded with (R64). -/
theorem encode_of_decodeOp {op a b : Byte} {i : Instr} (h : decodeOp op a b = .ok i) :
    encode i = .command (commandWord op a b) := by
  unfold decodeOp at h
  repeat' split at h
  all_goals cases h
  all_goals subst op; rfl

theorem encode_of_decodeCommand {w : Word} {i : Instr} (h : decodeCommand w = .ok i) : encode i = .command w := by
  unfold decodeCommand at h
  split at h
  next hrsv => rw [encode_of_decodeOp h, commandWord_of_fields hrsv]
  next => cases h

/-- A short write that decodes ends with the checksum byte after its payload. -/
theorem decodeShortWrite_ok {addr len : Byte} {rest more : List Byte} {i : Instr}
    (h : decodeShortWrite addr len rest = .ok (i, more)) :
    ∃ payload cs, i = .wireShortWrite addr len payload cs ∧ rest = payload ++ cs :: more := by
  unfold decodeShortWrite at h
  split at h
  next cs more' hdrop =>
    cases h
    exact ⟨_, cs, rfl, by rw [← hdrop, List.take_append_drop]⟩
  next => cases h

theorem encode_of_decodeFrame {bytes more : List Byte} {i : Instr} (h : decodeFrame bytes = .ok (i, more)) :
    ∃ frame, encode i = .frame frame ∧ bytes = frame ++ more := by
  revert h
  fun_cases decodeFrame bytes with
  | case2 addr len cs more' | case6 page count cs more' _ _ =>
    intro h
    cases h
    exact ⟨_, rfl, rfl⟩
  | case4 addr len rest =>
    intro h
    obtain ⟨payload, cs, rfl, rfl⟩ := decodeShortWrite_ok h
    exact ⟨_, rfl, by simp [shortWriteBytes]⟩
  | _ => intro h; cases h

/-- Settles O3: the decoder drops no bit of a command word and no byte of a frame. -/
theorem decodedCodesEncodeBack : Obligations.DecodedCodesEncodeBack :=
  ⟨fun _ _ => encode_of_decodeCommand, fun _ _ _ => encode_of_decodeFrame⟩

end Sys2Proof.Machine
end

section
/-! PROOF. An undefined command word written while IDLE (30_encoding.md R66; log 14). -/

namespace Sys2Proof.Machine

theorem decodeOp_undefined {op : Byte} (a b : Byte)
    (h : op ∉ [0x00, 0x01, 0x02, 0x10, 0x11, 0x12, 0x20, 0x21, 0x22]) : decodeOp op a b = .error .undefinedOpcode := by
  simp only [List.mem_cons, List.not_mem_nil, or_false, not_or] at h
  obtain ⟨h0, h1, h2, h3, h4, h5, h6, h7, h8⟩ := h
  simp only [decodeOp, h0, h1, h2, h3, h4, h5, h6, h7, h8, if_false]

/-- A word with RSV ≠ 0 or an OP outside the opcode map does not decode (R66). -/
theorem decodeCommand_undefined {w : Word}
    (h : rsvField w ≠ 0 ∨ opField w ∉ [0x00, 0x01, 0x02, 0x10, 0x11, 0x12, 0x20, 0x21, 0x22]) :
    ∃ e, decodeCommand w = .error e := by
  unfold decodeCommand
  split
  next hrsv => exact ⟨_, decodeOp_undefined _ _ (h.resolve_left (not_not_intro hrsv))⟩
  next => exact ⟨_, rfl⟩

/-- An undefined word written to an IDLE engine is issued as one (R66). -/
theorem step_undefinedWord {s : State} {w : Word} {e : DecodeError} {gap : Nat} {rest : List Pending}
    (he : s.engine = .idle) (hq : s.hostQ = { gap := gap, op := writeRegOp .cmd w } :: rest)
    (hd : decodeCommand w = .error e) : step s = runCommand none { s with hostQ := rest, unseen := true } := by
  rw [step_of_idle he hq]
  simp only [land, writeRegOp, State.busWrite, target_reg, State.writeCmd, hd]
  rw [awaitDone_idle (by exact he)]

/-- An undefined word ends with its first move, and neither issue nor that move changes more than STATUS. -/
theorem runCommand_none {s : State} (hr : s.ready) : runCommand none s = .next { s with err := .other, done := true } := by
  have hend : (s.issue none).beginCommand s.cookieEn none = { s with err := .other, done := true, engine := .idle } := rfl
  rw [runCommand_at_once hr (by rw [hend]), hend, ← hr.1]

/-- Settles O4: the word does not decode, so it is issued as an undefined one and ends with its first move. -/
theorem undefinedWordsEndWithOther : Obligations.UndefinedWordsEndWithOther := by
  intro s w gap he hq h
  obtain ⟨e, hd⟩ := decodeCommand_undefined h
  rw [step_undefinedWord he hq hd]
  exact runCommand_none ⟨he, rfl⟩

end Sys2Proof.Machine
end

section
/-! PROOF. The fields of a record entry's 32 bytes (30_encoding.md R75; 20_memory.md R50). -/

namespace Sys2Proof.Machine

theorem byteOf_succ (v k : Nat) : byteOf v (k + 1) = byteOf (v / 256) k := by
  rw [byteOf, byteOf, Nat.mul_succ, Nat.add_comm, Nat.shiftRight_add, Nat.shiftRight_eq_div_pow v]

theorem leBytes_succ (n v : Nat) : leBytes (n + 1) v = byteOf v 0 :: leBytes n (v / 256) := by
  simp only [leBytes, List.range_succ_eq_map, List.map_cons, List.map_map]
  exact congrArg _ (List.map_congr_left fun k _ => byteOf_succ v k)

/-- `n` little-endian bytes hold a number below 256ⁿ (R50). -/
theorem leNat_leBytes_of_lt {n v : Nat} (h : v < 256 ^ n) : leNat (leBytes n v) = v := by
  induction n generalizing v with
  | zero => exact (Nat.lt_one_iff.1 h).symm
  | succ n ih =>
    rw [leBytes_succ, leNat, ih (by rw [Nat.pow_succ] at h; omega), byteOf, BitVec.toNat_ofNat, Nat.mul_zero,
      Nat.shiftRight_zero]
    omega

theorem getD_padRaw (raw : List Byte) {j : Nat} (hj : j < rawBytes) : (padRaw raw).getD j 0 = raw.getD j 0 := by
  simp [padRaw, hj]

/-- The twelve bytes of an entry after RAW, from offset 20 on (R75). -/
def Entry.fieldBytes (e : Entry) : List Byte :=
  [e.kind, e.tag] ++ leBytes 2 e.srcOff ++ [BitVec.ofNat 8 e.raw.length, 0] ++ leBytes 3 e.x0 ++ leBytes 3 e.x1

theorem Entry.bytes_eq (e : Entry) : e.bytes = padRaw e.raw ++ e.fieldBytes := by
  simp [Entry.bytes, Entry.fieldBytes]

theorem entryByte_raw (e : Entry) {j : Nat} (hj : j < rawBytes) : entryByte e.bytes j = e.raw.getD j 0 := by
  rw [entryByte, Entry.bytes_eq, List.getD_append _ _ _ _ (by rwa [padRaw_length]), getD_padRaw _ hj]

theorem entryByte_field (e : Entry) (j : Nat) : entryByte e.bytes (rawBytes + j) = e.fieldBytes.getD j 0 := by
  rw [entryByte, Entry.bytes_eq, List.getD_append_right _ _ _ _ (by rw [padRaw_length]; omega), padRaw_length,
    Nat.add_sub_cancel_left]

/-- A number among the fields is the one its bytes stand for. -/
theorem leNat_field {e : Entry} {j n v : Nat} (hf : (e.fieldBytes.drop j).take n = leBytes n v) (hv : v < 256 ^ n) :
    leNat ((e.bytes.drop (rawBytes + j)).take n) = v := by
  rw [Entry.bytes_eq, ← padRaw_length e.raw, List.drop_length_add_append, hf, leNat_leBytes_of_lt hv]

/-- Settles O32: RAW is its bytes and zeros, each other field lies at its offset from RAW's end, and a number that its
bytes can hold is the number they stand for. -/
theorem entryBytesHoldTheirFields : Obligations.EntryBytesHoldTheirFields := by
  intro e hraw hsrc hx0 hx1
  have hlen : e.raw.length % 2 ^ 8 = e.raw.length := Nat.mod_eq_of_lt (by omega)
  exact ⟨e.bytes_length, fun j hj => entryByte_raw e hj, entryByte_field e 0, entryByte_field e 1,
    leNat_field (j := 2) rfl hsrc, (congrArg BitVec.toNat (entryByte_field e 4)).trans hlen, entryByte_field e 5,
    leNat_field (j := 6) rfl hx0, leNat_field (j := 9) rfl hx1⟩

end Sys2Proof.Machine
end

section
/-! PROOF. What a staged request frame comes to when every byte of its transaction is answered (30_encoding.md R67 to R73;
41_frames.md R93 to R105; logs 5, 6, 20). -/

namespace Sys2Proof.Machine

/-- A good response's bytes sum to 0xFF (R84). -/
theorem byteSum_of_good {k : Bool} {n : Nat} {resp : List Byte} (h : goodResponse k n resp) : byteSum resp = 0xFF := by
  obtain ⟨-, -, hvalid⟩ := h
  exact (frameValid_iff resp).1 hvalid

/-- The state in which the response to a request `bs ++ [cs]` is checked, every byte answered: the request sent, LASTCS its
checksum byte and ACC the sum `acc` of the response (R93). -/
def State.received (s : State) (k : Bool) (job : Job) (bs : List Byte) (cs : Byte) (resp : List Byte) (acc : Byte)
    (tq : List TxAnswer) (rq : List RxAnswer) : State :=
  { s with
    lastcs := cs, acc := acc, txQ := tq, rxQ := rq, txSent := s.txSent ++ (cookieBytes k ++ (bs ++ [cs]))
    engine := .receiving k job resp 0 }

theorem answered_eq_received (s : State) {k : Bool} {job : Job} {bs : List Byte} {cs : Byte} {resp : List Byte} {acc : Byte}
    {tq : List TxAnswer} {rq : List RxAnswer} (hacc : byteSum resp = acc) :
    s.answered (cookieBytes k ++ (bs ++ [cs])) resp tq rq (.receiving k job resp 0) =
      s.received k job bs cs resp acc tq rq := by
  have hlast : (cookieBytes k ++ (bs ++ [cs])).getLastD 0 = cs := by
    rw [← List.append_assoc, List.getLastD_concat]
  rw [State.answered, hlast, hacc]
  rfl

section
variable {s t : State} {k : Bool} {w : Option Window} {staged resp : List Byte} {tq : List TxAnswer} {rq : List RxAnswer}

/-- A staged request that is taken up and answered byte for byte comes to the check of its response, and from there, in at
most one more micro-step, to where its transaction ends. The longest request is a short write's, the longest response a
page's. -/
theorem runRequest_answered {take : Bool → Option Window → State → State} {job : Job} {bs : List Byte} {cs acc : Byte}
    {n : Nat} (he : s.engine = .request k w staged) (hq : s.hostQ = [])
    (htake : take k w s = s.startTransact k job (bs ++ [cs]) resp.length)
    (ha : s.answers (cookieBytes k ++ (bs ++ [cs])) resp tq rq) (hacc : byteSum resp = acc)
    (hbs : bs.length < longestFrame) (hresp : resp.length ≤ 258) (hn : n ≤ 1)
    (hrun : runN Engine.inTransaction n ((s.received k job bs cs resp acc tq rq).checkResponse k job resp) = some t)
    (ht : micro t = none ∨ t.engine.inTransaction = false) : runRequest take s = .next t := by
  have hc := cookieLen_le k
  have hrecv := runN_startTransact letsTransact_inTransaction k job (bs ++ [cs]) resp tq rq s (by simp) ha hq
  rw [answered_eq_received s hacc] at hrecv
  refine runRequest_eq he hq (by rw [htake]; exact hq) (htake ▸ runN_add hrecv hrun) ht ?_
  rw [List.length_append, List.length_singleton]
  unfold longestFrame at hbs
  unfold microBound
  omega

/-! ## Short transactions -/

theorem checkResponse_shortRead_good {n : Nat} (h : goodResponse k n resp) :
    s.checkResponse k (.shortRead n) resp = s.endShortRead k n resp := by
  obtain ⟨-, hcookie, hvalid⟩ := h
  simp [State.checkResponse, State.responseOk, hcookie, hvalid]

/-- The echo a short write awaits is the cookie, where one is in use, and the checksum byte (R71, R101). -/
theorem checkResponse_shortWrite_echo {cs : Byte} (h : s.lastcs = cs) :
    s.checkResponse k .shortWrite (cookieBytes k ++ [cs]) = s.finish := by
  cases k <;> simp [h, State.checkResponse, State.responseOk, cookieOk, cookieBytes, cookieLen]

theorem byteSum_echo (k : Bool) (cs : Byte) : byteSum (cookieBytes k ++ [cs]) = cs := by
  cases k <;> simp [cookieBytes, cookie, byteSum_cons]

/-! ## A page window -/

variable {page cs : Byte}

/-- A paged read request answered with a good response comes to the end of its window (R102, R104). -/
theorem exec_pagedRead_answered {n : Nat} (he : s.engine = .request k w staged) (hq : s.hostQ = [])
    (ha : s.answers (cookieBytes k ++ pagedReadBytes page 0x01 cs) resp tq rq) (hg : goodResponse k devPage resp)
    (hn : n ≤ 1)
    (hrun : runN Engine.inTransaction n (State.endWindow k (windowOf w page) page.toNat resp
      (s.received k (.pagedRead (windowOf w page) page.toNat) [0xC1, page, 0x01] cs resp 0xFF tq rq)) = some t)
    (ht : micro t = none ∨ t.engine.inTransaction = false) : exec (.wirePagedRead page 0x01 cs) s = .next t := by
  have hlen : resp.length = cookieLen k + devPage + 1 := hg.1
  have hc := cookieLen_le k
  have hmax : resp.length ≤ 258 := by
    unfold devPage at hlen
    omega
  have htake : s.takePagedRead k w page 0x01 cs =
      s.startTransact k (.pagedRead (windowOf w page) page.toNat) ([0xC1, page, 0x01] ++ [cs]) resp.length := by
    rw [State.takePagedRead, if_pos rfl, hlen]
    rfl
  exact runRequest_answered he hq htake ha (byteSum_of_good hg) (by simp [longestFrame]) hmax hn
    (by rwa [State.checkResponse_good hg]) ht

/-- The last window's page ends the paged read: PDONE, then the completion (R102, R105). -/
theorem exec_pagedRead_last (he : s.engine = .request k w staged) (hq : s.hostQ = [])
    (ha : s.answers (cookieBytes k ++ pagedReadBytes page 0x01 cs) resp tq rq) (hg : goodResponse k devPage resp)
    (hw : (windowOf w page).total ≤ (windowOf w page).i + 1) :
    exec (.wirePagedRead page 0x01 cs) s = .next { s with
      dump := s.dump.store (devPage * page.toNat) (pagePayload k resp)
      pdone := BitVec.ofNat 8 (windowOf w page).total
      acc := 0xFF
      lastcs := cs
      txQ := tq
      rxQ := rq
      txSent := s.txSent ++ (cookieBytes k ++ pagedReadBytes page 0x01 cs)
      engine := .idle
      done := true
      err := .none } := by
  refine exec_pagedRead_answered (n := 1) he hq ha hg (by decide) ?_ (.inl (micro_of_idle rfl))
  rw [State.endWindow, if_neg (Nat.not_lt.2 hw)]
  exact runN_succ rfl (micro_ending rfl hq) rfl

end

/-! ## The staged frames -/

/-- Settles O20: the request is taken up for its length is in range, and a good response ends the short read. -/
theorem shortReadFrameRuns : Obligations.ShortReadFrameRuns := by
  intro addr len cs k w frame s resp tq rq he hq h1 h2 ha hg
  have hlen : resp.length = cookieLen k + len.toNat + 1 := hg.1
  have hc := cookieLen_le k
  have hmax : len.toNat ≤ 16 := h2
  have htake : s.takeShortRead k addr len cs =
      s.startTransact k (.shortRead len.toNat) ([0x81, addr, len] ++ [cs]) resp.length := by
    rw [State.takeShortRead, if_pos ((shortLenOk_iff len).2 ⟨h1, h2⟩), hlen]
    rfl
  refine runRequest_answered (n := 0) he hq htake ha (byteSum_of_good hg) (by simp [longestFrame]) (by omega) (by decide) ?_
    (.inl (micro_of_idle rfl))
  rw [checkResponse_shortRead_good hg]
  rfl

/-- Settles O21: the request is taken up for its length is in range and its payload's, and the echo ends the short
write. -/
theorem shortWriteFrameRuns : Obligations.ShortWriteFrameRuns := by
  intro addr len payload cs k w frame s tq rq he hq h1 h2 hp ha
  have hc := cookieLen_le k
  have hmax : len.toNat ≤ 16 := h2
  have hlen : (cookieBytes k ++ [cs]).length = cookieLen k + 1 := by simp
  have htake : s.takeShortWrite k addr len payload cs =
      s.startTransact k .shortWrite ((0x01 :: addr :: len :: payload) ++ [cs]) (cookieBytes k ++ [cs]).length := by
    rw [State.takeShortWrite, if_pos (by simp [(shortLenOk_iff len).2 ⟨h1, h2⟩, hp]), hlen]
    rfl
  have hbs : (0x01 :: addr :: len :: payload).length < longestFrame := by
    simp only [List.length_cons, longestFrame]
    omega
  refine runRequest_answered (n := 0) he hq htake ha (byteSum_echo k cs) hbs (by omega) (by decide) ?_
    (.inl (micro_of_idle rfl))
  exact congrArg some (checkResponse_shortWrite_echo rfl)

/-- Settles O22: before the last window the transaction ends where the next one begins; a request with no window is its
own last. -/
theorem pagedReadFrameRuns : Obligations.PagedReadFrameRuns := by
  intro page cs k frame s resp tq rq hq ha hg
  refine ⟨fun w he hnext => ?_, fun w he hlast => exec_pagedRead_last he hq ha hg hlast,
    fun he => exec_pagedRead_last he hq ha hg (Nat.le_refl 1)⟩
  refine exec_pagedRead_answered (n := 0) he hq ha hg (by decide) ?_ (.inr rfl)
  rw [State.endWindow, windowOf, Option.getD_some, if_pos hnext]
  rfl

end Sys2Proof.Machine
end

section
/-! PROOF. The checksum's laws (40_control_checksum.md R83 to R85, R90, R92). -/

namespace Sys2Proof.Machine

theorem frameValid_iff_checksum (f : List Byte) : frameValid f = true ↔ checksum f = 0 := beq_iff_eq

theorem checksum_congr {f g : List Byte} (h : byteSum f = byteSum g) : checksum f = checksum g := congrArg (255 - ·) h

theorem checksum_append_checksum (f : List Byte) : checksum (f ++ [checksum f]) = 0 := by
  have hsum : byteSum (f ++ [checksum f]) = 255 := by
    rw [byteSum_append, byteSum_cons, byteSum_nil, add_zero, checksum, add_sub_cancel]
  exact (frameValid_iff_checksum _).1 ((frameValid_iff _).2 hsum)

/-- The checksum is the complement of the sum (R85). -/
theorem checksum_eq_xor (f : List Byte) : checksum f = byteSum f ^^^ 0xFF :=
  (BitVec.allOnes_sub_eq_not _).trans BitVec.xor_allOnes.symm

/-- The cookie 0x00 adds nothing to a sum (R90). -/
theorem byteSum_cookieBytes_append (k : Bool) (f : List Byte) : byteSum (cookieBytes k ++ f) = byteSum f := by
  have hcookie : byteSum (cookieBytes k) = 0 := by cases k <;> rfl
  rw [byteSum_append, hcookie, zero_add]

theorem checksum_cookieBytes_append (k : Bool) (f : List Byte) : checksum (cookieBytes k ++ f) = checksum f :=
  checksum_congr (byteSum_cookieBytes_append k f)

theorem withChecksum_cookieBytes_append (k : Bool) (f : List Byte) :
    withChecksum (cookieBytes k ++ f) = cookieBytes k ++ withChecksum f := by
  rw [withChecksum, checksum_cookieBytes_append, List.append_assoc]
  rfl

/-- Settles O5: a frame and its checksum sum to 0xFF, and the cookie byte is 0. -/
theorem checksumClosesAFrame : Obligations.ChecksumClosesAFrame := fun f k =>
  ⟨checksum_append_checksum f, checksum_eq_xor f, (frameValid_iff_checksum _).2 (checksum_append_checksum f),
    checksum_cookieBytes_append k f, withChecksum_cookieBytes_append k f⟩

/-! ## Changed bytes -/

/-- A byte changed by `d` changes the sum by `d` (R92). -/
theorem byteSum_change (xs ys : List Byte) (b d : Byte) : byteSum (xs ++ [b + d] ++ ys) = byteSum (xs ++ [b] ++ ys) + d := by
  simp only [byteSum_append, byteSum_cons, byteSum_nil]
  abel

theorem byteSum_perm {f g : List Byte} (h : f.Perm g) : byteSum f = byteSum g := h.foldl_op_eq

theorem checksum_change_ne_zero {xs ys : List Byte} {b d : Byte} (hd : d ≠ 0) (h : frameValid (xs ++ [b] ++ ys) = true) :
    checksum (xs ++ [b + d] ++ ys) ≠ 0 := by
  rw [Ne, ← frameValid_iff_checksum, frameValid_iff, byteSum_change, (frameValid_iff _).1 h, add_eq_left]
  exact hd

/-- Settles O6: each statement is about the two frames' sums. -/
theorem singleByteErrorsAreDetected : Obligations.SingleByteErrorsAreDetected := by
  refine ⟨fun xs ys b d hd h => checksum_change_ne_zero hd h, fun xs mid ys b c d => checksum_congr ?_,
    fun f g h => checksum_congr (byteSum_perm h)⟩
  simp only [byteSum_append, byteSum_cons, byteSum_nil]
  abel

end Sys2Proof.Machine
end

section
/-! PROOF. What NOP, CSUM_CLR and CSUM_ADD do on a ready machine (40_control_checksum.md R86 to R89), and what they leave
unchanged, also where a host access interrupts them. -/

namespace Sys2Proof.Machine

/-- The machine a control command that ends without error leaves, with ACC at `sum`. -/
def State.summed (s : State) (sum : Byte) : State := { s with acc := sum, done := true, err := .none }

section
variable {s : State} (hr : s.ready)
include hr

theorem State.ready.summed (sum : Byte) : (s.summed sum).ready := hr

theorem exec_nop (a b : Byte) : exec (.nop a b) s = .next (s.summed s.acc) :=
  (runCommand_at_once hr rfl).trans (congrArg _ (State.with_idle (hr.summed _).1))

theorem exec_csumClr (a b : Byte) : exec (.csumClr a b) s = .next (s.summed 0) :=
  (runCommand_ending hr rfl).trans (congrArg _ (State.with_idle (hr.summed _).1))

theorem exec_csumAdd (a b : Byte) : exec (.csumAdd a b) s = .next (s.summed (s.acc + a)) :=
  (runCommand_ending hr rfl).trans (congrArg _ (State.with_idle (hr.summed _).1))

/-- One CSUM_ADD per byte adds the bytes' sum to ACC. -/
theorem execAll_csumAdd (g : List Byte) (sum : Byte) :
    execAll (g.map fun b => .csumAdd b 0) (s.summed sum) = .next (s.summed (sum + byteSum g)) := by
  induction g generalizing sum with
  | nil => rw [byteSum_nil, add_zero]; rfl
  | cons b g ih =>
    rw [List.map_cons, execAll, exec_csumAdd (hr.summed sum), byteSum_cons, ← add_assoc]
    exact ih (sum + b)

end

theorem State.cz_eq_true_iff (s : State) : s.cz = true ↔ s.acc = 0xFF := beq_iff_eq

/-- Settles O7: NOP ends with its first move, and STATUS then holds DONE alone. -/
theorem nopOnlyCompletes : Obligations.NopOnlyCompletes := by
  refine fun a b s hr => ⟨decodeCommand_commandWord _ a b, exec_nop hr a b, fun hacc hprog hhaz => ?_⟩
  have hbusy : State.busy { s with done := true, err := .none } = false := (State.busy_eq_false_iff _).2 hr.1
  have hcz : State.cz { s with done := true, err := .none } = false := beq_eq_false_iff_ne.2 hacc
  rw [statusWord_eq, hbusy, hcz, hprog, hhaz]
  rfl

/-- Settles O8: the completion follows the clear, and an ACC of 0 has the complement 0xFF. -/
theorem csumClrClearsTheAccumulator : Obligations.CsumClrClearsTheAccumulator :=
  fun a b _ hr => ⟨decodeCommand_commandWord _ a b, _, exec_csumClr hr a b, rfl, rfl,
    show (0 : BitVec 16) ++ (0xFF - 0 : Byte) ++ (0 : Byte) = (0x0000FF00 : Word) by decide⟩

/-- Settles O9: the completion follows the addition. -/
theorem csumAddAddsItsByte : Obligations.CsumAddAddsItsByte := by
  refine fun a b s hr =>
    ⟨decodeCommand_commandWord _ a b, _, exec_csumAdd hr a b, rfl, BitVec.toNat_add _ _, State.cz_eq_true_iff _, ?_⟩
  rintro rfl
  exact add_zero _

/-- Settles O10: after the run ACC is the sum of the frame's bytes, which no order changes. -/
theorem csumCommandsCheckAFrame : Obligations.CsumCommandsCheckAFrame := by
  intro f g s hr hperm
  have hrun : execAll (.csumClr 0 0 :: g.map fun b => .csumAdd b 0) s = .next (s.summed (byteSum f)) := by
    rw [execAll, exec_csumClr hr, byteSum_perm hperm, ← zero_add (byteSum g)]
    exact execAll_csumAdd hr g 0
  obtain ⟨-, hcs, -⟩ := bytePair_fields (0xFF - byteSum f) (byteSum f)
  exact ⟨_, hrun, hcs, (State.cz_eq_true_iff _).trans (frameValid_iff f).symm⟩

/-! ## What control commands leave unchanged -/

/-- `t` differs from `s` at most in ACC, DONE, ERR, the engine's position and how near the host's next access is. -/
def State.ControlSame (s t : State) : Prop :=
  t = { s with acc := t.acc, done := t.done, err := t.err, engine := t.engine, hostQ := t.hostQ }

theorem State.ControlSame.trans {s t u : State} (h : s.ControlSame t) (h' : t.ControlSame u) : s.ControlSame u :=
  Eq.trans h' (by rw [h])

/-- Control command `i` is in flight or just ended in `t`, and since `s` it has written nothing but what such a command
writes. -/
structure State.ControlRuns (i : Instr) (s t : State) : Prop where
  engine : (∃ k, t.engine = .issued k (some i)) ∨ t.engine = .ending none ∨ t.engine = .idle
  same : s.ControlSame t
  acc : ∀ a b, i = .nop a b → t.acc = s.acc

theorem State.ControlRuns.trans {i : Instr} {s t u : State} (h : s.ControlRuns i t) (h' : t.ControlRuns i u) :
    s.ControlRuns i u :=
  ⟨h'.engine, h.same.trans h'.same, fun a b hi => (h'.acc a b hi).trans (h.acc a b hi)⟩

theorem finish_controlRuns (i : Instr) (s : State) : s.ControlRuns i s.finish :=
  ⟨.inr (.inr rfl), rfl, fun _ _ _ => rfl⟩

section
variable {a b : Byte} {i : Instr} (hi : i = .nop a b ∨ i = .csumClr a b ∨ i = .csumAdd a b)
include hi

theorem issue_controlRuns (s : State) : s.ControlRuns i (s.issue (some i)) where
  engine := .inl ⟨_, rfl⟩
  same := by rcases hi with rfl | rfl | rfl <;> rfl
  acc _ _ _ := rfl

theorem beginCommand_controlRuns (k : Bool) (s : State) : s.ControlRuns i (s.beginCommand k (some i)) := by
  rcases hi with rfl | rfl | rfl
  · exact finish_controlRuns _ s
  · exact ⟨.inr (.inl rfl), rfl, nofun⟩
  · exact ⟨.inr (.inl rfl), rfl, nofun⟩

theorem micro_controlRuns {s t u : State} (h : s.ControlRuns i t) (hm : micro t = some u) : s.ControlRuns i u := by
  obtain ⟨v, hv, rfl⟩ := Option.map_eq_some_iff.1 hm
  have hmove : t.ControlRuns i v := by
    rcases h.engine with ⟨k, he⟩ | he | he <;> rw [State.move, he] at hv <;> cases hv
    · exact beginCommand_controlRuns hi k t
    · exact finish_controlRuns i t
  obtain ⟨hengine, hsame, hacc⟩ := h.trans hmove
  exact ⟨hengine, hsame.trans (show v.ControlSame v.tick from rfl), hacc⟩

theorem exec_controlRuns {s t : State} (he : s.engine = .idle) (ht : exec i s = .next t) : s.ControlRuns i t := by
  have hcommand : isCommand i = true := by rcases hi with rfl | rfl | rfl <;> rfl
  rw [exec_command hcommand, runCommand_idle ((State.busy_eq_false_iff s).2 he)] at ht
  cases ht
  exact drive_induct (P := s.ControlRuns i) (fun _ _ => micro_controlRuns hi) _ _ (issue_controlRuns hi s)

end

/-- Settles O54: issue and every micro-step of a control command keep the frame, wherever the run is interrupted. -/
theorem controlCommandsFrame : Obligations.ControlCommandsFrame := by
  intro a b i s t he hi ht
  obtain ⟨-, hsame, hacc⟩ := exec_controlRuns hi he ht
  rw [hsame]
  exact ⟨rfl, rfl, rfl, rfl, rfl, rfl, rfl, rfl, rfl, rfl, rfl, rfl, hacc a b⟩

end Sys2Proof.Machine
end

section
/-! PROOF. What SREAD and SWRITE come to on a ready machine: a full response, and operands out of range for them and for
PREAD (41_frames.md R93 to R102; 60_exceptions.md R179). -/

namespace Sys2Proof.Machine

/-- A state that is `t` but for an IDLE engine is `t` where `t`'s engine is IDLE already. -/
theorem State.eq_of_eq_with_idle {u t : State} (h : t.engine = .idle) (hu : u = { t with engine := .idle }) : u = t :=
  hu.trans (State.with_idle h)

/-! ## Operands out of range -/

section
variable {s : State} {a b : Byte}

theorem beginSread_bad (k : Bool) (h : b.toNat < 1 ∨ 16 < b.toNat) :
    s.beginSread k a b = s.clearRbuf.raise .badRequest := by
  rw [State.beginSread, not_shortLenOk h]
  rfl

theorem beginSwrite_bad (k : Bool) (h : b.toNat < 1 ∨ 16 < b.toNat) : s.beginSwrite k a b = s.raise .badRequest := by
  rw [State.beginSwrite, not_shortLenOk h]
  rfl

theorem beginPread_bad (k : Bool) (h : b.toNat = 0 ∨ 256 < a.toNat + b.toNat) :
    s.beginPread k a b = (s.forgetPages a.toNat b.toNat).raise .badRequest := if_pos h

/-- A command whose first move raises `e` in a state `u` ends there. -/
theorem runCommand_raise {i : Instr} {u : State} {e : Err} (hr : s.ready)
    (h : (s.issue (some i)).beginCommand s.cookieEn (some i) = u.raise e) : runCommand (some i) s = .next (u.raise e) :=
  (runCommand_at_once hr (by rw [h]; rfl)).trans (congrArg _ h)

end

/-- Settles O13: the check fails in the command's first move, before a request is staged. -/
theorem operandsOutOfRangeAreBadRequest : Obligations.OperandsOutOfRangeAreBadRequest := by
  refine fun a b s hr => ⟨fun h => ⟨?_, ?_⟩, fun h => ?_⟩
  · exact (runCommand_raise (i := .sread a b) hr (beginSread_bad _ h)).trans
      (congrArg _ (State.eq_of_eq_with_idle (by exact hr.1) rfl))
  · exact (runCommand_raise (i := .swrite a b) hr (beginSwrite_bad _ h)).trans
      (congrArg _ (State.eq_of_eq_with_idle (by exact hr.1) rfl))
  · exact ⟨_, runCommand_raise hr (beginPread_bad _ h), State.eq_of_eq_with_idle (by exact hr.1) rfl,
      fun x => Memory.read_forget _ _ _ x⟩

/-! ## The checks of a response that fail -/

theorem checks_fail_of_not_good {k : Bool} {n : Nat} {resp : List Byte} (hl : resp.length = cookieLen k + n + 1)
    (h : ¬ goodResponse k n resp) : (cookieOk k resp && frameValid resp) = false := by
  rw [Bool.eq_false_iff, ne_eq, Bool.and_eq_true]
  exact fun hc => h ⟨hl, hc⟩

/-- A response of an echo's length that passes the checks is the cookie, where one is in use, and the awaited byte. -/
theorem eq_echo_of_checks {k : Bool} {cs : Byte} {resp : List Byte} (hl : resp.length = cookieLen k + 1)
    (h : (cookieOk k resp && resp.getD (cookieLen k) 0 == cs) = true) : resp = cookieBytes k ++ [cs] := by
  obtain ⟨hcookie, hecho⟩ := Bool.and_eq_true_iff.1 h
  cases k with
  | false =>
    obtain ⟨x, rfl⟩ := List.length_eq_one_iff.1 hl
    exact congrArg (fun y => [y]) (eq_of_beq hecho)
  | true =>
    obtain ⟨x, y, rfl⟩ := List.length_eq_two.1 hl
    have hx : x = cookie := eq_of_beq hcookie
    have hy : y = cs := eq_of_beq hecho
    rw [hx, hy]
    rfl

/-! ## A full response -/

/-- Settles O11: the response is accepted and its payload delivered. -/
theorem sreadDeliversThePayload : Obligations.SreadDeliversThePayload := by
  intro a b s resp tq rq hr h1 h2 ha hg
  refine execSread_answered hr h1 h2 ha hg.1 ?_ hr.1
  rw [checkResponse_shortRead_good hg]
  rw [shortReadRequest, withChecksum, answered_eq_received _ (byteSum_of_good hg)]
  exact State.eq_of_eq_with_idle (by exact hr.1) rfl

/-- Settles O12: the response fails a check, and the short read ends as every failed one does. -/
theorem sreadRejectsABadResponse : Obligations.SreadRejectsABadResponse := by
  intro a b s resp tq rq hr h1 h2 ha hl hbad
  refine execSread_answered hr h1 h2 ha hl ?_ hr.1
  rw [State.checkResponse_bad (checks_fail_of_not_good hl hbad)]
  rw [shortReadRequest, withChecksum, answered_eq_received _ rfl]
  exact State.eq_of_eq_with_idle (by exact hr.1) rfl

/-- Settles O14: the response is the echo the short write awaits. -/
theorem swriteEndsOnItsEcho : Obligations.SwriteEndsOnItsEcho := by
  intro a b s tq rq hr h1 h2 ha
  refine execSwrite_answered hr h1 h2 ha (by simp) ?_ hr.1
  rw [shortWriteRequest, withChecksum, answered_eq_received _ (byteSum_echo _ _)]
  refine (checkResponse_shortWrite_echo ?_).trans (State.eq_of_eq_with_idle (by exact hr.1) ?_) <;> rfl

/-- Settles O15: only the echo passes both checks. -/
theorem swriteRejectsAWrongEcho : Obligations.SwriteRejectsAWrongEcho := by
  intro a b s resp tq rq hr h1 h2 ha hl hbad
  refine execSwrite_answered hr h1 h2 ha hl ?_ hr.1
  rw [shortWriteRequest, withChecksum, answered_eq_received _ rfl,
    State.checkResponse_bad (Bool.eq_false_iff.2 fun h => hbad (eq_echo_of_checks hl h))]
  exact State.eq_of_eq_with_idle (by exact hr.1) rfl

end Sys2Proof.Machine
end

section
/-! PROOF. Where a transaction ends once its request is on offer: at an abort on TX or RX or with its full response, for
SREAD, SWRITE and each window of PREAD (41_frames.md R93 to R106; 60_exceptions.md R175, R176, R179). -/

namespace Sys2Proof.Machine

/-! ## From the request on

A command that offers its request (`State.Offers`) in `u`, and how the transport's answers end it. -/

/-- A raise inside a transaction ends its command, so it does not depend on where the engine stood. -/
theorem raiseJob_engine_congr {job : Job} {e : Err} {s t : State} (h : t = { s with engine := t.engine }) :
    t.raiseJob job e = s.raiseJob job e := by
  rw [h]
  cases job <;> rfl

section
variable {s u : State} {i : Instr} {req : List Byte} {n : Nat} {k : Bool} {job : Job}

/-- A run from the request on that ends the command is how the command ends. -/
theorem runCommand_of_offers {t : State} (hr : s.ready) (h : s.Offers i req n k job u) {m : Nat} (hm : m ≤ 300)
    (hrun : microN m u = some t) (ht : t.engine = .idle) : runCommand (some i) s = .next t := by
  obtain ⟨m0, hm0, h0⟩ := h.run
  exact runCommand_begun hr (microN_add h0 hrun) (micro_of_idle ht) (by unfold microBound; omega)

/-- An abort answered to byte `j` of the request, the bytes before it sent (R93). -/
theorem runCommand_tx_abort (hr : s.ready) (h : s.Offers i req n k job u) {j : Nat} {tq : List TxAnswer}
    (hj : j < req.length) (ht : u.txQ = List.replicate j .ok ++ .abort :: tq) :
    runCommand (some i) s = .next (State.raiseJob job .communicationError
      { u with txQ := tq, txSent := u.txSent ++ req.take j }) := by
  have hreq := h.reqLength
  have hlen : (req.take j).length = j := List.length_take_of_le hj.le
  have hsplit : req = req.take j ++ req[j] :: req.drop (j + 1) := by
    rw [← List.drop_eq_getElem_cons, List.take_append_drop]
  have hrun := runN_sending_abort letsTransact_true k job (req.take j) req[j] (req.drop (j + 1)) n tq u
    (by rw [h.engine, ← hsplit]) (by rw [hlen, ht]) h.hostQ
  exact runCommand_of_offers hr h (by omega) (hrun.trans (congrArg some (raiseJob_engine_congr rfl)))
    (raiseJob_ends _ _ _).1

/-- The request sent and the first bytes `got` of the response received, from the request on (R93). -/
theorem microN_received (h : s.Offers i req n k job u) {got : List Byte} {left : Nat} {tq : List TxAnswer}
    {rq : List RxAnswer} (hg : got.length + left = n) (ht : u.txQ = List.replicate req.length .ok ++ tq)
    (hrx : u.rxQ = got.map .byte ++ rq) :
    microN (req.length + 1 + got.length) u = some { u with
      txQ := tq, rxQ := rq, txSent := u.txSent ++ req, acc := byteSum got, engine := .receiving k job got left } := by
  subst hg
  have hsend := runN_sending letsTransact_true k job req _ tq u h.engine ht h.hostQ
  have hrecv := runN_receiving letsTransact_true k job got [] left rq
    { u with txQ := tq, txSent := u.txSent ++ req, engine := .receiving k job [] (got.length + left) } rfl hrx h.hostQ
  have hsum : u.acc + byteSum got = byteSum got := by rw [h.acc]; exact BitVec.zero_add _
  rw [hsum] at hrecv
  exact microN_add hsend hrecv

/-- An abort answered to the request for a byte of the response, the bytes `got` before it summed in ACC (R93). -/
theorem runCommand_rx_abort (hr : s.ready) (h : s.Offers i req n k job u) {got : List Byte} {tq : List TxAnswer}
    {rq : List RxAnswer} (hg : got.length < n) (ht : u.txQ = List.replicate req.length .ok ++ tq)
    (hrx : u.rxQ = got.map .byte ++ .abort :: rq) :
    runCommand (some i) s = .next (State.raiseJob job .communicationError
      { u with txQ := tq, rxQ := rq, txSent := u.txSent ++ req, acc := byteSum got }) := by
  have hreq := h.reqLength
  have hresp := h.respLength
  have hrun := microN_received h (left := n - got.length - 1 + 1) (by omega) ht hrx
  have habort := microN_add hrun (microN_succ (n := 0) (micro_receiving_abort rfl rfl h.hostQ) rfl)
  exact runCommand_of_offers hr h (by omega) (habort.trans (congrArg some (raiseJob_engine_congr rfl)))
    (raiseJob_ends _ _ _).1

/-- A full response comes to its check, and from there in at most one more micro-step to the command's end (R95). -/
theorem runCommand_answered {t : State} {m : Nat} (hr : s.ready) (h : s.Offers i req n k job u) {resp : List Byte}
    {tq : List TxAnswer} {rq : List RxAnswer} (hl : resp.length = n) (ht : u.txQ = List.replicate req.length .ok ++ tq)
    (hrx : u.rxQ = resp.map .byte ++ rq) (hm : m ≤ 1)
    (hrun : microN m (State.checkResponse k job resp { u with
      txQ := tq, rxQ := rq, txSent := u.txSent ++ req, acc := byteSum resp, engine := .receiving k job resp 0 }) = some t)
    (hend : t.engine = .idle) : runCommand (some i) s = .next t := by
  have hreq := h.reqLength
  have hresp := h.respLength
  have hrecv := microN_received h (left := 0) hl ht hrx
  have hcheck := microN_add hrecv (microN_succ (micro_receiving_zero rfl h.hostQ) hrun)
  exact runCommand_of_offers hr h (by omega) hcheck hend

/-- A full response that fails a check (R95). -/
theorem runCommand_bad_response (hr : s.ready) (h : s.Offers i req n k job u) {resp : List Byte} {tq : List TxAnswer}
    {rq : List RxAnswer} (hl : resp.length = n) (ht : u.txQ = List.replicate req.length .ok ++ tq)
    (hrx : u.rxQ = resp.map .byte ++ rq) (hbad : ∀ t : State, (cookieOk k resp && t.responseOk k job resp) = false) :
    runCommand (some i) s = .next (State.raiseJob job .badResponse
      { u with txQ := tq, rxQ := rq, txSent := u.txSent ++ req, acc := byteSum resp }) := by
  refine runCommand_answered (m := 0) hr h hl ht hrx (by decide) ?_ (raiseJob_ends _ _ _).1
  rw [State.checkResponse_bad (hbad _)]
  exact congrArg some (raiseJob_engine_congr rfl)

end

/-! ## Aborts of a short transaction -/

/-- Command `i` with its request `bs` and checksum on offer for a response of `n` bytes. -/
def State.offering (s : State) (i : Instr) (job : Job) (bs : List Byte) (n : Nat) : State :=
  { s.issue (some i) with
    lastcs := checksum bs, acc := 0, engine := .sending s.cookieEn job (cookieBytes s.cookieEn ++ withChecksum bs) n }

section
variable {s : State} {a b : Byte} (hr : s.ready) (h1 : shortMin ≤ b.toNat) (h2 : b.toNat ≤ shortMax)
include hr h1 h2

theorem offers_shortRead :
    s.Offers (.sread a b) (cookieBytes s.cookieEn ++ shortReadRequest a b) (cookieLen s.cookieEn + b.toNat + 1)
      s.cookieEn (.shortRead b.toNat)
      (s.offering (.sread a b) (.shortRead b.toNat) [0x81, a, b] (cookieLen s.cookieEn + b.toNat + 1)) := by
  have hc := cookieLen_le s.cookieEn
  have hmax : b.toNat ≤ 16 := h2
  have hlen : (cookieBytes s.cookieEn ++ shortReadRequest a b).length ≤ 21 := by
    rw [List.length_append, cookieBytes_length, shortReadRequest_length]
    omega
  exact offers_of_startTransact (by exact hr.2) (by decide) hlen (by omega) (microN_beginSread hr h1 h2)

theorem offers_shortWrite :
    s.Offers (.swrite a b) (cookieBytes s.cookieEn ++ shortWriteRequest a b (s.wbuf.toList.take b.toNat))
      (cookieLen s.cookieEn + 1) s.cookieEn .shortWrite
      (s.offering (.swrite a b) .shortWrite (0x01 :: a :: b :: s.wbuf.toList.take b.toNat) (cookieLen s.cookieEn + 1)) := by
  have hc := cookieLen_le s.cookieEn
  have hmax : b.toNat ≤ 16 := h2
  have hlen : (cookieBytes s.cookieEn ++ shortWriteRequest a b (s.wbuf.toList.take b.toNat)).length ≤ 21 := by
    have hp := List.length_take_le b.toNat s.wbuf.toList
    rw [List.length_append, cookieBytes_length, shortWriteRequest_length]
    omega
  have h := offers_of_startTransact (by exact hr.2) (by decide) hlen (by omega) (microN_beginSwrite (a := a) hr h1 h2)
  rw [shortWriteRequest, withChecksum, List.getLastD_concat] at h
  exact h

end

/-- Settles O16: each aborted answer is to a byte of the request on offer or of its response. -/
theorem abortEndsAShortTransaction : Obligations.AbortEndsAShortTransaction := by
  intro a b s hr h1 h2
  have hread := offers_shortRead (a := a) hr h1 h2
  have hwrite := offers_shortWrite (a := a) hr h1 h2
  have hreadLen : (cookieBytes s.cookieEn ++ shortReadRequest a b).length = cookieLen s.cookieEn + 4 := by simp
  have hwriteLen : (cookieBytes s.cookieEn ++ shortWriteRequest a b (s.wbuf.toList.take b.toNat)).length =
      cookieLen s.cookieEn + b.toNat + 4 := by
    have hmax : b.toNat ≤ 16 := h2
    simp
    omega
  refine ⟨fun j tq hj ht => ?_, fun j tq hj ht => ?_, fun got tq rq hg ht hrx => ?_, fun got tq rq hg ht hrx => ?_⟩
  · exact (runCommand_tx_abort hr hread (by omega) ht).trans
      (congrArg _ (State.eq_of_eq_with_idle (by exact hr.1) rfl))
  · exact (runCommand_tx_abort hr hwrite (by omega) ht).trans
      (congrArg _ (State.eq_of_eq_with_idle (by exact hr.1) rfl))
  · exact (runCommand_rx_abort hr hread hg (by rw [hreadLen]; exact ht) hrx).trans
      (congrArg _ (State.eq_of_eq_with_idle (by exact hr.1) rfl))
  · exact (runCommand_rx_abort hr hwrite hg (by rw [hwriteLen]; exact ht) hrx).trans
      (congrArg _ (State.eq_of_eq_with_idle (by exact hr.1) rfl))

end Sys2Proof.Machine
end

section
/-! PROOF. Where PREAD ends on a ready machine: after its last window, at a window with a bad response, and at an abort
(41_frames.md R102 to R106). -/

namespace Sys2Proof.Machine

/-! ## The windows before the last request -/

theorem pageRequests_succ (k : Bool) (a : Byte) (n : Nat) :
    pageRequests k a.toNat (n + 1) =
      pageRequests k a.toNat n ++ (cookieBytes k ++ pagedReadRequest (a + BitVec.ofNat 8 n)) := by
  have hpage : BitVec.ofNat 8 (a.toNat + (0 + n)) = a + BitVec.ofNat 8 n := BitVec.eq_of_toNat_eq (by simp)
  rw [pageRequests_eq, pageRequests_eq, requestsFrom_snoc, hpage]

theorem pagePayload_length {k : Bool} {resp : List Byte} (h : goodResponse k devPage resp) :
    (pagePayload k resp).length = devPage := by
  obtain ⟨hl, -, -⟩ := h
  rw [pagePayload, List.length_take, List.length_drop]
  omega

/-- PREAD with the request of window `resps.length` on offer, the windows before it answered with `resps` (R102 to R104). -/
def State.fetching (s : State) (a b : Byte) (resps : List (List Byte)) (tq : List TxAnswer) (rq : List RxAnswer) : State :=
  { s.issue (some (.pread a b)) with
    dump := storePages s.dump a.toNat (resps.map (pagePayload s.cookieEn))
    ptotal := b
    pdone := BitVec.ofNat 8 resps.length
    prog := true
    acc := 0
    lastcs := checksum [0xC1, a + BitVec.ofNat 8 resps.length, 0x01]
    txQ := tq
    rxQ := rq
    txSent := s.txSent ++ pageRequests s.cookieEn a.toNat resps.length
    engine := .sending s.cookieEn (.pagedRead ⟨a.toNat, b.toNat, resps.length⟩ (a.toNat + resps.length))
      (cookieBytes s.cookieEn ++ pagedReadRequest (a + BitVec.ofNat 8 resps.length)) (cookieLen s.cookieEn + devPage + 1) }

section
variable {s : State} {a b : Byte} {resps : List (List Byte)} {tq : List TxAnswer} {rq : List RxAnswer}

theorem offers_window (hr : s.ready) (hab : a.toNat + b.toNat ≤ 256) (hlt : resps.length < b.toNat)
    (hg : ∀ resp ∈ resps, goodResponse s.cookieEn devPage resp)
    (ha : s.answers (pageRequests s.cookieEn a.toNat resps.length) resps.flatten tq rq) :
    s.Offers (.pread a b) (cookieBytes s.cookieEn ++ pagedReadRequest (a + BitVec.ofNat 8 resps.length))
      (cookieLen s.cookieEn + devPage + 1) s.cookieEn
      (.pagedRead ⟨a.toNat, b.toNat, resps.length⟩ (a.toNat + resps.length)) (s.fetching a b resps tq rq) where
  run := by
    have hb := b.isLt
    obtain ⟨m, hm, h⟩ := microN_beginPread_window hr hab hlt hg ha
    exact ⟨m, by omega, h⟩
  engine := rfl
  hostQ := hr.2
  acc := rfl
  reqLength := by
    have hc := cookieLen_le s.cookieEn
    rw [List.length_append, cookieBytes_length, pagedReadRequest_length]
    omega
  respLength := by
    have hc := cookieLen_le s.cookieEn
    unfold devPage
    omega

/-! ## A failed window -/

/-- How PREAD ends in `t` when window `i` fails with `e`: the bytes `sent` were sent, `acc` sums what was received in the
window, and the command's pages are unspecified (R104 to R106). -/
def State.PreadFails (s : State) (a b : Byte) (i : Nat) (e : Err) (acc : Byte) (tq : List TxAnswer) (rq : List RxAnswer)
    (sent : List Byte) (t : State) : Prop :=
  t = { s with
    dump := t.dump
    epoch := s.epoch + 1
    ptotal := b
    pdone := BitVec.ofNat 8 i
    prog := true
    acc := acc
    lastcs := checksum [0xC1, a + BitVec.ofNat 8 i, 0x01]
    txQ := tq
    rxQ := rq
    txSent := s.txSent ++ sent
    done := true
    err := e } ∧
  ∀ x, t.dump.read x =
    if devPage * a.toNat ≤ x ∧ x < devPage * (a.toNat + b.toNat) then none else s.dump.read x

/-- The pages the earlier windows wrote are among those the command forgets. -/
theorem read_forget_storePages (hlt : resps.length < b.toNat) (hg : ∀ resp ∈ resps, goodResponse s.cookieEn devPage resp)
    (m : Memory) (x : Nat) :
    ((storePages m a.toNat (resps.map (pagePayload s.cookieEn))).forget (devPage * a.toNat)
      (devPage * (a.toNat + b.toNat))).read x =
      if devPage * a.toNat ≤ x ∧ x < devPage * (a.toNat + b.toNat) then none else m.read x := by
  have hlen : ∀ page ∈ resps.map (pagePayload s.cookieEn), page.length ≤ devPage := by
    intro page hpage
    obtain ⟨resp, hresp, rfl⟩ := List.mem_map.1 hpage
    exact (pagePayload_length (hg resp hresp)).le
  rw [Memory.read_forget]
  refine if_ctx_congr Iff.rfl (fun _ => rfl) fun hx => read_storePages_outside hlen ?_
  rw [List.length_map]
  unfold devPage at *
  omega

/-- A failure of the window on offer, after which the bytes `sent` have been sent since issue. -/
theorem raiseJob_preadFails {e : Err} {acc : Byte} {tq' : List TxAnswer} {rq' : List RxAnswer} {sent req : List Byte}
    (hr : s.ready) (hlt : resps.length < b.toNat) (hg : ∀ resp ∈ resps, goodResponse s.cookieEn devPage resp)
    (hsent : sent = pageRequests s.cookieEn a.toNat resps.length ++ req) :
    s.PreadFails a b resps.length e acc tq' rq' sent
      (State.raiseJob (.pagedRead ⟨a.toNat, b.toNat, resps.length⟩ (a.toNat + resps.length)) e
        { s.fetching a b resps tq rq with
          txQ := tq', rxQ := rq', txSent := (s.fetching a b resps tq rq).txSent ++ req, acc := acc }) := by
  refine ⟨State.eq_of_eq_with_idle (by exact hr.1) ?_, read_forget_storePages hlt hg s.dump⟩
  rw [hsent, ← List.append_assoc]
  rfl

end

/-- Settles O18: the window's response fails a check, and what the earlier windows wrote is forgotten with the rest. -/
theorem preadStopsAtABadWindow : Obligations.PreadStopsAtABadWindow := by
  intro a b s resps bad tq rq hr hab hlt hg hl hbad ha
  rw [pageRequests_succ] at ha
  have h := offers_window hr hab hlt hg (State.answers_append ha)
  exact ⟨_, runCommand_bad_response hr h hl rfl rfl (fun _ => checks_fail_of_not_good hl hbad),
    raiseJob_preadFails hr hlt hg (pageRequests_succ _ _ _)⟩

/-- Settles O19: each aborted answer is to a byte of the window's request or of its response. -/
theorem abortEndsAPagedRead : Obligations.AbortEndsAPagedRead := by
  intro a b s resps hr hab hlt hg
  have hreq : (cookieBytes s.cookieEn ++ pagedReadRequest (a + BitVec.ofNat 8 resps.length)).length =
      cookieLen s.cookieEn + 4 := by simp
  refine ⟨fun j tq rq hj ht hrx => ?_, fun got tq rq hgot ht hrx => ?_⟩
  · rw [List.replicate_add, List.append_assoc] at ht
    have h := offers_window hr hab hlt hg ⟨ht, hrx⟩
    refine ⟨_, runCommand_tx_abort hr h (by omega) rfl, raiseJob_preadFails hr hlt hg ?_⟩
    rw [pageRequests_succ, List.take_length_add_append]
  · rw [pageRequests_succ, List.length_append, List.replicate_add, List.append_assoc] at ht
    rw [List.map_append, List.append_assoc] at hrx
    have h := offers_window hr hab hlt hg ⟨ht, hrx⟩
    exact ⟨_, runCommand_rx_abort hr h hgot rfl rfl, raiseJob_preadFails hr hlt hg (pageRequests_succ _ _ _)⟩

/-! ## The last window -/

/-- Settles O17: after the windows before it the last one's page is written, PDONE is T, and the command ends. -/
theorem preadFetchesItsPages : Obligations.PreadFetchesItsPages := by
  intro a b s resps tq rq hr hb hab hl hg ha
  obtain rfl | ⟨init, last, rfl⟩ := resps.eq_nil_or_concat'
  · rw [List.length_nil] at hl
    omega
  have hlen : init.length + 1 = b.toNat := by rw [← hl, List.length_append, List.length_singleton]
  have hinit : ∀ resp ∈ init, goodResponse s.cookieEn devPage resp := fun resp h => hg resp (by simp [h])
  have hlast : goodResponse s.cookieEn devPage last := hg last (by simp)
  have hpage : a + b - 1 = a + BitVec.ofNat 8 init.length := by bv_omega
  have hdone : BitVec.ofNat 8 b.toNat = b := by rw [BitVec.ofNat_toNat, BitVec.setWidth_eq]
  have hsent : pageRequests s.cookieEn a.toNat b.toNat = pageRequests s.cookieEn a.toNat init.length ++
      (cookieBytes s.cookieEn ++ pagedReadRequest (a + BitVec.ofNat 8 init.length)) := by rw [← hlen, pageRequests_succ]
  rw [hsent, List.flatten_append, List.flatten_singleton] at ha
  have h := offers_window hr hab (by omega) hinit (State.answers_append ha)
  refine runCommand_answered (m := 1) hr h hlast.1 rfl rfl (by decide) ?_ hr.1
  rw [State.checkResponse_good hlast, State.endWindow, if_neg (by simp only; omega)]
  refine microN_succ (n := 0) (micro_ending rfl hr.2) (congrArg some (State.eq_of_eq_with_idle (by exact hr.1) ?_))
  rw [hsent, ← List.append_assoc s.txSent, List.map_append, storePages_append, List.length_map, hpage, hdone,
    byteSum_of_good hlast]
  rfl

end Sys2Proof.Machine
end

section
/-! PROOF. What the transactions and their frames leave unchanged, also where they wait, fail or are interrupted by a host
access (41_frames.md R96, R99, R100, R104, R106; 60_exceptions.md R179). -/

namespace Sys2Proof.Machine

/-! ## What a move inside a transaction can do -/

/-- The job of the transaction the engine is in. -/
def Engine.job? : Engine → Option Job
  | .clearSum _ job _ _ => some job
  | .sending _ job _ _ => some job
  | .receiving _ job _ _ => some job
  | _ => none

/-- `t` is `s` but for ACC, the ports and where the engine stands. -/
def State.PortsOnly (s t : State) : Prop :=
  t = { s with acc := t.acc, engine := t.engine, txQ := t.txQ, rxQ := t.rxQ, txSent := t.txSent }

/-- A move of a transaction for `job`: it goes on, an abort ends it, or its whole response is checked (R93, R95). -/
inductive State.TransactMove (job : Job) (s : State) : State → Prop
  | goesOn {t : State} (h : s.PortsOnly t) (hjob : t.engine.job? = some job) : s.TransactMove job t
  | aborts {u : State} (h : s.PortsOnly u) (e : Err) : s.TransactMove job (u.raiseJob job e)
  | checks (k : Bool) (resp : List Byte) : s.TransactMove job (s.checkResponse k job resp)

theorem stepSending_transactMove {k : Bool} {job : Job} {rest : List Byte} {n : Nat} {s t : State}
    (h : s.stepSending k job rest n = some t) : s.TransactMove job t := by
  unfold State.stepSending at h
  split at h
  · cases h
    exact .goesOn rfl rfl
  · split at h <;> cases h
    · exact .goesOn rfl rfl
    · exact .aborts (by exact rfl) _

theorem stepReceiving_transactMove {k : Bool} {job : Job} {resp : List Byte} {left : Nat} {s t : State}
    (h : s.stepReceiving k job resp left = some t) : s.TransactMove job t := by
  unfold State.stepReceiving at h
  split at h
  · cases h
    exact .checks k resp
  · split at h <;> cases h
    · exact .goesOn rfl rfl
    · exact .aborts (by exact rfl) _

theorem move_transactMove {job : Job} {s t : State} (hj : s.engine.job? = some job) (hm : s.move = some t) :
    s.TransactMove job t := by
  unfold State.move at hm
  split at hm <;> rename_i heq <;> rw [heq] at hj <;> cases hj
  · cases hm
    exact .goesOn rfl rfl
  · exact stepSending_transactMove hm
  · exact stepReceiving_transactMove hm

/-- A staged frame is taken up as the wire frame it decodes to. -/
theorem takeRequest_eq_takeFrame {frame : List Byte} {i : Instr} (hd : decodeFrame frame = .ok (i, []))
    (hi : isCommand i = false) (k : Bool) (w : Option Window) (s : State) :
    s.takeRequest k w frame = takeFrame i k w s := by
  unfold State.takeRequest
  rw [hd]
  cases i with
  | wireShortRead | wireShortWrite | wirePagedRead => rfl
  | _ => cases hi

/-- A wire frame either runs the staged request's transaction or, with no request staged, changes nothing. -/
theorem exec_frame_cases {i : Instr} {s t : State} (hi : isCommand i = false) (ht : exec i s = .next t) :
    (∃ k w frame, s.engine = .request k w frame ∧ t = settleRequest s (takeFrame i k w s)) ∨
      (∀ k w frame, s.engine ≠ .request k w frame) ∧ t = s := by
  rw [exec_frame hi] at ht
  by_cases hs : ∃ k w frame, s.engine = .request k w frame
  · obtain ⟨k, w, frame, hs⟩ := hs
    rw [runRequest_staged hs] at ht
    cases ht
    exact .inl ⟨k, w, frame, hs, rfl⟩
  · have hnone : ∀ k w frame, s.engine ≠ .request k w frame := fun k w frame he => hs ⟨k, w, frame, he⟩
    rw [runRequest_unstaged hnone] at ht
    cases ht
    exact .inr ⟨hnone, rfl⟩

/-! ## Short transactions -/

/-- Whether an instruction is a short transaction, and then whether it reads. -/
def shortReads : Instr → Option Bool
  | .sread _ _ => some true
  | .swrite _ _ => some false
  | .wireShortRead _ _ _ => some true
  | .wireShortWrite _ _ _ _ => some false
  | _ => none

/-- Whether a job is a short transaction, and then whether it reads. -/
def Job.shortReads : Job → Option Bool
  | .shortRead _ => some true
  | .shortWrite => some false
  | .pagedRead _ _ => none

/-- `t` is `s` but for what a short transaction writes; only a read writes RBUF. -/
structure State.ShortKept (reads : Bool) (s t : State) : Prop where
  same : t = { s with
    acc := t.acc, lastcs := t.lastcs, rbuf := t.rbuf, txQ := t.txQ, rxQ := t.rxQ, txSent := t.txSent, done := t.done
    err := t.err, engine := t.engine, hostQ := t.hostQ }
  rbuf : reads = false → t.rbuf = s.rbuf

/-- The engine has a short transaction in flight, or has ended it. -/
def Engine.shortAt (reads : Bool) : Engine → Prop
  | .idle => True
  | .issued _ cmd => ∃ i, cmd = some i ∧ isCommand i = true ∧ shortReads i = some reads
  | .request _ _ frame => ∃ i, decodeFrame frame = .ok (i, []) ∧ isCommand i = false ∧ shortReads i = some reads
  | e => ∃ job, e.job? = some job ∧ job.shortReads = some reads

/-- Since `s` a short transaction has run in `t`, which is in flight or ended. -/
structure State.ShortRuns (reads : Bool) (s t : State) : Prop where
  kept : s.ShortKept reads t
  engine : t.engine.shortAt reads

section
variable {reads : Bool} {s t u : State}

theorem State.ShortKept.trans (h : s.ShortKept reads t) (h' : t.ShortKept reads u) : s.ShortKept reads u :=
  ⟨Eq.trans h'.same (by rw [h.same]), fun hw => (h'.rbuf hw).trans (h.rbuf hw)⟩

theorem State.ShortRuns.trans (h : s.ShortRuns reads t) (h' : t.ShortRuns reads u) : s.ShortRuns reads u :=
  ⟨h.kept.trans h'.kept, h'.engine⟩

theorem State.PortsOnly.shortKept (h : s.PortsOnly t) : s.ShortKept reads t := by
  rw [h]
  exact ⟨rfl, fun _ => rfl⟩

theorem raiseJob_shortRuns {job : Job} (hj : job.shortReads = some reads) (e : Err) (s : State) :
    s.ShortRuns reads (s.raiseJob job e) := by
  cases job with
  | shortRead n => cases hj; exact ⟨⟨rfl, nofun⟩, trivial⟩
  | shortWrite => exact ⟨⟨rfl, fun _ => rfl⟩, trivial⟩
  | pagedRead w page => cases hj

theorem checkResponse_shortRuns {job : Job} (hj : job.shortReads = some reads) (k : Bool) (resp : List Byte) (s : State) :
    s.ShortRuns reads (s.checkResponse k job resp) := by
  unfold State.checkResponse
  split
  · cases job with
    | shortRead n => cases hj; exact ⟨⟨rfl, nofun⟩, trivial⟩
    | shortWrite => exact ⟨⟨rfl, fun _ => rfl⟩, trivial⟩
    | pagedRead w page => cases hj
  · exact raiseJob_shortRuns hj _ s

theorem startTransact_shortRuns {job : Job} (hj : job.shortReads = some reads) (k : Bool) (frame : List Byte) (n : Nat)
    (s : State) : s.ShortRuns reads (s.startTransact k job frame n) :=
  ⟨⟨rfl, fun _ => rfl⟩, job, rfl, hj⟩

theorem takeFrame_shortRuns {i : Instr} (hi : isCommand i = false) (hr : shortReads i = some reads) (k : Bool)
    (w : Option Window) (s : State) : s.ShortRuns reads (takeFrame i k w s) := by
  cases i with
  | wireShortRead addr len cs =>
    rw [takeFrame, State.takeShortRead]
    split
    · exact startTransact_shortRuns (by exact hr) _ _ _ s
    · exact raiseJob_shortRuns (by exact hr) _ s
  | wireShortWrite addr len payload cs =>
    rw [takeFrame, State.takeShortWrite]
    split
    · exact startTransact_shortRuns (by exact hr) _ _ _ s
    · exact raiseJob_shortRuns (by exact hr) _ s
  | sread | swrite => cases hi
  | _ => cases hr

theorem beginCommand_shortRuns {i : Instr} (hi : isCommand i = true) (hr : shortReads i = some reads) (k : Bool)
    (s : State) : s.ShortRuns reads (s.beginCommand k (some i)) := by
  cases i with
  | sread a b =>
    rw [State.beginCommand, State.beginSread]
    split
    · exact ⟨⟨rfl, fun _ => rfl⟩, _, decodeFrame_shortRead a b _ [], rfl, hr⟩
    · exact raiseJob_shortRuns (job := .shortRead 0) hr _ s
  | swrite a b =>
    rw [State.beginCommand, State.beginSwrite]
    split
    next hlen =>
      have hp : (s.wbuf.toList.take b.toNat).length = b.toNat := by
        have := (shortLenOk_iff b).1 hlen
        simp
        omega
      have hd := decodeFrame_shortWrite a b _ (checksum (0x01 :: a :: b :: s.wbuf.toList.take b.toNat)) [] hp
      rw [List.append_nil] at hd
      exact ⟨⟨rfl, fun _ => rfl⟩, _, hd, rfl, hr⟩
    next => exact raiseJob_shortRuns (job := .shortWrite) hr _ s
  | wireShortRead | wireShortWrite => cases hi
  | _ => cases hr

theorem shortAt_of_job {e : Engine} {job : Job} (he : e.job? = some job) (hj : job.shortReads = some reads) :
    e.shortAt reads := by
  cases e with
  | clearSum | sending | receiving => exact ⟨job, he, hj⟩
  | _ => cases he

theorem transactMove_shortRuns {job : Job} (hj : job.shortReads = some reads) (h : s.TransactMove job t) :
    s.ShortRuns reads t := by
  cases h with
  | goesOn hports hjob => exact ⟨hports.shortKept, shortAt_of_job hjob hj⟩
  | aborts hports e =>
    have hraise := raiseJob_shortRuns hj e
    exact ⟨hports.shortKept.trans (hraise _).kept, (hraise _).engine⟩
  | checks k resp => exact checkResponse_shortRuns hj k resp s

/-- A short transaction's next move is its command's first, the taking up of its frame, or one inside the transaction. -/
theorem move_shortRuns (he : s.engine.shortAt reads) (hm : s.move = some t) : s.ShortRuns reads t := by
  have hmove := hm
  unfold State.move at hm
  cases hs : s.engine <;> rw [hs] at he hm
  case idle => cases hm
  case issued k cmd =>
    cases hm
    obtain ⟨i, rfl, hi, hr⟩ := he
    exact beginCommand_shortRuns hi hr k s
  case request k w frame =>
    cases hm
    obtain ⟨i, hd, hi, hr⟩ := he
    rw [takeRequest_eq_takeFrame hd hi]
    exact takeFrame_shortRuns hi hr k w s
  all_goals
    obtain ⟨job, hjob, hr⟩ := he
    rw [← hs] at hjob
    exact transactMove_shortRuns hr (move_transactMove hjob hmove)

theorem micro_shortRuns (h : s.ShortRuns reads t) (hm : micro t = some u) : s.ShortRuns reads u := by
  obtain ⟨v, hv, rfl⟩ := Option.map_eq_some_iff.1 hm
  have htick : v.ShortKept reads v.tick := ⟨rfl, fun _ => rfl⟩
  have hmove := h.trans (move_shortRuns h.engine hv)
  exact ⟨hmove.kept.trans htick, hmove.engine⟩

theorem exec_shortKept {i : Instr} (hr : shortReads i = some reads) (he : isCommand i = true → s.engine = .idle)
    (ht : exec i s = .next t) : s.ShortKept reads t := by
  cases hi : isCommand i with
  | true =>
    have hissue : s.ShortRuns reads (s.issue (some i)) := by
      refine ⟨⟨?_, fun _ => rfl⟩, i, rfl, hi, hr⟩
      cases i with
      | sread | swrite => rfl
      | wireShortRead | wireShortWrite => cases hi
      | _ => cases hr
    rw [exec_command hi, runCommand_idle ((State.busy_eq_false_iff s).2 (he hi))] at ht
    cases ht
    exact (drive_induct (P := s.ShortRuns reads) (fun _ _ => micro_shortRuns) _ _ hissue).kept
  | false =>
    obtain ⟨k, w, frame, -, rfl⟩ | ⟨-, rfl⟩ := exec_frame_cases hi ht
    · have htake := takeFrame_shortRuns hi hr k w s
      have htick : s.ShortRuns reads (takeFrame i k w s).tick := ⟨htake.kept.trans ⟨rfl, fun _ => rfl⟩, htake.engine⟩
      exact (drive_induct (P := s.ShortRuns reads) (fun _ _ => micro_shortRuns) _ _ htick).kept
    · exact ⟨rfl, fun _ => rfl⟩

end

/-- Settles O55: every micro-step of a short transaction keeps the frame, and only a read's end writes RBUF. -/
theorem shortTransactionsFrame : Obligations.ShortTransactionsFrame := by
  intro i s t ht hi
  obtain ⟨reads, hr, he, hwrite⟩ : ∃ reads, shortReads i = some reads ∧ (isCommand i = true → s.engine = .idle) ∧
      ((∀ a b, i ≠ .sread a b) → (∀ a b c, i ≠ .wireShortRead a b c) → reads = false) := by
    cases i with
    | sread a b => exact ⟨_, rfl, fun _ => hi, fun h _ => absurd rfl (h a b)⟩
    | swrite a b => exact ⟨_, rfl, fun _ => hi, fun _ _ => rfl⟩
    | wireShortRead a b c => exact ⟨_, rfl, nofun, fun _ h => absurd rfl (h a b c)⟩
    | wireShortWrite => exact ⟨_, rfl, nofun, fun _ _ => rfl⟩
    | _ => exact hi.elim
  obtain ⟨hsame, hrbuf⟩ := exec_shortKept hr he ht
  rw [hsame] at hrbuf ⊢
  exact ⟨rfl, rfl, rfl, rfl, rfl, rfl, rfl, fun h h' => hrbuf (hwrite h h')⟩

end Sys2Proof.Machine
end

section
/-! PROOF. What PREAD and the paged read frame leave unchanged, also where they wait, fail or are interrupted by a host
access (41_frames.md R99, R102, R104, R106). -/

namespace Sys2Proof.Machine

/-- What every micro-step that `go` lets be taken keeps, a drive keeps. -/
theorem drive_induct_while {go : Engine → Bool} {P : State → Prop}
    (hP : ∀ s t, P s → go s.engine = true → micro s = some t → P t) : ∀ n s, P s → P (drive go n s) := by
  intro n
  induction n with
  | zero => exact fun s h => h
  | succ n ih =>
    intro s h
    rw [drive]
    split
    · split
      · exact ih _ (hP _ _ h ‹_› ‹_›)
      · exact h
    · exact h

/-! ## What a page's transaction writes -/

/-- Byte `x` lies in DUMP pages `p` to `p + n - 1`. -/
def inPages (p n x : Nat) : Prop := devPage * p ≤ x ∧ x < devPage * (p + n)

/-- `t` is `s` but for what a paged read writes, and of DUMP it writes only bytes that `may` allows. -/
structure State.PagedKept (may : Nat → Prop) (s t : State) : Prop where
  reccnt : t.reccnt = s.reccnt
  rbuf : t.rbuf = s.rbuf
  recm : t.recm = s.recm
  dump : ∀ x, ¬ may x → t.dump.read x = s.dump.read x

/-- What the transaction of one window keeps beside that: PTOTAL and PROG. -/
structure State.WindowKept (may : Nat → Prop) (s t : State) : Prop extends State.PagedKept may s t where
  ptotal : t.ptotal = s.ptotal
  prog : t.prog = s.prog

section
variable {may : Nat → Prop} {s t u : State}

theorem State.PagedKept.trans (h : s.PagedKept may t) (h' : t.PagedKept may u) : s.PagedKept may u :=
  ⟨h'.reccnt.trans h.reccnt, h'.rbuf.trans h.rbuf, h'.recm.trans h.recm, fun x hx => (h'.dump x hx).trans (h.dump x hx)⟩

theorem State.WindowKept.trans (h : s.WindowKept may t) (h' : t.WindowKept may u) : s.WindowKept may u :=
  ⟨h.toPagedKept.trans h'.toPagedKept, h'.ptotal.trans h.ptotal, h'.prog.trans h.prog⟩

/-- A move that writes no DUMP byte. -/
theorem windowKept_of_dump_same (h : t = { s with
    acc := t.acc, lastcs := t.lastcs, pdone := t.pdone, txQ := t.txQ, rxQ := t.rxQ, txSent := t.txSent, done := t.done
    err := t.err, engine := t.engine, hostQ := t.hostQ }) : s.WindowKept may t := by
  rw [h]
  exact ⟨⟨rfl, rfl, rfl, fun _ _ => rfl⟩, rfl, rfl⟩

theorem tick_windowKept (s : State) : s.WindowKept may s.tick := windowKept_of_dump_same rfl

theorem State.PortsOnly.windowKept (h : s.PortsOnly t) : s.WindowKept may t := by
  rw [h]
  exact windowKept_of_dump_same rfl

/-! ## The transaction of a window -/

/-- Where the engine stands after the transaction of window `w`: IDLE, before the completion, or before the next window. -/
def Engine.afterWindow (w : Window) (e : Engine) : Prop :=
  e = .idle ∨ e = .ending (some w) ∨ ∃ k, e = .progress k { w with i := w.i + 1 } ∧ w.i + 1 < w.total

/-- Since `s` the transaction of window `w` for `page` has run in `t`, which is in it or just after it. -/
structure State.WindowRuns (may : Nat → Prop) (w : Window) (page : Nat) (s t : State) : Prop where
  kept : s.WindowKept may t
  engine : t.engine.job? = some (.pagedRead w page) ∨ t.engine.afterWindow w

section
variable {w : Window} {page : Nat}

theorem State.WindowRuns.trans (h : s.WindowRuns may w page t) (h' : t.WindowRuns may w page u) :
    s.WindowRuns may w page u := ⟨h.kept.trans h'.kept, h'.engine⟩

theorem startTransact_windowRuns (k : Bool) (frame : List Byte) (n : Nat) (s : State) :
    s.WindowRuns may w page (s.startTransact k (.pagedRead w page) frame n) :=
  ⟨windowKept_of_dump_same rfl, .inl rfl⟩

theorem dumpWrite_windowKept (hpage : ∀ x, inPages page 1 x → may x) {bs : List Byte} (hbs : bs.length ≤ devPage)
    (s : State) : s.WindowKept may (s.dumpWrite (devPage * page) bs) := by
  refine ⟨⟨rfl, rfl, rfl, fun x hx => Memory.read_store_outside ?_⟩, rfl, rfl⟩
  have hout : ¬ inPages page 1 x := fun h => hx (hpage x h)
  unfold inPages devPage at *
  omega

variable (hpages : ∀ x, inPages w.p0 w.total x → may x)
include hpages

theorem forgetPages_windowKept (s : State) : s.WindowKept may (s.forgetPages w.p0 w.total) :=
  ⟨⟨rfl, rfl, rfl, fun x hx => (Memory.read_forget _ _ _ x).trans (if_neg fun h => hx (hpages x h))⟩, rfl, rfl⟩

theorem raiseJob_windowRuns (e : Err) (s : State) : s.WindowRuns may w page (s.raiseJob (.pagedRead w page) e) :=
  ⟨(forgetPages_windowKept hpages s).trans (windowKept_of_dump_same rfl), .inr (.inl rfl)⟩

variable (hpage : ∀ x, inPages page 1 x → may x)
include hpage

theorem checkResponse_windowRuns (k : Bool) (resp : List Byte) (s : State) :
    s.WindowRuns may w page (s.checkResponse k (.pagedRead w page) resp) := by
  have hstore := dumpWrite_windowKept hpage (List.length_take_le devPage (resp.drop (cookieLen k))) s
  unfold State.checkResponse
  split
  · simp only [State.endWindow]
    split
    next hnext => exact ⟨hstore.trans (windowKept_of_dump_same rfl), .inr (.inr (.inr ⟨k, rfl, hnext⟩))⟩
    next => exact ⟨hstore.trans (windowKept_of_dump_same rfl), .inr (.inr (.inl rfl))⟩
  · exact raiseJob_windowRuns hpages _ s

theorem transactMove_windowRuns (h : s.TransactMove (.pagedRead w page) t) : s.WindowRuns may w page t := by
  cases h with
  | goesOn hports hjob => exact ⟨hports.windowKept, .inl hjob⟩
  | aborts hports e =>
    have hraise := raiseJob_windowRuns (page := page) hpages e
    exact ⟨hports.windowKept.trans (hraise _).kept, (hraise _).engine⟩
  | checks k resp => exact checkResponse_windowRuns hpages hpage k resp s

/-- A move inside the transaction goes on with it, a move after its last window is the completion. -/
theorem micro_windowRuns (h : s.WindowRuns may w page t) (hgo : t.engine.inTransaction = true) (hm : micro t = some u) :
    s.WindowRuns may w page u := by
  obtain ⟨v, hv, rfl⟩ := Option.map_eq_some_iff.1 hm
  have hmove : t.WindowRuns may w page v := by
    rcases h.engine with hjob | he | he | ⟨k, he, -⟩
    · exact transactMove_windowRuns hpages hpage (move_transactMove hjob hv)
    · rw [State.move, he] at hv
      cases hv
    · rw [State.move, he] at hv
      cases hv
      exact ⟨windowKept_of_dump_same rfl, .inr (.inl rfl)⟩
    · rw [he] at hgo
      cases hgo
  exact ⟨(h.trans hmove).kept.trans (tick_windowKept v), hmove.engine⟩

end

/-- A staged paged read frame may write its own page and its command's pages. -/
def framePages (w : Option Window) (page : Byte) (x : Nat) : Prop :=
  inPages page.toNat 1 x ∨ inPages (windowOf w page).p0 (windowOf w page).total x

theorem takePagedRead_windowRuns (k : Bool) (w : Option Window) (page count cs : Byte) (s : State) :
    s.WindowRuns (framePages w page) (windowOf w page) page.toNat (s.takePagedRead k w page count cs) := by
  unfold State.takePagedRead
  split
  · exact startTransact_windowRuns _ _ _ s
  · exact raiseJob_windowRuns (fun _ => .inr) _ s

/-- The run of a staged paged read frame. -/
theorem settleRequest_windowKept (k : Bool) (w : Option Window) (page count cs : Byte) (s : State) :
    s.WindowKept (framePages w page) (settleRequest s (s.takePagedRead k w page count cs)) := by
  have htake := takePagedRead_windowRuns k w page count cs s
  have htick := htake.kept.trans (tick_windowKept _)
  exact (drive_induct_while (P := s.WindowRuns (framePages w page) (windowOf w page) page.toNat)
    (fun _ _ => micro_windowRuns (fun _ => .inr) (fun _ => .inl)) _ _ ⟨htick, htake.engine⟩).kept

/-! ## PREAD -/

/-- Window `w` is one of PREAD's with operands `a` and `b` in range (R102). -/
structure Window.Of (a b : Byte) (w : Window) : Prop where
  p0 : w.p0 = a.toNat
  total : w.total = b.toNat
  i : w.i < w.total
  range : w.p0 + w.total ≤ 256

/-- PREAD with operands `a` and `b` is in flight, or has ended. -/
def Engine.preadAt (a b : Byte) : Engine → Prop
  | .idle => True
  | .ending _ => True
  | .issued _ cmd => cmd = some (.pread a b)
  | .progress _ w => w.Of a b
  | .progFlag _ w => w.Of a b
  | .request _ w frame => ∃ v : Window, w = some v ∧ v.Of a b ∧ frame = pagedReadRequest (BitVec.ofNat 8 (v.p0 + v.i))
  | e => ∃ w : Window, w.Of a b ∧ e.job? = some (.pagedRead w (w.p0 + w.i))

/-- Since `s` PREAD has run in `t`, where it is in flight or ended. -/
structure State.PreadRuns (a b : Byte) (s t : State) : Prop where
  kept : s.PagedKept (inPages a.toNat b.toNat) t
  engine : t.engine.preadAt a b

section
variable {a b : Byte}

/-- A window's transaction writes within its command's pages. -/
theorem State.WindowRuns.preadRuns {w : Window} (hw : w.Of a b)
    (h : s.WindowRuns (inPages a.toNat b.toNat) w (w.p0 + w.i) t) : s.PreadRuns a b t := by
  refine ⟨h.kept.toPagedKept, ?_⟩
  rcases h.engine with hjob | he | he | ⟨k, he, hnext⟩
  · cases ht : t.engine with
    | clearSum | sending | receiving => exact ⟨w, hw, by rwa [ht] at hjob⟩
    | _ => rw [ht] at hjob; cases hjob
  · rw [he]
    trivial
  · rw [he]
    trivial
  · rw [he]
    exact ⟨hw.p0, hw.total, hnext, hw.range⟩

theorem Window.Of.pages {w : Window} (hw : w.Of a b) (x : Nat) (h : inPages w.p0 w.total x) :
    inPages a.toNat b.toNat x := by
  rwa [hw.p0, hw.total] at h

theorem Window.Of.page {w : Window} (hw : w.Of a b) (x : Nat) (h : inPages (w.p0 + w.i) 1 x) :
    inPages a.toNat b.toNat x := by
  obtain ⟨hp, ht, hi, -⟩ := hw
  unfold inPages devPage at *
  omega

theorem beginPread_preadRuns (k : Bool) (s : State) : s.PreadRuns a b (s.beginPread k a b) := by
  unfold State.beginPread
  split
  · have hraise := raiseJob_windowRuns (w := ⟨a.toNat, b.toNat, 0⟩) (page := 0) (fun _ => id) .badRequest s
    exact ⟨hraise.kept.toPagedKept, trivial⟩
  · exact ⟨⟨rfl, rfl, rfl, fun _ _ => rfl⟩, rfl, rfl, by simp only; omega, by simp only; omega⟩

theorem takeRequest_preadRuns {w : Window} (hw : w.Of a b) (k : Bool) (s : State) :
    s.PreadRuns a b (s.takeRequest k (some w) (pagedReadRequest (BitVec.ofNat 8 (w.p0 + w.i)))) := by
  have hpage : (BitVec.ofNat 8 (w.p0 + w.i)).toNat = w.p0 + w.i := by
    obtain ⟨-, -, hi, hrange⟩ := hw
    rw [BitVec.toNat_ofNat]
    omega
  rw [pagedReadRequest_eq, State.takeRequest_pagedRead, State.takePagedRead, if_pos rfl, windowOf, Option.getD_some, hpage]
  exact (startTransact_windowRuns _ _ _ s).preadRuns hw

/-- PREAD's next move is its first, one before a window's request, one inside a window's transaction, or its
completion. -/
theorem move_preadRuns (he : s.engine.preadAt a b) (hm : s.move = some t) : s.PreadRuns a b t := by
  have hmove := hm
  unfold State.move at hm
  cases hs : s.engine <;> rw [hs] at he hm
  case idle => cases hm
  case issued k cmd =>
    cases hm
    obtain rfl : cmd = some (.pread a b) := he
    exact beginPread_preadRuns k s
  case progress k w =>
    cases hm
    exact ⟨⟨rfl, rfl, rfl, fun _ _ => rfl⟩, he⟩
  case progFlag k w =>
    cases hm
    exact ⟨⟨rfl, rfl, rfl, fun _ _ => rfl⟩, w, rfl, he, rfl⟩
  case request k w frame =>
    cases hm
    obtain ⟨v, rfl, hv, rfl⟩ := he
    exact takeRequest_preadRuns hv k s
  case ending w =>
    cases hm
    exact ⟨⟨rfl, rfl, rfl, fun _ _ => rfl⟩, trivial⟩
  all_goals
    obtain ⟨w, hw, hjob⟩ := he
    rw [← hs] at hjob
    exact (transactMove_windowRuns hw.pages hw.page (move_transactMove hjob hmove)).preadRuns hw

theorem micro_preadRuns (h : s.PreadRuns a b t) (hm : micro t = some u) : s.PreadRuns a b u := by
  obtain ⟨v, hv, rfl⟩ := Option.map_eq_some_iff.1 hm
  have hmove := move_preadRuns h.engine hv
  exact ⟨(h.kept.trans hmove.kept).trans (tick_windowKept v).toPagedKept, hmove.engine⟩

theorem exec_pread_kept (he : s.engine = .idle) (ht : exec (.pread a b) s = .next t) :
    s.PagedKept (inPages a.toNat b.toNat) t := by
  have hissue : s.PreadRuns a b (s.issue (some (.pread a b))) := ⟨⟨rfl, rfl, rfl, fun _ _ => rfl⟩, rfl⟩
  rw [exec_command rfl, runCommand_idle ((State.busy_eq_false_iff s).2 he)] at ht
  cases ht
  exact (drive_induct (P := s.PreadRuns a b) (fun _ _ => micro_preadRuns) _ _ hissue).kept

end

end

/-- Settles O56: every micro-step of PREAD writes DUMP in its pages alone, and so does the transaction of one window, which
stops before the next writes PROGRESS. -/
theorem pagedReadsFrame : Obligations.PagedReadsFrame := by
  refine ⟨fun a b s t he ht => ?_, fun page count cs s t ht => ?_⟩
  · obtain ⟨hcnt, hrbuf, hrec, hdump⟩ := exec_pread_kept he ht
    exact ⟨hcnt, hrbuf, hrec, hdump⟩
  · obtain ⟨k, w, frame, he, rfl⟩ | ⟨hnone, rfl⟩ := exec_frame_cases rfl ht
    · obtain ⟨⟨hcnt, hrbuf, hrec, hdump⟩, htotal, hprog⟩ := settleRequest_windowKept k w page count cs s
      refine ⟨hcnt, hrbuf, hrec, htotal, hprog, fun k' w' frame' he' x hx hx' => hdump x ?_⟩
      rw [he] at he'
      cases he'
      exact not_or.2 ⟨hx, hx'⟩
    · exact ⟨rfl, rfl, rfl, rfl, rfl, fun k w frame he => absurd he (hnone k w frame)⟩

end Sys2Proof.Machine
end

section
/-! PROOF. What the three LOG commands come to on a ready machine: their walks of Machine/Reference.lean, and the state a
walk without error commits (42_log_efficiency.md R113; 43_log_profile.md R128; 44_log_periodic.md R142). -/

namespace Sys2Proof.Machine

/-! ## From the walk to the command -/

theorem commitLog_engine (r : LogRun) (s : State) : (s.commitLog r).engine = .idle := by
  unfold State.commitLog
  repeat' split
  all_goals rfl

/-- A walk that gives no entry commits none. -/
theorem commitLog_nil (s : State) : s.commitLog ⟨[], .none⟩ = s.finishLog 0 := by
  rw [← State.endWalk_zero, State.endWalk_nil (Nat.zero_le _)]

/-- A LOG command whose first move starts its walk at `e` comes to what the walk's micro-steps come to. -/
theorem runCommand_walk {cmd : Option Instr} {s : State} {e : Engine} {r : LogRun} {m : Nat} (hr : s.ready)
    (hb : (s.issue cmd).beginCommand s.cookieEn cmd = { s.issue cmd with engine := e }) (hm : m < microBound)
    (hw : ∃ n, n ≤ m ∧ microN n { s.issue cmd with engine := e } = some (State.endWalk 0 r { s.issue cmd with engine := e })) :
    runCommand cmd s = .next ((s.issue cmd).commitLog r) := by
  obtain ⟨n, hn, hrun⟩ := hw
  refine runCommand_begun hr ?_ (micro_of_idle (commitLog_engine _ _)) (Nat.lt_of_le_of_lt hn hm)
  rw [hb, hrun, State.endWalk_engine, State.endWalk_zero]

/-- A command whose first move, to a state `t`, is its whole run. -/
theorem runCommand_of_first_move {cmd : Option Instr} {s t : State} (hr : s.ready)
    (hb : (s.issue cmd).beginCommand s.cookieEn cmd = t) (ht : t.engine = .idle) : runCommand cmd s = .next t := by
  subst hb
  exact runCommand_at_once hr ht

/-! ## Efficiency log -/

/-- A log that is not full and whose pointer is 0 has no slot to visit (R117). -/
theorem effRun_empty {a : Byte} {s : State} (h : effPtr s.ptr = 0 ∧ ptrFull s.ptr = false) :
    s.effRun a = ⟨[], .none⟩ := by
  unfold State.effRun
  rw [h.1, h.2]
  rfl

theorem beginLogEff_misfit {a : Byte} {s : State} (hfit : dumpSize < basePage a + effRegion) :
    s.beginLogEff a = s.raiseLog .badRequest := if_pos hfit

theorem beginLogEff_badPointer {a : Byte} {s : State} (hfit : ¬ dumpSize < basePage a + effRegion)
    (hptr : effSlots ≤ effPtr s.ptr) : s.beginLogEff a = s.raiseLog .dataFormatError :=
  (if_neg hfit).trans (if_pos hptr)

theorem beginLogEff_empty {a : Byte} {s : State} (hfit : ¬ dumpSize < basePage a + effRegion)
    (hptr : ¬ effSlots ≤ effPtr s.ptr) (hempty : effPtr s.ptr = 0 ∧ ptrFull s.ptr = false) :
    s.beginLogEff a = s.finishLog 0 :=
  (if_neg hfit).trans ((if_neg hptr).trans (if_pos hempty))

theorem beginLogEff_walk {a : Byte} {s : State} (hfit : ¬ dumpSize < basePage a + effRegion)
    (hptr : ¬ effSlots ≤ effPtr s.ptr) (hempty : ¬ (effPtr s.ptr = 0 ∧ ptrFull s.ptr = false)) :
    s.beginLogEff a = { s with
      engine := .walkEff (basePage a) (effPtr s.ptr) (effStart (effPtr s.ptr) (ptrFull s.ptr)) none 0 } :=
  (if_neg hfit).trans ((if_neg hptr).trans (if_neg hempty))

/-- Settles O24: the checks end the command in its first move; past them the engine walks the slots of R118 and R119, at
most 224, and an empty log has none of them. -/
theorem logEffIsTheEfficiencyWalk : Obligations.LogEffIsTheEfficiencyWalk := by
  intro a b s hr
  rw [exec_command rfl, State.logEffResult]
  by_cases hfit : dumpSize < basePage a + effRegion
  · rw [if_pos hfit]
    exact runCommand_of_first_move hr (beginLogEff_misfit hfit) rfl
  by_cases hptr : effSlots ≤ effPtr s.ptr
  · rw [if_neg hfit, State.issue_ptr, if_pos hptr]
    exact runCommand_of_first_move hr (beginLogEff_badPointer hfit hptr) rfl
  rw [if_neg hfit, State.issue_ptr, if_neg hptr]
  by_cases hempty : effPtr s.ptr = 0 ∧ ptrFull s.ptr = false
  · rw [effRun_empty (by exact hempty), commitLog_nil]
    exact runCommand_of_first_move hr (beginLogEff_empty hfit hptr hempty) rfl
  · have hp : effPtr s.ptr < effSlots := Nat.lt_of_not_le hptr
    have hvisits : EffWalk (effPtr s.ptr) (effStart (effPtr s.ptr) (ptrFull s.ptr))
        (effVisits (effPtr s.ptr) (ptrFull s.ptr)) := by
      refine effWalk_visits _ _ hp ?_
      rw [not_and_or, Bool.not_eq_false] at hempty
      exact hempty.symm.imp id Nat.pos_of_ne_zero
    refine runCommand_walk hr (beginLogEff_walk hfit hptr hempty)
      (Nat.lt_of_le_of_lt (effVisits_length_le _ (ptrFull s.ptr) hp) (by decide)) ?_
    obtain ⟨n, hn, hrun⟩ := microN_walkEff (basePage a) (effPtr s.ptr) _ _ none 0
      { s.issue (some (.logEff a b)) with
        engine := .walkEff (basePage a) (effPtr s.ptr) (effStart (effPtr s.ptr) (ptrFull s.ptr)) none 0 }
      rfl hr.2 (Nat.zero_le _) hvisits
    rw [effEntriesFrom_none] at hrun
    exact ⟨n, hn, hrun⟩

/-! ## Profile log -/

/-- LOG_PROF comes to its walk, whose visits end at the pointer's offset within one cycle of the ring (R135, R139). -/
theorem exec_logProf {a b : Byte} {s : State} (hr : s.ready) (hc : s.cfg.wf) :
    exec (.logProf a b) s = .next ((s.issue (some (.logProf a b))).logProfResult a) := by
  obtain ⟨-, -, hblocks, hblocks', -⟩ := hc
  rw [exec_command rfl, State.logProfResult]
  by_cases hfit : dumpSize < basePage a + profRegion s.cfg
  · rw [State.issue_cfg, if_pos hfit]
    exact runCommand_of_first_move hr (if_pos hfit) rfl
  rw [State.issue_cfg, State.issue_ptr, if_neg hfit]
  by_cases hslot : inSlotSet s.cfg (profOff s.cfg s.ptr) = true
  · rw [if_pos hslot]
    have hnot : ¬ inSlotSet s.cfg (profOff s.cfg s.ptr) = false := by rw [hslot]; decide
    have hbound : profSlots s.cfg < microBound := by unfold profSlots microBound; omega
    exact runCommand_walk hr ((if_neg hfit).trans (if_neg hnot)) hbound
      (microN_walkProf (basePage a) (profOff s.cfg s.ptr) _ _ 0
        { s.issue (some (.logProf a b)) with
          engine := .walkProf (basePage a) (profOff s.cfg s.ptr)
            (profStart s.cfg (profOff s.cfg s.ptr) (ptrFull s.ptr)) 0 }
        rfl hr.2 (Nat.zero_le _) (profVisits_getLast s.cfg _ (ptrFull s.ptr) hblocks hslot))
  · rw [if_neg hslot]
    exact runCommand_of_first_move hr ((if_neg hfit).trans (if_pos (Bool.eq_false_of_not_eq_true hslot))) rfl

/-! ## Periodic log -/

/-- A pointer inside the region is on one of its pages (R143). -/
theorem perPage_lt {c : Config} {p : Nat} (h : p < perRegion c) : p / perPage < c.perPages :=
  Nat.div_lt_of_lt_mul (by rwa [perRegion, Nat.mul_comm] at h)

/-- Issue leaves what the periodic walk reads. -/
theorem perRun_issue (a : Byte) (cmd : Option Instr) (s : State) : (s.issue cmd).perRun a = s.perRun a :=
  State.SameDump.pagesRun (s := s) (t := s.issue cmd) ⟨rfl, rfl, rfl⟩ _ _ _

/-- LOG_PER comes to its walk over at most PER_PAGES pages, each of at most 258 micro-steps (R149). -/
theorem exec_logPer {a b : Byte} {s : State} (hr : s.ready) (hc : s.cfg.wf) :
    exec (.logPer a b) s = .next ((s.issue (some (.logPer a b))).logPerResult a) := by
  obtain ⟨-, -, -, -, -, hpages, -⟩ := hc
  rw [exec_command rfl, State.logPerResult, State.issue_cfg, State.issue_ptr]
  by_cases hfit : dumpSize < basePage a + perRegion s.cfg
  · rw [if_pos hfit]
    exact runCommand_of_first_move hr (if_pos hfit) rfl
  by_cases hptr : perRegion s.cfg ≤ perPtr s.ptr
  · rw [if_neg hfit, if_pos hptr]
    exact runCommand_of_first_move hr ((if_neg hfit).trans (if_pos hptr)) rfl
  by_cases hempty : perPtr s.ptr % perPage = 0
  · rw [if_neg hfit, if_neg hptr, if_pos hempty]
    exact runCommand_of_first_move hr ((if_neg hfit).trans ((if_neg hptr).trans (if_pos hempty))) rfl
  · rw [if_neg hfit, if_neg hptr, if_neg hempty]
    have hpp := perPage_lt (Nat.lt_of_not_le hptr)
    have hlen := perVisits_length_le s.cfg _ (ptrFull s.ptr) hpp
    have hbound : 258 * (perVisits s.cfg (perPtr s.ptr / perPage) (ptrFull s.ptr)).length < microBound := by
      unfold microBound
      omega
    let t : State := { s.issue (some (.logPer a b)) with
      engine := .perPage (basePage a) (perPtr s.ptr) (perStart s.cfg (perPtr s.ptr / perPage) (ptrFull s.ptr)) 0 }
    have hrun := microN_perPages (basePage a) (perPtr s.ptr) _ _ 0 t rfl hr.2 (Nat.zero_le _)
      (pageWalk_visits s.cfg _ (ptrFull s.ptr) hpp)
    have hsame : (s.issue (some (.logPer a b))).SameDump t := ⟨rfl, rfl, rfl⟩
    rw [hsame.pagesRun] at hrun
    exact runCommand_walk hr ((if_neg hfit).trans ((if_neg hptr).trans (if_neg hempty))) hbound hrun

/-! ## What is committed -/

/-- Where a walk ends without error and its entries fit, the command has written them, RECCNT, DONE and ERR. -/
theorem commitLog_issue {cmd : Option Instr} {s : State} {r : LogRun} (hr : s.ready) (hf : r.fault = .none)
    (hl : r.entries.length ≤ s.cfg.recCap) :
    (s.issue cmd).commitLog r = { s with
      recm := storeEntries s.recm 0 r.entries
      reccnt := BitVec.ofNat 16 r.entries.length
      done := true
      err := .none } :=
  (commitLog_committed hf (s := s.issue cmd) hl).trans (State.eq_of_eq_with_idle (by exact hr.1) rfl)

/-- Settles O27: past its checks each command commits its walk, which reads the DUMP as it was before issue. -/
theorem logCommandsCommitTheirEntries : Obligations.LogCommandsCommitTheirEntries := by
  intro a b s hr hc
  refine ⟨fun hfit hptr hcap => ?_, fun hfit hslot hcap => ?_, fun hfit hptr hne hfault hcap => ?_⟩
  · rw [logEffIsTheEfficiencyWalk a b s hr, State.logEffResult, if_neg (Nat.not_lt.2 hfit), State.issue_ptr,
      if_neg (Nat.not_le.2 hptr)]
    exact congrArg _ (commitLog_issue hr rfl hcap)
  · rw [exec_logProf hr hc, State.logProfResult, State.issue_cfg, State.issue_ptr, if_neg (Nat.not_lt.2 hfit),
      if_pos hslot]
    exact congrArg _ (commitLog_issue hr rfl hcap)
  · rw [exec_logPer hr hc, State.logPerResult, State.issue_cfg, State.issue_ptr, if_neg (Nat.not_lt.2 hfit),
      if_neg (Nat.not_le.2 hptr), if_neg hne, perRun_issue]
    exact congrArg _ (commitLog_issue hr hfault hcap)

end Sys2Proof.Machine
end

section
/-! PROOF. The efficiency walk: the slots it visits, how many records they give, and the deltas of their counters
(42_log_efficiency.md R118 to R124). -/

namespace Sys2Proof.Machine

/-! ## The slots visited -/

theorem effVisits_full_length (p : Nat) : (effVisits p true).length = effSlots := by simp [effVisits]

/-- A log that is not full is read from slot 1 to the pointer's. -/
theorem effVisits_part (p : Nat) : effVisits p false = List.range' 1 p := by
  simp [effVisits, List.range'_eq_map_range, Nat.add_comm]

/-- The walk stays within the region's slots. -/
theorem effVisits_lt {p : Nat} {full : Bool} (hp : p < effSlots) {sl : Nat} (h : sl ∈ effVisits p full) :
    sl < effSlots := by
  cases full with
  | true =>
    obtain ⟨j, -, rfl⟩ := List.mem_map.1 h
    exact Nat.mod_lt _ (by decide)
  | false =>
    rw [effVisits_part, List.mem_range'_1] at h
    omega

/-- Steps fewer than the slots apart lead to different slots. -/
theorem effVisits_full_nodup (p : Nat) : (effVisits p true).Nodup := by
  refine List.Nodup.map_on (fun i hi j hj h => ?_) List.nodup_range
  rw [List.mem_range] at hi hj
  unfold effSlots at *
  omega

theorem effVisits_full_getLast {p : Nat} (hp : p < effSlots) : (effVisits p true).getLast? = some p := by
  have hlast : (p + 1 + (effSlots - 1)) % effSlots = p := by
    unfold effSlots at *
    omega
  rw [effVisits, if_pos rfl, List.getLast?_map, List.getLast?_range, if_neg (by decide), Option.map_some, hlast]

/-- The first slot visited gives no record, a later one at most one (R121, R122). -/
theorem effEntries_length_le (c : Config) (slotAt : Nat → List Byte) (l : List Nat) :
    (effEntries c slotAt l).length ≤ l.length - 1 := by
  cases l with
  | nil => exact Nat.zero_le _
  | cons prev l =>
    induction l generalizing prev with
    | nil => exact Nat.zero_le _
    | cons sl rest ih =>
      have hone : (if effValid c (slotAt sl) then [effEntry c sl (slotAt sl) (slotAt prev)] else []).length ≤ 1 := by
        split
        · exact Nat.le_refl 1
        · exact Nat.zero_le 1
      have hrest := ih sl
      rw [effEntries, List.length_append]
      simp only [List.length_cons] at hrest ⊢
      omega

/-- Settles O28: the visits' lists are known, and every visit but the first gives at most one record. -/
theorem effWalkVisitsEachSlotOnce : Obligations.EffWalkVisitsEachSlotOnce := by
  intro p c slotAt hp
  refine ⟨⟨effVisits_full_length p, effVisits_full_nodup p, fun sl h => effVisits_lt hp h, effVisits_full_getLast hp, ?_⟩,
    fun _ => ⟨effVisits_part p, ?_⟩⟩
  · simpa [effVisits_full_length, effSlots] using effEntries_length_le c slotAt (effVisits p true)
  · simpa [effVisits_part] using effEntries_length_le c slotAt (effVisits p false)

/-! ## Deltas -/

theorem ctr_eq (x : List Byte) (o : Nat) :
    ctr x o = (x.getD o 0).toNat + 256 * (x.getD (o + 1) 0).toNat + 65536 * (x.getD (o + 2) 0).toNat := by
  simp only [ctr, leNat]
  omega

theorem ctr_lt (x : List Byte) (o : Nat) : ctr x o < 2 ^ 24 := by
  rw [ctr_eq]
  omega

/-- Settles O33: the earlier counter is below 2^24, so adding 2^24 first keeps the difference from going below 0. -/
theorem deltasWrapAtTwentyFourBits : Obligations.DeltasWrapAtTwentyFourBits := by
  refine fun slot prev o => ⟨?_, Nat.mod_lt _ (by decide), ctr_eq slot o⟩
  have hprev := ctr_lt prev o
  unfold ctrDelta
  omega

end Sys2Proof.Machine
end

section
/-! PROOF. What a LOG command reads: two machines with the same PTR, parameters and DUMP bytes of the region walk alike and
report alike (42_log_efficiency.md R126; 43_log_profile.md R141; 44_log_periodic.md R157). -/

namespace Sys2Proof.Machine

/-! ## Machines that agree on a region -/

/-- The parameters, PTR and the `n` DUMP bytes from `base` on are the same. -/
structure State.SameRegion (base n : Nat) (s t : State) : Prop where
  cfg : t.cfg = s.cfg
  ptr : t.ptr = s.ptr
  byte : ∀ x, x < n → t.dumpByte (base + x) = s.dumpByte (base + x)

theorem State.SameRegion.dumpBytes {base n : Nat} {s t : State} (h : s.SameRegion base n t) {x k : Nat} (hx : x + k ≤ n) :
    t.dumpBytes (base + x) k = s.dumpBytes (base + x) k := by
  refine List.map_congr_left fun j hj => ?_
  rw [List.mem_range] at hj
  rw [Nat.add_assoc]
  exact h.byte _ (by omega)

/-! ## Efficiency log -/

/-- A slot lies in the region whole (R114, R120). -/
theorem slotOff_add_le {sl : Nat} (hsl : sl < effSlots) : slotOff sl + effSlotBytes ≤ effRegion := by
  unfold slotOff effSlotBytes effRegion logBlk effSlotsPerBlk effSlots at *
  omega

theorem effEntries_congr {c : Config} {f g : Nat → List Byte} {l : List Nat} (hl : ∀ sl ∈ l, f sl = g sl) :
    effEntries c f l = effEntries c g l := by
  cases l with
  | nil => rfl
  | cons prev l =>
    induction l generalizing prev with
    | nil => rfl
    | cons sl rest ih =>
      rw [effEntries, effEntries, hl prev (by simp), hl sl (by simp), ih sl fun x hx => hl x (List.mem_cons_of_mem _ hx)]

theorem effRun_congr {a : Byte} {s t : State} (h : s.SameRegion (basePage a) effRegion t) (hp : effPtr s.ptr < effSlots) :
    t.effRun a = s.effRun a := by
  rw [State.effRun, State.effRun, h.ptr, h.cfg]
  congr 1
  exact effEntries_congr fun sl hsl => h.dumpBytes (slotOff_add_le (effVisits_lt hp hsl))

/-! ## Profile log -/

/-- A slot lies in the region whole (R130, R131). -/
theorem add_stride_le_of_inSlotSet {c : Config} {o : Nat} (h : inSlotSet c o = true) : o + profStride ≤ profRegion c := by
  simp only [inSlotSet, Bool.and_eq_true, decide_eq_true_eq] at h
  obtain ⟨⟨⟨hlt, -⟩, hlast⟩, -⟩ := h
  unfold profRegion logBlk profLast profStride at *
  omega

/-- The profile walk stays in SlotSet (R140). -/
theorem visitsTo_inSlotSet {c : Config} (hc : 1 ≤ c.profBlocks) {off fuel o : Nat} (ho : inSlotSet c o = true) :
    ∀ x ∈ visitsTo c off fuel o, inSlotSet c x = true := by
  induction fuel generalizing o with
  | zero => nofun
  | succ fuel ih =>
    rw [visitsTo]
    refine List.forall_mem_cons.2 ⟨ho, ?_⟩
    split
    · nofun
    · exact ih (advance_inSlotSet hc ho)

theorem profVisits_inSlotSet {c : Config} (hc : 1 ≤ c.profBlocks) {off : Nat} (full : Bool) (ho : inSlotSet c off = true) :
    ∀ x ∈ profVisits c off full, inSlotSet c x = true := by
  refine visitsTo_inSlotSet hc ?_
  cases full with
  | true => exact advance_inSlotSet hc ho
  | false => exact first_inSlotSet hc

theorem profRun_congr {a : Byte} {s t : State} (h : s.SameRegion (basePage a) (profRegion s.cfg) t)
    (hc : 1 ≤ s.cfg.profBlocks) (ho : inSlotSet s.cfg (profOff s.cfg s.ptr) = true) : t.profRun a = s.profRun a := by
  rw [State.profRun, State.profRun, h.ptr, h.cfg]
  congr 1
  refine List.map_congr_left fun o hvisit => ?_
  rw [h.dumpBytes (add_stride_le_of_inSlotSet (profVisits_inSlotSet hc _ ho o hvisit))]

/-! ## Periodic log -/

theorem perVisits_lt {c : Config} {pp : Nat} {full : Bool} (hp : pp < c.perPages) {g : Nat} (h : g ∈ perVisits c pp full) :
    g < c.perPages := by
  cases full with
  | true =>
    obtain ⟨j, -, rfl⟩ := List.mem_map.1 h
    exact Nat.mod_lt _ (Nat.zero_lt_of_lt hp)
  | false =>
    have := List.mem_range.1 h
    omega

section
variable {base n : Nat} {s t : State} (h : s.SameRegion base n t) {g : Nat} (hg : g * perPage + perPage ≤ n)
include h hg

theorem page_dumpBytes {x k : Nat} (hx : x + k ≤ perPage) :
    t.dumpBytes (base + g * perPage + x) k = s.dumpBytes (base + g * perPage + x) k := by
  rw [Nat.add_assoc]
  exact h.dumpBytes (by omega)

theorem sectionEnd_congr (p : Nat) : t.sectionEnd base p g = s.sectionEnd base p g := by
  rw [State.sectionEnd, State.sectionEnd, Nat.add_assoc, h.byte _ (by unfold perLenOff perPage at *; omega)]

/-- A record is read only where it fits before the section's bound, so in its page (R152). -/
theorem sectionRun_congr {mask fuel c : Nat} {stop : SectionEnd} (hstop : stop.bound < perPage) :
    t.sectionRun base g mask stop fuel c = s.sectionRun base g mask stop fuel c := by
  induction fuel generalizing c with
  | zero => rfl
  | succ fuel ih =>
    rw [State.sectionRun, State.sectionRun]
    split
    · rfl
    · split
      · rfl
      · rename_i hfits
        rw [not_or, Nat.not_lt] at hfits
        rw [ih, page_dumpBytes h hg (hfits.2.trans hstop.le)]

theorem pageRun_congr (p : Nat) : t.pageRun base p g = s.pageRun base p g := by
  have hmask : s.cfg.perMaskOff.val + 2 ≤ perPage := by
    have := s.cfg.perMaskOff.isLt
    unfold perPage
    omega
  rw [State.pageRun, State.pageRun, sectionEnd_congr h hg, h.cfg, State.le16, State.le16, page_dumpBytes h hg hmask,
    sectionRun_congr h hg SectionEnd.bound_lt]

end

theorem pagesRun_congr {base n : Nat} {s t : State} (h : s.SameRegion base n t) (p : Nat) {gs : List Nat}
    (hgs : ∀ g ∈ gs, g * perPage + perPage ≤ n) : t.pagesRun base p gs = s.pagesRun base p gs := by
  induction gs with
  | nil => rfl
  | cons g gs ih =>
    obtain ⟨hg, hgs⟩ := List.forall_mem_cons.1 hgs
    rw [State.pagesRun, State.pagesRun, pageRun_congr h hg, ih hgs]

theorem perRun_congr {a : Byte} {s t : State} (h : s.SameRegion (basePage a) (perRegion s.cfg) t)
    (hp : perPtr s.ptr < perRegion s.cfg) : t.perRun a = s.perRun a := by
  rw [State.perRun, State.perRun, h.ptr, h.cfg]
  refine pagesRun_congr h _ fun g hg => ?_
  rw [← Nat.succ_mul]
  exact Nat.mul_le_mul_right _ (perVisits_lt (perPage_lt hp) hg)

/-! ## Reports that agree -/

/-- The same DONE, ERR and RECCNT, and the same bytes in the entries RECCNT counts. -/
structure State.SameReport (s t : State) : Prop where
  done : t.done = s.done
  err : t.err = s.err
  reccnt : t.reccnt = s.reccnt
  read : ∀ x, x < entryBytes * s.reccnt.toNat → t.recm.read x = s.recm.read x

section
variable {s t : State}

/-- With no entry there is no byte to compare. -/
theorem raiseLog_sameReport (e : Err) (hs : s.reccnt = 0) (ht : t.reccnt = 0) : (s.raiseLog e).SameReport (t.raiseLog e) where
  done := rfl
  err := rfl
  reccnt := ht.trans hs.symm
  read x hx := by
    rw [show (s.raiseLog e).reccnt = 0 from hs] at hx
    exact absurd hx (Nat.not_lt_zero x)

/-- What entries written over two RAMs leave in their own bytes does not depend on the RAM. -/
theorem read_storeEntries_congr (m m' : Memory) {es : List Entry} {x : Nat} (hx : x < entryBytes * es.length) :
    (storeEntries m' 0 es).read x = (storeEntries m 0 es).read x := by
  have hi : x / entryBytes < es.length := Nat.div_lt_of_lt_mul hx
  have hj : x % entryBytes < entryBytes := Nat.mod_lt _ (by decide)
  rw [← Nat.div_add_mod x entryBytes, ← Nat.zero_add (x / entryBytes), read_storeEntries hi hj, read_storeEntries hi hj]

theorem commitLog_sameReport (r : LogRun) (hc : t.cfg = s.cfg) (hs : s.reccnt = 0) (ht : t.reccnt = 0) :
    (s.commitLog r).SameReport (t.commitLog r) := by
  rw [State.commitLog, State.commitLog, hc]
  split
  · exact raiseLog_sameReport _ hs ht
  · split
    · refine ⟨rfl, rfl, rfl, fun x hx => read_storeEntries_congr _ _ ?_⟩
      exact hx.trans_le (Nat.mul_le_mul_left _ (Nat.mod_le _ _))
    · exact raiseLog_sameReport _ hs ht

theorem finishLog_zero_sameReport (s t : State) : (s.finishLog 0).SameReport (t.finishLog 0) :=
  ⟨rfl, rfl, rfl, fun x hx => absurd hx (Nat.not_lt_zero x)⟩

theorem logEffResult_sameReport {a : Byte} (h : s.SameRegion (basePage a) effRegion t) (hs : s.reccnt = 0)
    (ht : t.reccnt = 0) : (s.logEffResult a).SameReport (t.logEffResult a) := by
  rw [State.logEffResult, State.logEffResult, h.ptr]
  split
  · exact raiseLog_sameReport _ hs ht
  · split
    · exact raiseLog_sameReport _ hs ht
    · rename_i hptr
      rw [effRun_congr h (Nat.lt_of_not_le hptr)]
      exact commitLog_sameReport _ h.cfg hs ht

theorem logProfResult_sameReport {a : Byte} (h : s.SameRegion (basePage a) (profRegion s.cfg) t)
    (hc : 1 ≤ s.cfg.profBlocks) (hs : s.reccnt = 0) (ht : t.reccnt = 0) :
    (s.logProfResult a).SameReport (t.logProfResult a) := by
  rw [State.logProfResult, State.logProfResult, h.ptr, h.cfg]
  split
  · exact raiseLog_sameReport _ hs ht
  · split
    · rename_i hslot
      rw [profRun_congr h hc hslot]
      exact commitLog_sameReport _ h.cfg hs ht
    · exact finishLog_zero_sameReport s t

theorem logPerResult_sameReport {a : Byte} (h : s.SameRegion (basePage a) (perRegion s.cfg) t) (hs : s.reccnt = 0)
    (ht : t.reccnt = 0) : (s.logPerResult a).SameReport (t.logPerResult a) := by
  rw [State.logPerResult, State.logPerResult, h.ptr, h.cfg]
  split
  · exact raiseLog_sameReport _ hs ht
  · split
    · exact raiseLog_sameReport _ hs ht
    · split
      · exact finishLog_zero_sameReport s t
      · rename_i hptr _
        rw [perRun_congr h (Nat.lt_of_not_le hptr)]
        exact commitLog_sameReport _ h.cfg hs ht

/-- Issue changes nothing of what a LOG command reads. -/
theorem State.SameRegion.issue {base n : Nat} (cmd : Option Instr) (h : s.SameRegion base n t) :
    (s.issue cmd).SameRegion base n (t.issue cmd) := ⟨h.cfg, h.ptr, h.byte⟩

end

/-- Settles O35: on the region's bytes the three walks of the two machines are one walk, and what each commits of it is the
same; a command that reports no entry has no byte to compare. -/
theorem logReadsOnlyItsRegion : Obligations.LogReadsOnlyItsRegion := by
  intro a b s s' hr hr' hc hcfg hptr i region hi hbytes
  suffices ∃ t t', exec i s = .next t ∧ exec i s' = .next t' ∧ t.SameReport t' by
    obtain ⟨t, t', ht, ht', hdone, herr, hcnt, hread⟩ := this
    exact ⟨t, t', ht, ht', hdone, herr, hcnt, hread⟩
  have hsame : (s.issue (some i)).SameRegion (basePage a) region (s'.issue (some i)) :=
    State.SameRegion.issue _ ⟨hcfg, hptr, hbytes⟩
  have hc' : s'.cfg.wf := hcfg ▸ hc
  rcases hi with ⟨rfl, rfl⟩ | ⟨rfl, rfl⟩ | ⟨rfl, rfl⟩
  · exact ⟨_, _, logEffIsTheEfficiencyWalk a b s hr, logEffIsTheEfficiencyWalk a b s' hr',
      logEffResult_sameReport hsame rfl rfl⟩
  · obtain ⟨-, -, hblocks, -⟩ := id hc
    exact ⟨_, _, exec_logProf hr hc, exec_logProf hr' hc', logProfResult_sameReport hsame hblocks rfl rfl⟩
  · exact ⟨_, _, exec_logPer hr hc, exec_logPer hr' hc', logPerResult_sameReport hsame rfl rfl⟩

end Sys2Proof.Machine
end

section
/-! PROOF. What the LOG commands leave unchanged, also where a host access interrupts them (42_log_efficiency.md R126;
43_log_profile.md R141; 44_log_periodic.md R157). -/

namespace Sys2Proof.Machine

/-- `t` differs from `s` at most in REC RAM, RECCNT, DONE, ERR, the engine's position, how near the host's next access is
and the count of events that left RAM unspecified. -/
def State.LogKept (s t : State) : Prop :=
  t = { s with
    recm := t.recm
    reccnt := t.reccnt
    done := t.done
    err := t.err
    engine := t.engine
    hostQ := t.hostQ
    epoch := t.epoch }

theorem State.LogKept.trans {s t u : State} (h : s.LogKept t) (h' : t.LogKept u) : s.LogKept u :=
  Eq.trans h' (by rw [h])

theorem emit_logKept {s : State} {n : Nat} {e : Entry} {next : Nat → State → State}
    (hnext : ∀ n t, State.LogKept t (next n t)) : s.LogKept (s.emit n e next) := by
  unfold State.emit
  split
  · rfl
  · exact State.LogKept.trans (t := s.recWrite n e) rfl (hnext _ _)

theorem nextEff_logKept (base p sl : Nat) (slot : List Byte) (n : Nat) (s : State) :
    s.LogKept (s.nextEff base p sl slot n) := by
  unfold State.nextEff
  split <;> rfl

theorem stepEff_logKept (base p sl : Nat) (prev : Option (List Byte)) (n : Nat) (s : State) :
    s.LogKept (s.stepEff base p sl prev n) := by
  unfold State.stepEff
  split
  · exact nextEff_logKept _ _ _ _ _ _
  · split
    · exact emit_logKept fun _ _ => nextEff_logKept _ _ _ _ _ _
    · exact nextEff_logKept _ _ _ _ _ _

theorem stepProf_logKept (base off o n : Nat) (s : State) : s.LogKept (s.stepProf base off o n) := by
  refine emit_logKept fun _ _ => ?_
  unfold State.nextProf
  split <;> rfl

theorem perConsume_logKept (base p g c mask : Nat) (stop : SectionEnd) (bound n : Nat) (s : State) :
    s.LogKept (s.perConsume base p g c mask stop bound n) := by
  unfold State.perConsume
  split
  · rfl
  · exact emit_logKept fun _ _ => rfl

theorem stepPerRecords_logKept (base p g c mask : Nat) (stop : SectionEnd) (n : Nat) (s : State) :
    s.LogKept (s.stepPerRecords base p g c mask stop n) := by
  unfold State.stepPerRecords
  split <;> split
  · rfl
  · exact perConsume_logKept _ _ _ _ _ _ _ _ _
  · exact perConsume_logKept _ _ _ _ _ _ _ _ _
  · rfl

theorem beginLogEff_logKept (a : Byte) (s : State) : s.LogKept (s.beginLogEff a) := by
  unfold State.beginLogEff
  (repeat' split) <;> rfl

theorem beginLogProf_logKept (a : Byte) (s : State) : s.LogKept (s.beginLogProf a) := by
  unfold State.beginLogProf
  (repeat' split) <;> rfl

theorem beginLogPer_logKept (a : Byte) (s : State) : s.LogKept (s.beginLogPer a) := by
  unfold State.beginLogPer
  (repeat' split) <;> rfl

/-- The first move of a LOG command ends it or starts its walk. -/
theorem beginCommand_logKept (k : Bool) {cmd : Option Instr} (hl : cmd.any isLog = true) (s : State) :
    s.LogKept (s.beginCommand k cmd) := by
  cases cmd with
  | none => cases hl
  | some i =>
    cases i with
    | logEff a b => exact beginLogEff_logKept a s
    | logProf a b => exact beginLogProf_logKept a s
    | logPer a b => exact beginLogPer_logKept a s
    | _ => cases hl

theorem move_logKept {s t : State} (h : s.engine.logging = true) (hm : s.move = some t) : s.LogKept t := by
  unfold State.move at hm
  split at hm <;> rename_i he <;> rw [he] at h
  case h_2 => cases hm; exact beginCommand_logKept _ h _
  case h_10 => cases hm; exact stepEff_logKept _ _ _ _ _ _
  case h_11 => cases hm; exact stepProf_logKept _ _ _ _ _
  case h_12 => cases hm; rfl
  case h_13 => cases hm; exact stepPerRecords_logKept _ _ _ _ _ _ _ _
  all_goals cases h

theorem micro_logKept {s t : State} (h : s.LogRuns) (hm : micro s = some t) : s.LogKept t := by
  obtain ⟨u, hu, rfl⟩ := Option.map_eq_some_iff.1 hm
  obtain ⟨hlog, -⟩ | ⟨hidle, -⟩ := h
  · exact (move_logKept hlog hu).trans (show u.LogKept u.tick from rfl)
  · rw [State.move, hidle] at hu
    cases hu

/-- Settles O57: from issue on only moves of the LOG command come, and each keeps the frame. -/
theorem logCommandsFrame : Obligations.LogCommandsFrame := by
  intro i s t he hl ht
  rw [exec_command (isCommand_of_isLog hl), runCommand_idle ((State.busy_eq_false_iff s).2 he)] at ht
  cases ht
  obtain ⟨-, hkept⟩ := drive_induct (go := fun _ => true) (P := fun t => t.LogRuns ∧ s.LogKept t)
    (fun _ _ ⟨hruns, hkept⟩ hm => ⟨micro_logRuns hruns hm, hkept.trans (micro_logKept hruns hm)⟩)
    (s.issue (some i)).budget _ ⟨issue_logRuns hl s, rfl⟩
  rw [settle, hkept]
  exact ⟨rfl, rfl, rfl, rfl, rfl, rfl, rfl, rfl, rfl, rfl⟩

end Sys2Proof.Machine
end

section
/-! PROOF. LOG_PROF and the slots its walk visits (43_log_profile.md R128 to R140). -/

namespace Sys2Proof.Machine

/-- Settles O25: the checks end the command in its first move; past them the engine visits the slots of R133 and R134, and
meets the pointer's within one cycle of the ring. -/
theorem logProfIsTheProfileWalk : Obligations.LogProfIsTheProfileWalk := fun _ _ _ hr hc => exec_logProf hr hc

/-! ## The slots visited, by their numbers in the ring -/

/-- A full log is read from the slot after the pointer's to the last one, then from the first one to the pointer's (R133 to
R135). -/
theorem profVisits_full {c : Config} {k : Nat} (hc : 1 ≤ c.profBlocks) (hl : wrapFirst c.profWrapTo ≤ k)
    (hk : k < profSlots c) :
    profVisits c (profSlot k) true =
      (List.range' (k + 1) (profSlots c - (k + 1)) ++
        List.range' (wrapFirst c.profWrapTo) (k - wrapFirst c.profWrapTo + 1)).map profSlot := by
  rw [profVisits_eq c k true hc hl hk, if_pos rfl, List.map_append]
  split
  · rfl
  · rw [show profSlots c - (k + 1) = 0 by omega]
    rfl

/-- A log that is not full is read from slot 1 to the pointer's, once around the ring when that is the header (R133, R138,
R139). -/
theorem profVisits_part {c : Config} {k : Nat} (hc : 1 ≤ c.profBlocks) (hl : wrapFirst c.profWrapTo ≤ k)
    (hk : k < profSlots c) :
    profVisits c (profSlot k) false =
      (if k = 0 then List.range' 1 (profSlots c - 1) ++ [0] else List.range' 1 k).map profSlot := by
  rw [profVisits_eq c k false hc hl hk, if_neg Bool.false_ne_true]
  split
  · rw [List.map_append]
    rfl
  · rfl

/-- Different numbers are different slots, so a walk repeats no slot when it repeats no number. -/
theorem nodup_map_profSlot {l : List Nat} (h : l.Nodup) : (l.map profSlot).Nodup := h.map fun _ _ => profSlot_inj

/-- No slot is visited twice: neither run of numbers repeats one, and after the wrap the walk stops before it meets the slots
it began with (R135, R140). -/
theorem profVisits_nodup {c : Config} {off : Nat} (full : Bool) (hc : 1 ≤ c.profBlocks) (h : inSlotSet c off = true) :
    (profVisits c off full).Nodup := by
  obtain ⟨k, hl, hk, rfl⟩ := (inSlotSet_iff c off).1 h
  cases full with
  | true =>
    rw [profVisits_full hc hl hk]
    refine nodup_map_profSlot (List.Nodup.append List.nodup_range' List.nodup_range' fun j hbefore hafter => ?_)
    rw [List.mem_range'_1] at hbefore hafter
    omega
  | false =>
    rw [profVisits_part hc hl hk]
    refine nodup_map_profSlot ?_
    split
    · refine List.Nodup.append List.nodup_range' (List.nodup_singleton 0) fun j hbefore hheader => ?_
      rw [List.mem_range'_1] at hbefore
      rw [List.mem_singleton] at hheader
      omega
    · exact List.nodup_range'

/-- A full log is read in all of SlotSet (R135): a slot lies after the pointer's in the ring or up to it. -/
theorem mem_profVisits_full {c : Config} {off o : Nat} (hc : 1 ≤ c.profBlocks) (h : inSlotSet c off = true)
    (ho : inSlotSet c o = true) : o ∈ profVisits c off true := by
  obtain ⟨k, hl, hk, rfl⟩ := (inSlotSet_iff c off).1 h
  obtain ⟨j, hjl, hj, rfl⟩ := (inSlotSet_iff c o).1 ho
  rw [profVisits_full hc hl hk]
  refine List.mem_map_of_mem (List.mem_append.2 ?_)
  rw [List.mem_range'_1, List.mem_range'_1]
  omega

/-- |SlotSet| visits of a full log (R131, R139). -/
theorem profVisits_full_length {c : Config} {off : Nat} (hc : 1 ≤ c.profBlocks) (h : inSlotSet c off = true) :
    (profVisits c off true).length = profSlots c - wrapFirst c.profWrapTo := by
  obtain ⟨k, hl, hk, rfl⟩ := (inSlotSet_iff c off).1 h
  rw [profVisits_full hc hl hk, List.length_map, List.length_append, List.length_range', List.length_range']
  omega

/-- The count of R131 by cases on PROF_WRAP_TO. -/
theorem profSlots_sub_wrapFirst (c : Config) :
    profSlots c - wrapFirst c.profWrapTo = if c.profWrapTo = .slot5 then 12 * c.profBlocks - 1 else 12 * c.profBlocks := by
  cases c.profWrapTo <;> rfl

/-- A walk visits its start slot first. -/
theorem profVisits_head {c : Config} (hc : 1 ≤ c.profBlocks) (off : Nat) (full : Bool) :
    (profVisits c off full).head? = some (profStart c off full) := by
  obtain ⟨n, hn⟩ : ∃ n, profSlots c = n + 1 := Nat.exists_eq_succ_of_ne_zero (by unfold profSlots; omega)
  rw [profVisits, hn]
  rfl

/-- Settles O29: by their numbers in the ring the slots visited are runs of consecutive numbers, which end at the pointer's
and, for a full log, make up the whole ring. -/
theorem profWalkIsOneCycleThroughTheSlots : Obligations.ProfWalkIsOneCycleThroughTheSlots := by
  intro c off full ⟨_, _, hc, _⟩ hoff
  refine ⟨profVisits_nodup full hc hoff, profVisits_getLast c off full hc hoff, profVisits_inSlotSet hc full hoff,
    ?_, ?_, ?_⟩
  · rintro rfl o ho
    exact mem_profVisits_full hc hoff ho
  · rintro rfl
    exact (profVisits_full_length hc hoff).trans (profSlots_sub_wrapFirst c)
  · rintro rfl
    exact profVisits_head hc off false

end Sys2Proof.Machine
end

section
/-! PROOF. LOG_PER is its walk in one piece, how many records the walk gives, and where a record's fields lie
(44_log_periodic.md R142 to R156; 45_record_fields.md R170). -/

namespace Sys2Proof.Machine

/-- Settles O26: the checks end the command in its first move; past them the engine walks the pages of R145 and R149, each
section to its end or to a record that does not fit. -/
theorem logPerIsThePeriodicWalk : Obligations.LogPerIsThePeriodicWalk := fun _ _ _ hr hc => exec_logPer hr hc

/-! ## How many records -/

/-- A record is at least one field wide and fits before the section's bound (R152), so two bytes pay for each. -/
theorem sectionRun_length_le (s : State) (base g mask : Nat) (stop : SectionEnd) (fuel c : Nat) :
    2 * (s.sectionRun base g mask stop fuel c).entries.length ≤ stop.bound - c := by
  induction fuel generalizing c with
  | zero => exact Nat.zero_le _
  | succ fuel ih =>
    rw [State.sectionRun]
    split
    · exact Nat.zero_le _
    · split
      · exact Nat.zero_le _
      · rename_i hfits
        have hmore := ih (c + recordWidth mask)
        have hwide : recordWidth mask ≠ 0 → 2 ≤ recordWidth mask := by
          unfold recordWidth perFieldBytes
          omega
        simp only [List.length_cons]
        omega

/-- A section's records lie after its mask and before its bound, in at most 253 bytes (R146, R148). -/
theorem pageRun_length_le (s : State) (base p g : Nat) : (s.pageRun base p g).entries.length ≤ 126 := by
  have hrecords := sectionRun_length_le s base g (s.le16 (base + g * perPage + s.cfg.perMaskOff.val))
    (s.sectionEnd base p g) perPage (perFirst s.cfg)
  have hbound : (s.sectionEnd base p g).bound < 256 := SectionEnd.bound_lt
  have hfirst : 2 ≤ perFirst s.cfg := Nat.le_add_left _ _
  rw [State.pageRun]
  omega

theorem pagesRun_length_le (s : State) (base p : Nat) (gs : List Nat) :
    (s.pagesRun base p gs).entries.length ≤ 126 * gs.length := by
  induction gs with
  | nil => exact Nat.zero_le _
  | cons g gs ih =>
    have hpage := pageRun_length_le s base p g
    rw [State.pagesRun, List.length_cons]
    split
    · rw [List.length_append]
      omega
    · omega

/-- PTR's 13 bits name one of 32 pages (R143), whatever the region holds. -/
theorem perVisits_length_le_32 {c : Config} (hc : c.wf) (p : BitVec 16) (full : Bool) :
    (perVisits c (perPtr p / perPage) full).length ≤ 32 := by
  obtain ⟨-, -, -, -, -, hpages, -⟩ := hc
  cases full with
  | true => simpa [perVisits] using hpages
  | false =>
    have hpage : perPtr p / perPage < 32 := Nat.div_lt_of_lt_mul (Nat.mod_lt _ (by decide))
    simpa [perVisits] using hpage

/-- Settles O30: at most 126 records a page, over at most 32 pages. -/
theorem periodicRecordsAreBounded : Obligations.PeriodicRecordsAreBounded := fun s a hc =>
  ⟨pageRun_length_le s, (pagesRun_length_le s (basePage a) (perPtr s.ptr) _).trans
    (Nat.mul_le_mul_left 126 (perVisits_length_le_32 hc s.ptr (ptrFull s.ptr)))⟩

/-! ## Where the fields lie -/

theorem maskCount_le (mask k : Nat) : maskCount mask k ≤ k := by
  simpa [maskCount] using List.length_filter_le mask.testBit (List.range k)

/-- One more mask bit counts one more when it is set. -/
theorem maskCount_succ (mask k : Nat) :
    maskCount mask (k + 1) = maskCount mask k + if mask.testBit k then 1 else 0 := by
  rw [maskCount, List.range_succ, List.filter_append, List.length_append]
  cases h : mask.testBit k <;> simp [h, maskCount]

/-- Settles O37: a field's offset counts the mask bits below its own, two bytes each, so the next field starts two bytes on
exactly when this one is present. -/
theorem periodicFieldsTileTheRecord : Obligations.PeriodicFieldsTileTheRecord := by
  intro mask
  refine ⟨Nat.mul_le_mul_left perFieldBytes (maskCount_le mask perFields), rfl, rfl, fun k => ?_⟩
  unfold fieldOffset
  rw [maskCount_succ, Nat.mul_add]
  split <;> rfl

end Sys2Proof.Machine
end

section
/-! PROOF. The scientific value by its magnitude, and the efficiency views as quotients (45_record_fields.md R160 to R162,
R166 to R168). -/

namespace Sys2Proof.Machine

/-! ## The scientific value -/

/-- With e = 3 the scale 10^(e − 3) is 1 (R161, R162). -/
theorem sciValue_of_exponent_three {c : Config} {b0 b1 : Byte} (he : sciExponent c b1 = 3) :
    sciValue c b0 b1 = if sciNeg c b1 then -(sciMantissa c b0 b1 : Rat) else (sciMantissa c b0 b1 : Rat) := by
  rw [sciValue, he]
  split <;> simp

/-- The sign changes no magnitude (R161). -/
theorem abs_sciValue (c : Config) (b0 b1 : Byte) :
    |sciValue c b0 b1| = (sciMantissa c b0 b1 : Rat) * (10 : Rat) ^ ((sciExponent c b1 : Int) - 3) := by
  have hnonneg : 0 ≤ (sciMantissa c b0 b1 : Rat) * (10 : Rat) ^ ((sciExponent c b1 : Int) - 3) := by positivity
  rw [sciValue, mul_assoc]
  split
  · rw [neg_one_mul, abs_neg, abs_of_nonneg hnonneg]
  · rw [one_mul, abs_of_nonneg hnonneg]

/-- In every layout a nonzero value is at least the smallest scale, e = 0 (R162). -/
theorem abs_sciValue_ge {c : Config} {b0 b1 : Byte} (hm : sciMantissa c b0 b1 ≠ 0) : 1 / 1000 ≤ |sciValue c b0 b1| := by
  have hmantissa : (1 : Rat) ≤ sciMantissa c b0 b1 := by exact_mod_cast Nat.one_le_iff_ne_zero.2 hm
  have hscale : (10 : Rat) ^ (-3 : Int) ≤ (10 : Rat) ^ ((sciExponent c b1 : Int) - 3) :=
    zpow_le_zpow_right₀ (by norm_num) (by omega)
  calc (1 / 1000 : Rat) = 1 * (10 : Rat) ^ (-3 : Int) := by norm_num
    _ ≤ (sciMantissa c b0 b1 : Rat) * (10 : Rat) ^ ((sciExponent c b1 : Int) - 3) := by gcongr
    _ = |sciValue c b0 b1| := (abs_sciValue c b0 b1).symm

/-- A mantissa of 10 bits (R160). -/
theorem sciMantissa_le {c : Config} (hmh : c.sciMhHi = 1) (b0 b1 : Byte) : sciMantissa c b0 b1 ≤ 1023 := by
  have hb0 : b0.toNat < 256 := b0.isLt
  rw [sciMantissa, hmh, show (1 : Fin 8).val = 1 from rfl]
  omega

/-- An exponent field of 3 bits (R160). -/
theorem sciExponent_le {c : Config} (hhi : c.sciEHi = 4) (hlo : c.sciELo = 2) (b1 : Byte) : sciExponent c b1 ≤ 7 := by
  rw [sciExponent, hhi, hlo]
  exact Nat.le_of_lt_succ (Nat.mod_lt _ (by decide))

/-- The largest mantissa at the largest scale, e = 7 (R162). -/
theorem abs_sciValue_le {c : Config} (hmh : c.sciMhHi = 1) (hhi : c.sciEHi = 4) (hlo : c.sciELo = 2) (b0 b1 : Byte) :
    |sciValue c b0 b1| ≤ 10230000 := by
  have hmantissa : (sciMantissa c b0 b1 : Rat) ≤ 1023 := by exact_mod_cast sciMantissa_le hmh b0 b1
  have hexponent := sciExponent_le hhi hlo b1
  have hscale : (10 : Rat) ^ ((sciExponent c b1 : Int) - 3) ≤ (10 : Rat) ^ (4 : Int) :=
    zpow_le_zpow_right₀ (by norm_num) (by omega)
  calc |sciValue c b0 b1| = (sciMantissa c b0 b1 : Rat) * (10 : Rat) ^ ((sciExponent c b1 : Int) - 3) :=
        abs_sciValue c b0 b1
    _ ≤ 1023 * (10 : Rat) ^ (4 : Int) := by gcongr
    _ = 10230000 := by norm_num

/-- The value depends on no parameter but the four of its layout, which the vectors take as decided (R160). -/
theorem sciValue_eq_vectors {c : Config} (hmh : c.sciMhHi = 1) (hhi : c.sciEHi = 4) (hlo : c.sciELo = 2)
    (hsign : c.sciSign = 7) (b0 b1 : Byte) : sciValue c b0 b1 = sciValue Config.vectors b0 b1 := by
  rw [sciValue, sciMantissa, sciExponent, sciNeg, hmh, hhi, hlo, hsign]
  rfl

theorem sciValue_of_fields {c : Config} {b0 b1 : Byte} {m e : Nat} {neg : Bool} (hm : sciMantissa c b0 b1 = m)
    (he : sciExponent c b1 = e) (hneg : sciNeg c b1 = neg) :
    sciValue c b0 b1 = (if neg then -1 else 1) * (m : Rat) * (10 : Rat) ^ ((e : Int) - 3) := by
  rw [sciValue, hm, he, hneg]

/-- The bounds of R162 are reached. -/
theorem sciValue_vectors_smallest : sciValue Config.vectors 0x01 0x00 = 1 / 1000 :=
  (sciValue_of_fields (m := 1) (e := 0) (neg := false) rfl rfl rfl).trans (by norm_num)

theorem sciValue_vectors_largest : sciValue Config.vectors 0xFF 0x1F = 10230000 :=
  (sciValue_of_fields (m := 1023) (e := 7) (neg := false) rfl rfl rfl).trans (by norm_num)

theorem sciValue_vectors_lowest : sciValue Config.vectors 0xFF 0x9F = -10230000 :=
  (sciValue_of_fields (m := 1023) (e := 7) (neg := true) rfl rfl rfl).trans (by norm_num)

/-- Settles O36: the magnitude is the mantissa times a power of ten, each within the bounds its field's width gives. -/
theorem scientificValueCorners : Obligations.ScientificValueCorners := by
  have hzero : ∀ (c : Config) (b0 b1 : Byte), sciMantissa c b0 b1 = 0 → sciValue c b0 b1 = 0 := by
    intro c b0 b1 hm
    simp [sciValue, hm]
  refine ⟨hzero, fun _ _ _ => sciValue_of_exponent_three, fun c b0 b1 hmh hhi hlo hsign => ?_⟩
  obtain ⟨hlower, hupper⟩ := abs_le.1 (abs_sciValue_le hmh hhi hlo b0 b1)
  refine ⟨hlower, hupper, ?_, ?_, ?_, ?_⟩
  · by_cases hm : sciMantissa c b0 b1 = 0
    · exact .inl (hzero c b0 b1 hm)
    · exact .inr ((le_abs.1 (abs_sciValue_ge hm)).imp_right le_neg_of_le_neg)
  all_goals rw [sciValue_eq_vectors hmh hhi hlo hsign]
  · exact sciValue_vectors_smallest
  · exact sciValue_vectors_largest
  · exact sciValue_vectors_lowest

/-! ## The efficiency views -/

/-- `n` little-endian bytes stand for a number below 256^n (R50). -/
theorem leNat_lt (bs : List Byte) : leNat bs < 256 ^ bs.length := by
  induction bs with
  | nil => exact Nat.one_pos
  | cons b bs ih =>
    have hb : b.toNat < 256 := b.isLt
    rw [leNat, List.length_cons, Nat.pow_succ]
    omega

theorem leNat_take_three_lt (bs : List Byte) : leNat (bs.take 3) < 2 ^ 24 :=
  (leNat_lt _).trans_le (Nat.pow_le_pow_right (n := 256) (by decide) (List.length_take_le 3 bs))

/-- Both deltas are 24-bit numbers (R75, R122), whatever bytes the entry holds. -/
theorem entryX0_lt (e : List Byte) : entryX0 e < 2 ^ 24 := leNat_take_three_lt _

theorem entryX1_lt (e : List Byte) : entryX1 e < 2 ^ 24 := leNat_take_three_lt _

theorem effPercent_eq_none_iff (e : List Byte) : effPercent e = none ↔ entryX0 e = 0 := by
  simp [effPercent]

/-- A percent that is present is the quotient of R167 by a nonzero CHG_DELTA. -/
theorem effPercent_eq_some_iff {e : List Byte} {v : Rat} :
    effPercent e = some v ↔ entryX0 e ≠ 0 ∧ 100 * (entryX1 e : Rat) / (entryX0 e : Rat) = v := by
  simp [effPercent]

theorem effSelfDischarge_eq_none_iff (c : Config) (e : List Byte) :
    effSelfDischarge c e = none ↔ effMinutes c e = 0 := by
  simp [effSelfDischarge]

/-- A self-discharge that is present is the quotient of R168 by nonzero minutes. -/
theorem effSelfDischarge_eq_some_iff {c : Config} {e : List Byte} {v : Rat} :
    effSelfDischarge c e = some v ↔
      effMinutes c e ≠ 0 ∧ (effNet e : Rat) / 100 / ((effMinutes c e : Rat) / 60) = v := by
  simp [effSelfDischarge]

/-- Settles O38: both deltas are below 2^24, and a quotient by a nonzero divisor times that divisor is its dividend. -/
theorem efficiencyViewsAreTheFormulas : Obligations.EfficiencyViewsAreTheFormulas := by
  intro c e
  have hcharge := entryX0_lt e
  have hdischarge := entryX1_lt e
  refine ⟨rfl, by unfold effNet; omega, by unfold effNet; omega, effPercent_eq_none_iff e, ?_,
    effSelfDischarge_eq_none_iff c e, ?_⟩
  · intro v hv
    obtain ⟨hne, rfl⟩ := effPercent_eq_some_iff.1 hv
    exact div_mul_cancel₀ _ (Nat.cast_ne_zero.2 hne)
  · intro v hv
    obtain ⟨hne, rfl⟩ := effSelfDischarge_eq_some_iff.1 hv
    have hminutes : (effMinutes c e : Rat) ≠ 0 := Nat.cast_ne_zero.2 hne
    field_simp

end Sys2Proof.Machine
end

section
/-! PROOF. Commands end on a ready machine: those that do not wait on the transport in any case, the transactions once the
transport answers enough of their bytes, whatever its answers (70_reset_and_hazards.md R205). -/

namespace Sys2Proof.Machine

/-- The engine is IDLE and a completion is reported. -/
def State.Ended (s : State) : Prop := s.engine = .idle ∧ s.done = true

/-- Instruction `i` run in `s` ends within its step. -/
def State.Ends (s : State) (i : Instr) : Prop := ∃ t, exec i s = .next t ∧ t.Ended

theorem complete_ended (e : Err) (s : State) : (s.complete e).Ended := ⟨rfl, rfl⟩

theorem raiseJob_ended (job : Job) (e : Err) (s : State) : (s.raiseJob job e).Ended := by
  obtain ⟨hidle, hdone, -⟩ := raiseJob_ends job e s
  exact ⟨hidle, hdone⟩

/-! ## Commands without the transport -/

theorem commitLog_ended (r : LogRun) (s : State) : (s.commitLog r).Ended := by
  unfold State.commitLog
  split
  · exact complete_ended _ _
  · split <;> exact complete_ended _ _

theorem logEffResult_ended (a : Byte) (s : State) : (s.logEffResult a).Ended := by
  unfold State.logEffResult
  split
  · exact complete_ended _ _
  · split
    · exact complete_ended _ _
    · exact commitLog_ended _ _

theorem logProfResult_ended (a : Byte) (s : State) : (s.logProfResult a).Ended := by
  unfold State.logProfResult
  split
  · exact complete_ended _ _
  · split
    · exact commitLog_ended _ _
    · exact complete_ended _ _

theorem logPerResult_ended (a : Byte) (s : State) : (s.logPerResult a).Ended := by
  unfold State.logPerResult
  split
  · exact complete_ended _ _
  · split
    · exact complete_ended _ _
    · split
      · exact complete_ended _ _
      · exact commitLog_ended _ _

/-- Settles O51: the control commands end in at most two micro-steps, and a LOG command comes to the result of its walk. -/
theorem commandsWithoutTransportEnd : Obligations.CommandsWithoutTransportEnd := by
  intro i s hr hc hi
  cases i with
  | nop a b => exact ⟨_, exec_nop hr a b, hr.1, rfl⟩
  | csumClr a b => exact ⟨_, exec_csumClr hr a b, hr.1, rfl⟩
  | csumAdd a b => exact ⟨_, exec_csumAdd hr a b, hr.1, rfl⟩
  | logEff a b => exact ⟨_, logEffIsTheEfficiencyWalk a b s hr, logEffResult_ended _ _⟩
  | logProf a b => exact ⟨_, exec_logProf hr hc, logProfResult_ended _ _⟩
  | logPer a b => exact ⟨_, exec_logPer hr hc, logPerResult_ended _ _⟩
  | _ => exact hi.elim

/-! ## The transport's answers -/

/-- Of `n` answers to offered bytes all are `ok`, or one is the first abort. -/
theorem txAnswers_cases {n : Nat} {q : List TxAnswer} (h : n ≤ q.length) :
    (∃ tq, q = List.replicate n .ok ++ tq) ∨ ∃ j tq, j < n ∧ q = List.replicate j .ok ++ .abort :: tq := by
  induction n generalizing q with
  | zero => exact .inl ⟨q, rfl⟩
  | succ n ih =>
    match q, h with
    | .abort :: q, _ => exact .inr ⟨0, q, Nat.succ_pos n, rfl⟩
    | .ok :: q, h =>
      obtain ⟨tq, rfl⟩ | ⟨j, tq, hj, rfl⟩ := ih (Nat.le_of_succ_le_succ h)
      · exact .inl ⟨tq, rfl⟩
      · exact .inr ⟨j + 1, tq, Nat.succ_lt_succ hj, rfl⟩

/-- Of `n` answers to requests for a byte all give one, or one is the first abort. -/
theorem rxAnswers_cases {n : Nat} {q : List RxAnswer} (h : n ≤ q.length) :
    (∃ (got : List Byte) (rq : List RxAnswer), got.length = n ∧ q = got.map .byte ++ rq) ∨
      ∃ (got : List Byte) (rq : List RxAnswer), got.length < n ∧ q = got.map .byte ++ .abort :: rq := by
  induction n generalizing q with
  | zero => exact .inl ⟨[], q, rfl, rfl⟩
  | succ n ih =>
    match q, h with
    | .abort :: q, _ => exact .inr ⟨[], q, Nat.succ_pos n, rfl⟩
    | .byte b :: q, h =>
      obtain ⟨got, rq, rfl, rfl⟩ | ⟨got, rq, hgot, rfl⟩ := ih (Nat.le_of_succ_le_succ h)
      · exact .inl ⟨b :: got, rq, rfl, rfl⟩
      · exact .inr ⟨b :: got, rq, Nat.succ_lt_succ hgot, rfl⟩

section
variable {s u : State} {r r' p p' : List Byte} {tq : List TxAnswer} {rq : List RxAnswer}

theorem State.answers.lengths (h : s.answers r p tq rq) :
    s.txQ.length = r.length + tq.length ∧ s.rxQ.length = p.length + rq.length := by
  obtain ⟨ht, hrx⟩ := h
  exact ⟨by rw [ht, List.length_append, List.length_replicate], by rw [hrx, List.length_append, List.length_map]⟩

/-- Answers to one request and then, in a state `u` that has those left, to a second: the converse of
`State.answers_append`. -/
theorem State.answers.trans (h : s.answers r p u.txQ u.rxQ) (h' : u.answers r' p' tq rq) :
    s.answers (r ++ r') (p ++ p') tq rq := by
  obtain ⟨ht, hrx⟩ := h
  obtain ⟨ht', hrx'⟩ := h'
  exact ⟨by rw [ht, ht', List.length_append, List.replicate_add, List.append_assoc],
    by rw [hrx, hrx', List.map_append, List.append_assoc]⟩

end

section
variable {s u : State} {i : Instr} {req : List Byte} {n : Nat} {k : Bool} {job : Job}

/-- A request on offer with answers enough for it and its response: an abort ends the command, or all bytes are answered. -/
theorem ends_or_answered (hi : isCommand i = true) (hr : s.ready) (h : s.Offers i req n k job u)
    (ht : req.length ≤ u.txQ.length) (hrx : n ≤ u.rxQ.length) :
    s.Ends i ∨ ∃ resp tq rq, resp.length = n ∧ u.answers req resp tq rq := by
  obtain ⟨tq, htq⟩ | ⟨j, tq, hj, htq⟩ := txAnswers_cases ht
  · obtain ⟨resp, rq, hl, hrq⟩ | ⟨got, rq, hg, hrq⟩ := rxAnswers_cases hrx
    · exact .inr ⟨resp, tq, rq, hl, htq, hrq⟩
    · exact .inl ⟨_, (exec_command hi s).trans (runCommand_rx_abort hr h hg htq hrq), raiseJob_ended _ _ _⟩
  · exact .inl ⟨_, (exec_command hi s).trans (runCommand_tx_abort hr h hj htq), raiseJob_ended _ _ _⟩

/-! ## Short transactions -/

/-- The check of a short transaction's response ends its command, whether it passes or fails (R97, R100). -/
theorem checkResponse_ended (hjob : ∀ w page, job ≠ .pagedRead w page) (resp : List Byte) (s : State) :
    (s.checkResponse k job resp).Ended := by
  unfold State.checkResponse
  split
  · cases job with
    | shortRead n => exact complete_ended _ _
    | shortWrite => exact complete_ended _ _
    | pagedRead w page => exact absurd rfl (hjob w page)
  · exact raiseJob_ended _ _ _

theorem ends_of_short_offer (hi : isCommand i = true) (hr : s.ready) (h : s.Offers i req n k job u)
    (hjob : ∀ w page, job ≠ .pagedRead w page) (ht : req.length ≤ u.txQ.length) (hrx : n ≤ u.rxQ.length) :
    s.Ends i := by
  obtain hends | ⟨resp, tq, rq, hl, htq, hrq⟩ := ends_or_answered hi hr h ht hrx
  · exact hends
  · have hended := checkResponse_ended (k := k) hjob resp
    exact ⟨_, (exec_command hi s).trans
      (runCommand_answered (m := 0) hr h hl htq hrq (by decide) rfl (hended _).1), hended _⟩

end

section
variable {s : State} {a b : Byte} (hr : s.ready)
include hr

theorem sread_ends (ht : 5 ≤ s.txQ.length) (hrx : b.toNat + 2 ≤ s.rxQ.length) : s.Ends (.sread a b) := by
  by_cases hb : b.toNat < 1 ∨ 16 < b.toNat
  · obtain ⟨hbad, -⟩ := operandsOutOfRangeAreBadRequest a b s hr
    exact ⟨_, (hbad hb).1, hr.1, rfl⟩
  have hc := cookieLen_le s.cookieEn
  have hoffers := offers_shortRead (a := a) hr (b := b) (by unfold shortMin; omega) (by unfold shortMax; omega)
  refine ends_of_short_offer rfl hr hoffers nofun (Nat.le_trans ?_ ht) (Nat.le_trans ?_ hrx)
  · rw [List.length_append, cookieBytes_length, shortReadRequest_length]
    omega
  · omega

theorem swrite_ends (ht : b.toNat + 5 ≤ s.txQ.length) (hrx : 2 ≤ s.rxQ.length) : s.Ends (.swrite a b) := by
  by_cases hb : b.toNat < 1 ∨ 16 < b.toNat
  · obtain ⟨hbad, -⟩ := operandsOutOfRangeAreBadRequest a b s hr
    exact ⟨_, (hbad hb).2, hr.1, rfl⟩
  have hc := cookieLen_le s.cookieEn
  have hoffers := offers_shortWrite (a := a) hr (b := b) (by unfold shortMin; omega) (by unfold shortMax; omega)
  refine ends_of_short_offer rfl hr hoffers nofun (Nat.le_trans ?_ ht) (Nat.le_trans ?_ hrx)
  · have hp := List.length_take_le b.toNat s.wbuf.toList
    rw [List.length_append, cookieBytes_length, shortWriteRequest_length]
    omega
  · omega

/-! ## Paged read -/

variable {resps : List (List Byte)} {tq : List TxAnswer} {rq : List RxAnswer}

/-- PREAD with the request of window `resps.length` on offer and answers left for it and its response: the window ends the
command, or one good response more has come (R104, R105). -/
theorem window_ends_or_good (hab : a.toNat + b.toNat ≤ 256) (hlt : resps.length < b.toNat)
    (hg : ∀ resp ∈ resps, goodResponse s.cookieEn devPage resp)
    (ha : s.answers (pageRequests s.cookieEn a.toNat resps.length) resps.flatten tq rq)
    (ht : 5 ≤ tq.length) (hrx : 258 ≤ rq.length) :
    s.Ends (.pread a b) ∨ ∃ resp tq' rq', goodResponse s.cookieEn devPage resp ∧
      s.answers (pageRequests s.cookieEn a.toNat (resps.length + 1)) (resps.flatten ++ resp) tq' rq' ∧
      tq.length ≤ 5 + tq'.length ∧ rq.length ≤ 258 + rq'.length := by
  have hc := cookieLen_le s.cookieEn
  have hoffers := offers_window hr hab hlt hg ha
  have hreq : (cookieBytes s.cookieEn ++ pagedReadRequest (a + BitVec.ofNat 8 resps.length)).length ≤ 5 := by
    rw [List.length_append, cookieBytes_length, pagedReadRequest_length]
    omega
  have hresp : cookieLen s.cookieEn + devPage + 1 ≤ 258 := by
    unfold devPage
    omega
  obtain hends | ⟨resp, tq', rq', hl, hans⟩ := ends_or_answered rfl hr hoffers (hreq.trans ht) (hresp.trans hrx)
  · exact .inl hends
  by_cases hgood : goodResponse s.cookieEn devPage resp
  · obtain ⟨htx, hrx'⟩ := hans.lengths
    simp only [State.fetching] at htx hrx'
    refine .inr ⟨resp, tq', rq', hgood, ?_, by omega, by omega⟩
    rw [pageRequests_succ]
    exact ha.trans hans
  · obtain ⟨htq, hrq⟩ := hans
    exact .inl ⟨_, runCommand_bad_response hr hoffers hl htq hrq fun _ => checks_fail_of_not_good hl hgood,
      raiseJob_ended _ _ _⟩

/-- PREAD with good responses to its first windows and answers left for the `d` windows after them: a window ends the
command, or the last one completes it (R102, R104, R105). -/
theorem pread_ends_from {d : Nat} (hb : 1 ≤ b.toNat) (hab : a.toNat + b.toNat ≤ 256) (hd : resps.length + d = b.toNat)
    (hg : ∀ resp ∈ resps, goodResponse s.cookieEn devPage resp)
    (ha : s.answers (pageRequests s.cookieEn a.toNat resps.length) resps.flatten tq rq)
    (ht : 5 * d ≤ tq.length) (hrx : 258 * d ≤ rq.length) : s.Ends (.pread a b) := by
  induction d generalizing resps tq rq with
  | zero => exact ⟨_, preadFetchesItsPages a b s resps tq rq hr hb hab hd hg (hd ▸ ha), hr.1, rfl⟩
  | succ d ih =>
    obtain hends | ⟨resp, tq', rq', hgood, hans, htx, hrx'⟩ :=
      window_ends_or_good hr hab (by omega) hg ha (by omega) (by omega)
    · exact hends
    have hlen : (resps ++ [resp]).length = resps.length + 1 := List.length_append
    have hall : ∀ r ∈ resps ++ [resp], goodResponse s.cookieEn devPage r :=
      List.forall_mem_append.2 ⟨hg, List.forall_mem_singleton.2 hgood⟩
    refine ih (by omega) hall ?_ (show 5 * d ≤ tq'.length by omega) (show 258 * d ≤ rq'.length by omega)
    rw [hlen, List.flatten_append, List.flatten_singleton]
    exact hans

theorem pread_ends (ht : 5 * b.toNat ≤ s.txQ.length) (hrx : 258 * b.toNat ≤ s.rxQ.length) : s.Ends (.pread a b) := by
  by_cases hab : b.toNat = 0 ∨ 256 < a.toNat + b.toNat
  · exact ⟨_, runCommand_raise hr (beginPread_bad _ hab), complete_ended _ _⟩
  · exact pread_ends_from hr (by omega) (by omega) (resps := []) (Nat.zero_add _) (by simp) ⟨rfl, rfl⟩ ht hrx

end

/-- Settles O52: the first abort or bad response ends the command, and without one it ends with its last response. -/
theorem answeredTransactionsEnd : Obligations.AnsweredTransactionsEnd := by
  intro i s hr hi
  cases i with
  | sread a b => exact sread_ends hr hi.1 hi.2
  | swrite a b => exact swrite_ends hr hi.1 hi.2
  | pread a b => exact pread_ends hr hi.1 hi.2
  | _ => exact hi.elim

end Sys2Proof.Machine
end
